-- ==== Sys2Proof/Word.lean ====
section
/-! DEFINITION. The word types of the core (spec/00_scope.md R8, R11; spec/10_state.md R27, R28, R33; spec/30_encoding.md R90, R91). Every value is unsigned (R14). -/

namespace Sys2Proof

/-- A byte: a queue byte, a buffer-memory byte, the `op` and `imm8` fields (R28, R64, R91). -/
abbrev Byte := BitVec 8

/-- A lane, a u64 (R27). -/
abbrev Lane := BitVec 64

/-- A host-visible register, 32 bits wide (R33). -/
abbrev Reg := BitVec 32

/-- A 16-bit command field: OFF or LEN (R91). -/
abbrev Half := BitVec 16

/-- A 64-bit logical command word W = {ARG, CMD} (R90). -/
abbrev CmdWord := BitVec 64

/-- A context number as the 4-bit `ctx`, `ctx2` and LASTCTX fields hold it (R37, R91). -/
abbrev CtxId := BitVec 4

end Sys2Proof
end

