-- ==== Sys2Proof/Config.lean ====
section
/-! DEFINITION. What a build of the core fixes (spec/00_scope.md R8 to R10) and the free values the spec leaves open (spec/93_implementation_defined.md U2, U3, U4, U18, U19). -/

namespace Sys2Proof

/-- The parameters of a build (R10): the number of contexts NCTX, the binary logarithm of the buffer
memory's size MEMSZ (a power of two) and the bus address BASE of the core's window. A state carries the
build it belongs to, as the ID register does (R35), so a statement about every state is about every build. -/
structure Build where
  /-- `NCTX`, 1 to 16. -/
  nctx : Nat
  /-- log2 of `MEMSZ`, 8 to 16. -/
  memLog : Nat
  /-- `BASE`, aligned to 128 KiB. -/
  base : Nat
  deriving DecidableEq, Repr

namespace Build

/-- `MEMSZ`, the bytes of buffer memory (R64). -/
def memsz (b : Build) : Nat := 2 ^ b.memLog

/-- The allowed values of R10 and R66. -/
abbrev Legal (b : Build) : Prop :=
  (1 ≤ b.nctx ∧ b.nctx ≤ 16) ∧ (8 ≤ b.memLog ∧ b.memLog ≤ 16) ∧ b.base % 0x20000 = 0

end Build

/-- The permutation's width b in bits (R8). -/
def Config.stateBits : Nat := 1600

/-- QMAX, the queue bytes of each context (R9). -/
def Config.qmax : Nat := 168

/-- The bytes of the core's window on the host bus: BASE to BASE + 0x1FFFF (R60). -/
def Config.windowBytes : Nat := 0x20000

/-- The default build (R10): NCTX = 4, MEMSZ = 4096. BASE is OPEN in the spec; 0 here is a DESIGN CHOICE
(notes/assumptions/2.md), unsafe; statements quantify over every build. -/
def Config.defaultBuild : Build := { nctx := 4, memLog := 12, base := 0 }

/-- FREE VALUE (R65, R300, U2, U3): what buffer-memory byte `a` holds after the `n`-th power-on reset, until
something writes it. It has no body that a proof could use: "a model draws each byte freely". -/
opaque Config.powerOnByte (n a : Nat) : Byte

end Sys2Proof
end

