-- ==== Sys2Proof/Syntax.lean ====
section
/-! DEFINITION. The ten commands of spec/30_encoding.md R95 and spec/opcode_table.json, one constructor a row. A constructor holds the fields R93 calls "operand"; "zero" and "ignored" fields are no part of the command. -/

namespace Sys2Proof

inductive Instr where
  /-- CONFIG (op 0x01, R190): `imm8` is the variant code, LEN the bit length. -/
  | config (ctx : CtxId) (variant : Byte) (bitLength : Half)
  /-- RESET (op 0x02, R191). -/
  | reset (ctx : CtxId)
  /-- UPDATE_BYTE (op 0x03, R220): `imm8` is the data byte. -/
  | updateByte (ctx : CtxId) (byte : Byte)
  /-- UPDATE (op 0x04, R221). -/
  | update (ctx : CtxId) (off len : Half)
  /-- DO_FINAL (op 0x05, R222). -/
  | doFinal (ctx : CtxId) (off : Half)
  /-- DO_FINAL_XOF (op 0x06, R223). -/
  | doFinalXof (ctx : CtxId) (off len : Half)
  /-- DO_OUTPUT (op 0x07, R224). -/
  | doOutput (ctx : CtxId) (off len : Half)
  /-- COPY (op 0x08, R192): `ctx` is the destination, `ctx2` the source. -/
  | copy (dst src : CtxId)
  /-- GET_DIGEST_SIZE (op 0x09, R193). -/
  | getDigestSize (ctx : CtxId)
  /-- GET_BYTE_LENGTH (op 0x0A, R194). -/
  | getByteLength (ctx : CtxId)
  deriving DecidableEq, Repr

end Sys2Proof
end

