-- ==== Sys2Proof/WellFormed.lean ====
section
/-! DEFINITION. Which commands a build can be given: the context numbers of spec/30_encoding.md R92. Every other operand value is a legal encoding (R93, R94). -/

namespace Sys2Proof

/-- The context number is below NCTX (R92). -/
abbrev ctxInRange (b : Build) (c : CtxId) : Prop := c.toNat < b.nctx

/-- Every context the command names is below NCTX; for COPY both the destination and the source (R92, R96). -/
def wellFormed (b : Build) : Instr → Bool
  | .config c _ _ => ctxInRange b c
  | .reset c => ctxInRange b c
  | .updateByte c _ => ctxInRange b c
  | .update c _ _ => ctxInRange b c
  | .doFinal c _ => ctxInRange b c
  | .doFinalXof c _ _ => ctxInRange b c
  | .doOutput c _ _ => ctxInRange b c
  | .copy d s => ctxInRange b d && ctxInRange b s
  | .getDigestSize c => ctxInRange b c
  | .getByteLength c => ctxInRange b c

end Sys2Proof
end

