-- ==== Sys2Proof/Decode.lean ====
section
/-! DEFINITION. The command word's fields, the decoder and the encoder (spec/30_encoding.md R90 to R97), and the host's view of the decoder. -/

namespace Sys2Proof

/-! ## The fields of W (R91) -/

def fieldOp (w : CmdWord) : Byte := w.extractLsb' 0 8
def fieldCtx (w : CmdWord) : CtxId := w.extractLsb' 8 4
def fieldCtx2 (w : CmdWord) : CtxId := w.extractLsb' 12 4
def fieldImm8 (w : CmdWord) : Byte := w.extractLsb' 16 8
def fieldRsv (w : CmdWord) : Byte := w.extractLsb' 24 8
def fieldOff (w : CmdWord) : Half := w.extractLsb' 32 16
def fieldLen (w : CmdWord) : Half := w.extractLsb' 48 16

/-- A field as part of a word of n bits, its bit 0 at bit `lo` (R11). -/
def placeField (n : Nat) {w : Nat} (lo : Nat) (v : BitVec w) : BitVec n := (v.setWidth n) <<< lo

/-- W from its fields, `rsv` = 0 (R91). -/
def packWord (op : Byte) (ctx ctx2 : CtxId) (imm8 : Byte) (off len : Half) : CmdWord :=
  placeField 64 0 op ||| placeField 64 8 ctx ||| placeField 64 12 ctx2 ||| placeField 64 16 imm8
    ||| placeField 64 32 off ||| placeField 64 48 len

/-- W = {ARG, CMD} (R34, R90). -/
def joinWord (arg cmd : Reg) : CmdWord := placeField 64 0 cmd ||| placeField 64 32 arg

/-! ## Decoding (R97) -/

/-- Why the decoder rejects a word, in the order of R97's lines. Each is an IllegalCommand (R96). -/
inductive DecodeError where
  /-- `op` is 0x00 or 0x0B to 0xFF. -/
  | undefinedOp
  /-- `rsv` ≠ 0. -/
  | rsvNonzero
  /-- `ctx2` ≠ 0 in a command other than COPY. -/
  | ctx2Nonzero
  /-- `imm8` ≠ 0 in a command other than CONFIG and UPDATE_BYTE. -/
  | imm8Nonzero
  /-- `ctx` ≥ NCTX. -/
  | ctxOutOfRange
  /-- COPY with `ctx2` ≥ NCTX. -/
  | ctx2OutOfRange
  deriving DecidableEq, Repr

/-- The command `op` names, with its operand fields (R93, R95); none where `op` is undefined (R96). -/
def commandOf (w : CmdWord) : Option Instr :=
  match (fieldOp w).toNat with
  | 0x01 => some (.config (fieldCtx w) (fieldImm8 w) (fieldLen w))
  | 0x02 => some (.reset (fieldCtx w))
  | 0x03 => some (.updateByte (fieldCtx w) (fieldImm8 w))
  | 0x04 => some (.update (fieldCtx w) (fieldOff w) (fieldLen w))
  | 0x05 => some (.doFinal (fieldCtx w) (fieldOff w))
  | 0x06 => some (.doFinalXof (fieldCtx w) (fieldOff w) (fieldLen w))
  | 0x07 => some (.doOutput (fieldCtx w) (fieldOff w) (fieldLen w))
  | 0x08 => some (.copy (fieldCtx w) (fieldCtx2 w))
  | 0x09 => some (.getDigestSize (fieldCtx w))
  | 0x0A => some (.getByteLength (fieldCtx w))
  | _ => none

/-- The decoder of R97, line by line: every word decodes to one command or is rejected by name. -/
def decode (b : Build) (w : CmdWord) : Except DecodeError Instr :=
  match commandOf w with
  | none => .error .undefinedOp
  | some i =>
    if fieldRsv w ≠ 0 then .error .rsvNonzero
    else if fieldOp w ≠ 0x08 ∧ fieldCtx2 w ≠ 0 then .error .ctx2Nonzero
    else if (fieldOp w ≠ 0x01 ∧ fieldOp w ≠ 0x03) ∧ fieldImm8 w ≠ 0 then .error .imm8Nonzero
    else if ¬ ctxInRange b (fieldCtx w) then .error .ctxOutOfRange
    else if fieldOp w = 0x08 ∧ ¬ ctxInRange b (fieldCtx2 w) then .error .ctx2OutOfRange
    else .ok i

/-! ## Encoding (R93, R95, R99) -/

/-- The `op` field of a command (R95). -/
def opOf : Instr → Byte
  | .config _ _ _ => 0x01
  | .reset _ => 0x02
  | .updateByte _ _ => 0x03
  | .update _ _ _ => 0x04
  | .doFinal _ _ => 0x05
  | .doFinalXof _ _ _ => 0x06
  | .doOutput _ _ _ => 0x07
  | .copy _ _ => 0x08
  | .getDigestSize _ => 0x09
  | .getByteLength _ => 0x0A

/-- The `ctx` field of a command: the context operated on, for COPY the destination (R92). -/
def ctxOf : Instr → CtxId
  | .config c _ _ => c
  | .reset c => c
  | .updateByte c _ => c
  | .update c _ _ => c
  | .doFinal c _ => c
  | .doFinalXof c _ _ => c
  | .doOutput c _ _ => c
  | .copy d _ => d
  | .getDigestSize c => c
  | .getByteLength c => c

/-- The word a command assembles to, every "zero" and every "ignored" field 0 (R99). -/
def encode : Instr → CmdWord
  | .config c v n => packWord 0x01 c 0 v 0 n
  | .reset c => packWord 0x02 c 0 0 0 0
  | .updateByte c b => packWord 0x03 c 0 b 0 0
  | .update c off len => packWord 0x04 c 0 0 off len
  | .doFinal c off => packWord 0x05 c 0 0 off 0
  | .doFinalXof c off len => packWord 0x06 c 0 0 off len
  | .doOutput c off len => packWord 0x07 c 0 0 off len
  | .copy d s => packWord 0x08 d s 0 0 0
  | .getDigestSize c => packWord 0x09 c 0 0 0 0
  | .getByteLength c => packWord 0x0A c 0 0 0 0

/-! ## The host's numbering of a table word -/

/-- W from a table word of `nbits` bits; the bits above `nbits` are 0. -/
def tableWord (nbits w : Nat) : CmdWord := BitVec.ofNat 64 (w % 2 ^ nbits)

/-- What the decoder of the default build (NCTX = 4) reads from a table word. -/
def decodeTableWord (nbits w : Nat) : Option Instr :=
  match decode Config.defaultBuild (tableWord nbits w) with
  | .ok i => some i
  | .error _ => none

end Sys2Proof
end

