-- ==== Sys2Proof/Machine/State.lean ====
section
/-! DEFINITION. Everything the spec gives the core, as plain data (spec/10_state.md, spec/20_memory.md, spec/70_reset_and_hazards.md R301), the Host's side of the bus, the ways a step can stop, and the state after power-on reset. -/

namespace Sys2Proof.Machine

/-! ## Contexts (10_state.md section 2) -/

/-- The three variants; their codes 0, 1, 2 are R94's (R25 `variant`). -/
inductive Variant where
  | keccak
  | sha3
  | shake
  deriving DecidableEq, Repr

/-- The phase of a context (R31): 0 = Absorbing, 1 = Squeezing. -/
inductive Phase where
  | absorbing
  | squeezing
  deriving DecidableEq, Repr

/-- The configuration fields of a context but `valid` (R25). Counts are exact (R12); that each
keeps within the width R25 gives it follows from the invariants (`Context.Legal`). -/
structure Cfg where
  variant : Variant
  bitlen : Nat
  rate : Nat
  capacity : Nat
  sfxVal : BitVec 4
  sfxLen : Nat
  xof : Bool
  dsize : Nat
  deriving DecidableEq, Repr

/-- The lane file A[0..24] (R27): lane (x, y) is A[x + 5*y]. -/
abbrev Lanes := Vector Lane 25

/-- The queue Q[0..QMAX-1], QMAX = 168 (R28). -/
abbrev Queue := Vector Byte 168

/-- One context: an instance of the engine with its configuration (R24 to R31). -/
structure Context where
  /-- 1 = configured (R25, R26). -/
  valid : Bool
  cfg : Cfg
  lanes : Lanes
  queue : Queue
  /-- bitsInQueue (R29). -/
  biq : Nat
  /-- bitsAvailableForSqueezing (R30). -/
  bas : Nat
  phase : Phase
  deriving DecidableEq, Repr

/-- The all-zero configuration of an unconfigured context (R25). -/
def Cfg.zero : Cfg :=
  { variant := .keccak, bitlen := 0, rate := 0, capacity := 0, sfxVal := 0, sfxLen := 0, xof := false, dsize := 0 }

/-- A context after power-on reset (R41, R301). -/
def Context.powerOn : Context :=
  { valid := false, cfg := Cfg.zero, lanes := Vector.replicate 25 0, queue := Vector.replicate 168 0,
    biq := 0, bas := 0, phase := .absorbing }

/-! ## STATUS (10_state.md R37) -/

/-- The error kinds of a command (60_exceptions.md R263). -/
inductive ErrKind where
  /-- ERR = 1. -/
  | configurationError
  /-- ERR = 2. -/
  | stateError
  /-- ERR = 3. -/
  | bufferError
  /-- ERR = 4. -/
  | illegalCommand
  deriving DecidableEq, Repr

/-- The fields of STATUS but BUSY, whose home is `State.inFlight`. ERR = 0 is `none`; codes 5 to 7 are
never produced (R263, U9) and have no value here. The reserved bits always read 0 (R37) and have no storage. -/
structure Status where
  err : Option ErrKind
  sticky : Bool
  ovr : Bool
  lastOp : Byte
  lastCtx : CtxId
  deriving DecidableEq, Repr

/-- STATUS after power-on reset but for BUSY (R37). -/
def Status.powerOn : Status :=
  { err := none, sticky := false, ovr := false, lastOp := 0, lastCtx := 0 }

/-! ## The Host's side of the bus (20_memory.md section 4, 70_reset_and_hazards.md) -/

/-- The width of a bus access (R68). -/
inductive Width where
  | byte
  | half
  | word
  deriving DecidableEq, Repr

/-- One Host access, at a bus address. A write moves the low bits of `v` that its width takes (R69). -/
inductive BusAccess where
  | read (w : Width) (addr : Nat)
  | write (w : Width) (addr : Nat) (v : Reg)
  deriving DecidableEq, Repr

/-- The answer to a Host access: read data (zero-extended), a write's acknowledgement, or the bus-error
response of R68. -/
inductive BusResponse where
  | data (v : Reg)
  | ack
  | busError
  deriving DecidableEq, Repr

/-- What happens next, in the order the outside world and the core's latency choose it (R314, R315). -/
inductive Event where
  /-- A Host access alone: the split view R314 (b). -/
  | host (a : BusAccess)
  /-- The core's turn: it performs the command in flight, or idles (R285). -/
  | core
  /-- A Host access and the core's turn in one step. With a CMD write to an idle core it is the atomic view
  R314 (a); with a command in flight it is an access in the cycle in which that command completes (R37). -/
  | hostCore (a : BusAccess)
  /-- Power-on reset is asserted (R300). -/
  | resetAssert
  /-- Power-on reset is released (R300). -/
  | resetRelease
  deriving DecidableEq, Repr

/-- The Host's own state: the events still to come (oldest first), the last answer on the bus, and the
command index of R22, which the spec makes the command program's own state. -/
structure HostSide where
  pending : List Event
  response : Option BusResponse
  cmdIndex : Nat
  deriving DecidableEq, Repr

/-! ## The machine -/

/-- The buffer memory (R64): the bytes written since power-on, in one canonical form (`Memory.wf`). A byte
that nothing has written is not listed; it reads as the free value `Config.powerOnByte`. -/
abbrev Memory := List Host.Cell

structure State where
  /-- The build's parameters, which the constant ID register shows (R10, R35). -/
  build : Build
  /-- Contexts 0 to 15; a build has those below NCTX, the rest stay as at power-on (R24). -/
  ctxs : Vector Context 16
  /-- ARG (R36). -/
  arg : Reg
  /-- STATUS but for BUSY (R37). -/
  status : Status
  /-- RESULT (R38). -/
  result : Reg
  /-- The buffer memory (R64). -/
  mem : Memory
  /-- The latched word of the command in flight (R39). STATUS.BUSY is 1 exactly when there is one. -/
  inFlight : Option CmdWord
  /-- Power-on reset is asserted (R300). -/
  inReset : Bool
  /-- The model's own field: how many power-on resets came before this one; it selects the free values of
  the buffer memory's unwritten bytes (R65). -/
  powerOns : Nat
  /-- The Host's side of the bus. -/
  host : HostSide
  deriving DecidableEq, Repr

/-- Why the machine stops with a fault. -/
inductive Fault where
  /-- Raised by a Host access to a bus address outside BASE to BASE + 0x1FFFF: the spec gives the core no such
  address (R60, R66), and the platform routes it elsewhere. Safe: the model stops where the platform goes on. -/
  | outsideWindow (addr : Nat)
  deriving DecidableEq, Repr

/-- Why the model refuses a step. No command is refused: each ends in a next state. -/
inductive Refusal where
  /-- An instruction whose meaning is not written. Raised by `exec` only, and by no arm of it now. Safe. -/
  | notModelled (mnemonic : String)
  /-- Raised by a Host access to the buffer memory while BUSY = 1: "A model refuses the access" (R312, U5).
  Safe: the model stops where the hardware goes on with an unspecified result. -/
  | hostBufferAccessWhileBusy
  /-- Raised by a Host access while power-on reset is asserted: "outside this spec" (R300, U6). Safe: the
  model stops. -/
  | hostAccessDuringReset
  deriving DecidableEq, Repr

/-- The machine right after power-on reset number `n` of a build (R41, R301), the Host having nothing to do. -/
def State.powerOn (b : Build) (n : Nat) : State :=
  { build := b
    ctxs := Vector.replicate 16 Context.powerOn
    arg := 0
    status := Status.powerOn
    result := 0
    mem := []
    inFlight := none
    inReset := false
    powerOns := n
    host := { pending := [], response := none, cmdIndex := 0 } }

/-- The machine right after reset, of the default build. -/
def State.reset : State := State.powerOn Config.defaultBuild 0

end Sys2Proof.Machine
end

