-- ==== Sys2Proof/Machine/Flags.lean ====
section
/-! DEFINITION. The STATUS and ID registers as 32-bit words, STATUS's write-1-to-clear bits, and Finish's writes (spec/10_state.md R35, R37; spec/60_exceptions.md R262, R263). -/

namespace Sys2Proof.Machine

/-- The ERR code of an outcome (R263). -/
def errCode : Option ErrKind → BitVec 3
  | none => 0
  | some .configurationError => 1
  | some .stateError => 2
  | some .bufferError => 3
  | some .illegalCommand => 4

/-- STATUS.BUSY (R37): a command is executing. -/
def State.busy (s : State) : Bool := s.inFlight.isSome

/-- STATUS as the Host reads it (R37). -/
def State.statusWord (s : State) : Reg :=
  placeField 32 0 (BitVec.ofBool s.busy) ||| placeField 32 1 (errCode s.status.err)
    ||| placeField 32 4 (BitVec.ofBool s.status.sticky) ||| placeField 32 5 (BitVec.ofBool s.status.ovr)
    ||| placeField 32 8 s.status.lastOp ||| placeField 32 16 s.status.lastCtx

/-- ID (R35): constant for a build. -/
def idWord (b : Build) : Reg :=
  placeField 32 0 (0x4B : BitVec 8) ||| placeField 32 8 (BitVec.ofNat 4 (b.nctx - 1))
    ||| placeField 32 12 (BitVec.ofNat 4 (b.memLog - 8)) ||| placeField 32 16 (0x01 : BitVec 8)

/-- A Host write of v to STATUS: 1 in bit 4 clears STICKY, 1 in bit 5 clears OVR, the rest is ignored (R37). -/
def Status.writeClear (t : Status) (v : Reg) : Status :=
  { t with sticky := t.sticky && !v.getLsbD 4, ovr := t.ovr && !v.getLsbD 5 }

/-- What Finish writes to STATUS but BUSY (R262). -/
def Status.finish (t : Status) (op : Byte) (c : CtxId) (e : Option ErrKind) : Status :=
  { t with err := e, lastOp := op, lastCtx := c, sticky := t.sticky || e.isSome }

/-- A dropped CMD write sets OVR and nothing else (R311). -/
def Status.setOvr (t : Status) : Status := { t with ovr := true }

end Sys2Proof.Machine
end

