-- ==== Sys2Proof/Machine/Keccak.lean ====
section
/-! DEFINITION. The permutation datapath: Keccak-f[1600], its five step mappings and its two constant tables (spec/40_permutation.md R120 to R134). -/

namespace Sys2Proof.Machine

/-! ## Lanes (R27, R121) -/

/-- Lane k of the lane file. -/
def laneK (A : Lanes) (k : Nat) : Lane := A.toList.getD k 0

/-- Lane (x, y), the indices taken mod 5: A[x + 5*y] (R27, R121). -/
def lane (A : Lanes) (x y : Nat) : Lane := laneK A (x % 5 + 5 * (y % 5))

/-- The lane file whose lane k is `f k`. -/
def lanesOf (f : Nat → Lane) : Lanes := ⟨((List.range 25).map f).toArray, by simp⟩

/-- The lane file whose lane (x, y) is `f x y`: each step reads its whole input before it writes (R121). -/
def lanesXY (f : Nat → Nat → Lane) : Lanes := lanesOf fun k => f (k % 5) (k / 5)

/-- The all-zero lane file (R150). -/
def lanesZero : Lanes := Vector.replicate 25 0

/-- Rotate left by n mod 64 places (R12). -/
def rotl (v : Lane) (n : Nat) : Lane := (v <<< (n % 64)) ||| (v >>> (64 - n % 64))

/-! ## The constant tables (R40) -/

/-- RHO by lane index k = x + 5*y (R131). -/
def rhoTable : List Nat :=
  [0, 1, 62, 28, 27, 36, 44, 6, 55, 20, 3, 10, 43, 25, 39, 41, 45, 15, 21, 8, 18, 2, 61, 56, 14]

/-- RHO[x][y]. -/
def rhoOffset (x y : Nat) : Nat := rhoTable.getD (x % 5 + 5 * (y % 5)) 0

/-- The table of R133 as its rows stand: RC[i] beside RC[i + 12], for i = 0 to 11. -/
def rcRows : List (Lane × Lane) :=
  [(0x0000000000000001, 0x000000008000808B),
   (0x0000000000008082, 0x800000000000008B),
   (0x800000000000808A, 0x8000000000008089),
   (0x8000000080008000, 0x8000000000008003),
   (0x000000000000808B, 0x8000000000008002),
   (0x0000000080000001, 0x8000000000000080),
   (0x8000000080008081, 0x000000000000800A),
   (0x8000000000008009, 0x800000008000000A),
   (0x000000000000008A, 0x8000000080008081),
   (0x0000000000000088, 0x8000000000008080),
   (0x0000000080008009, 0x0000000080000001),
   (0x000000008000000A, 0x8000000080008008)]

/-- RC[0..23] (R133): the left column of the rows, then the right one. -/
def rcTable : List Lane := rcRows.map (·.1) ++ rcRows.map (·.2)

/-- RC[i]. -/
def roundConstant (i : Nat) : Lane := rcTable.getD i 0

/-! ## The derivations of the tables (R130, R132) -/

/-- The walk of R130 from position (x, y) at time t, `n` steps: each position with its offset. -/
def rhoWalk : Nat → Nat → Nat → Nat → List (Nat × Nat × Nat)
  | 0, _, _, _ => []
  | n + 1, t, x, y => (x, y, ((t + 1) * (t + 2) / 2) % 64) :: rhoWalk n (t + 1) y ((2 * x + 3 * y) % 5)

/-- One step of R132's 8-bit register: its output bit (taken before the update) and its next value. -/
def lfsrStep (r : Byte) : Bool × Byte :=
  (r.getLsbD 0, if r.getLsbD 7 then (r <<< 1) ^^^ 0x71 else r <<< 1)

/-- One round constant of R132: steps j to 6 on register r, adding to `acc`. The first argument counts the steps left. -/
def lfsrConstant : Nat → Nat → Byte → Lane → Lane × Byte
  | 0, _, r, acc => (acc, r)
  | n + 1, j, r, acc =>
    let (out, r') := lfsrStep r
    lfsrConstant n (j + 1) r' (if out then acc ||| ((1 : Lane) <<< (2 ^ j - 1)) else acc)

/-- `n` round constants of R132 in order, from register r. -/
def lfsrTable : Nat → Byte → List Lane
  | 0, _ => []
  | n + 1, r =>
    let (c, r') := lfsrConstant 7 0 r 0
    c :: lfsrTable n r'

/-! ## The five step mappings (R124 to R128) -/

/-- C[x], the parity of column x (R124). -/
def columnParity (A : Lanes) (x : Nat) : Lane :=
  lane A x 0 ^^^ lane A x 1 ^^^ lane A x 2 ^^^ lane A x 3 ^^^ lane A x 4

/-- D[x] (R124); x + 4 is x - 1 mod 5. -/
def thetaD (A : Lanes) (x : Nat) : Lane :=
  columnParity A (x + 4) ^^^ rotl (columnParity A (x + 1)) 1

/-- theta (R124). -/
def theta (A : Lanes) : Lanes := lanesXY fun x y => lane A x y ^^^ thetaD A x

/-- rho (R125). -/
def rho (A : Lanes) : Lanes := lanesXY fun x y => rotl (lane A x y) (rhoOffset x y)

/-- pi (R126), in its second form: A'[X + 5*Y] = A[((X + 3*Y) mod 5) + 5*X]. -/
def pi (A : Lanes) : Lanes := lanesXY fun X Y => lane A (X + 3 * Y) X

/-- chi (R127). -/
def chi (A : Lanes) : Lanes :=
  lanesXY fun x y => lane A x y ^^^ (~~~ (lane A (x + 1) y) &&& lane A (x + 2) y)

/-- iota (R128). -/
def iota (A : Lanes) (i : Nat) : Lanes :=
  lanesOf fun k => if k = 0 then laneK A 0 ^^^ roundConstant i else laneK A k

/-- The round function (R123). -/
def rnd (A : Lanes) (i : Nat) : Lanes := iota (chi (pi (rho (theta A)))) i

/-- KeccakF: rounds 0 to 23 in order (R120, R122). -/
def keccakF (A : Lanes) : Lanes := (List.range 24).foldl rnd A

end Sys2Proof.Machine
end

