-- ==== Sys2Proof/Machine/Sponge.lean ====
section
/-! DEFINITION. The sponge engine and the suffix injector, operation by operation (spec/41_sponge_engine.md R150 to R159; spec/20_memory.md R61 to R63). `raise` is `Except.error` (spec/00_scope.md R13). -/

namespace Sys2Proof.Machine

/-! ## Byte and bit views (R61, R62) -/

/-- State byte i (R61). -/
def stateByte (A : Lanes) (i : Nat) : Byte := ((laneK A (i / 8)) >>> (8 * (i % 8))).setWidth 8

/-- SBxor(A, i, b) (R61). -/
def stateByteXor (A : Lanes) (i : Nat) (b : Byte) : Lanes :=
  A.setIfInBounds (i / 8) (laneK A (i / 8) ^^^ ((b.setWidth 64) <<< (8 * (i % 8))))

/-- Queue byte i. -/
def queueByte (Q : Queue) (i : Nat) : Byte := Q.toList.getD i 0

/-- Queue bit k: bit k mod 8 of byte k div 8 (R62). -/
def queueBit (Q : Queue) (k : Nat) : Bool := (queueByte Q (k / 8)).getLsbD (k % 8)

/-- Q[i] <- b. -/
def queueSet (Q : Queue) (i : Nat) (b : Byte) : Queue := Q.setIfInBounds i b

/-- Set queue bit k. -/
def queueSetBit (Q : Queue) (k : Nat) : Queue :=
  queueSet Q (k / 8) (queueByte Q (k / 8) ||| ((1 : Byte) <<< (k % 8)))

/-- The all-zero queue. -/
def queueZero : Queue := Vector.replicate 168 0

/-! ## Engine operations (R150 to R156) -/

/-- Init's invariant on (rate, capacity) (R150). -/
abbrev rateLegal (rate capacity : Nat) : Prop :=
  rate + capacity = 1600 ∧ rate % 64 = 0 ∧ 0 < rate ∧ rate < 1600

/-- The sponge fields Init leaves: lanes, queue and counters 0, phase Absorbing (R150). -/
def Context.cleared (X : Context) : Context :=
  { X with lanes := lanesZero, queue := queueZero, biq := 0, bas := 0, phase := .absorbing }

/-- Init(X, rate, capacity) (R150); the check comes before any field is written. -/
def Context.init (X : Context) (rate capacity : Nat) : Except ErrKind Context :=
  if rateLegal rate capacity then
    .ok { X.cleared with cfg := { X.cfg with rate := rate, capacity := capacity } }
  else .error .configurationError

/-- The lanes after the queue's first `n` bytes are XORed into them, byte 0 first (R152). -/
def xorQueue (A : Lanes) (Q : Queue) (n : Nat) : Lanes :=
  (List.range n).foldl (fun A i => stateByteXor A i (queueByte Q i)) A

/-- AbsorbBlock(X) (R152). -/
def Context.absorbBlock (X : Context) : Context :=
  { X with
    lanes := keccakF (xorQueue X.lanes X.queue (X.cfg.rate / 8))
    queue := queueZero
    biq := 0 }

/-- AbsorbBlock if the queue holds a whole block, as AbsorbByte and AbsorbBits end (R151, R153). -/
def Context.absorbIfFull (X : Context) : Context := if X.biq = X.cfg.rate then X.absorbBlock else X

/-- AbsorbByte(X, b) (R151). -/
def Context.absorbByte (X : Context) (b : Byte) : Context :=
  { X with queue := queueSet X.queue (X.biq / 8) b, biq := X.biq + 8 }.absorbIfFull

/-- AbsorbByte for each byte of a list, in order (R221). -/
def Context.absorbBytes (X : Context) (bs : List Byte) : Context := bs.foldl Context.absorbByte X

/-- AbsorbBits(X, v, n) (R153): the low n bits of v. -/
def Context.absorbBits (X : Context) (v : Byte) (n : Nat) : Context :=
  if n = 0 then X
  else { X with
    queue := queueSet X.queue (X.biq / 8) (v &&& BitVec.ofNat 8 (2 ^ n - 1))
    biq := X.biq + n }.absorbIfFull

/-- Extract(X) (R155), with the source's path for rate = 1024, which equals the general one. -/
def Context.extract (X : Context) : Context :=
  let n := if X.cfg.rate = 1024 then 128 else X.cfg.rate / 8
  { X with
    queue := ⟨((List.range 168).map fun i =>
      if i < n then stateByte X.lanes i else queueByte X.queue i).toArray, by simp⟩
    bas := if X.cfg.rate = 1024 then 1024 else X.cfg.rate }

/-- The padding of PadSwitch before its last AbsorbBlock: the bit after the last message bit, a block of its own
if that bit fills it, and the top bit of the rate block (R154). -/
def Context.padded (X : Context) : Context :=
  let first := { X with queue := queueSetBit X.queue X.biq }
  let X1 := if X.biq + 1 = X.cfg.rate then first.absorbBlock else first
  { X1 with queue := queueSetBit X1.queue (X.cfg.rate - 1) }

/-- PadSwitch(X), the finalize transition (R154). -/
def Context.padSwitch (X : Context) : Context :=
  { X.padded.absorbBlock with phase := .squeezing }.extract

/-- The refill of Squeeze: when the squeeze buffer is exhausted, one KeccakF and Extract (R156). -/
def Context.refill (X : Context) : Context :=
  if X.bas = 0 then { X with lanes := keccakF X.lanes }.extract else X

/-- `n` queue bytes from byte s. -/
def queueBytes (Q : Queue) (s n : Nat) : List Byte := (List.range n).map fun i => queueByte Q (s + i)

/-- The loop of Squeeze with `left` bits still to come (R156). The first argument bounds the iterations; each
one outputs at least one bit, so `left` of them are enough. -/
def Context.squeezeLoop : Nat → Context → Nat → Context × List Byte
  | 0, X, _ => (X, [])
  | fuel + 1, X, left =>
    if left = 0 then (X, [])
    else
      let X1 := X.refill
      let take := min X1.bas left
      let r := Context.squeezeLoop fuel { X1 with bas := X1.bas - take } (left - take)
      (r.1, queueBytes X1.queue ((X1.cfg.rate - X1.bas) / 8) (take / 8) ++ r.2)

/-- The auto-transition of Squeeze (R156). -/
def Context.toSqueezing (X : Context) : Context := if X.phase = .absorbing then X.padSwitch else X

/-- Squeeze(X, nbits) (R156): the context after it and the bytes it returns. The length check comes before the
auto-transition (90_conflicts.md C4). -/
def Context.squeeze (X : Context) (nbits : Nat) : Except ErrKind (Context × List Byte) :=
  if nbits % 8 ≠ 0 then .error .configurationError
  else .ok (Context.squeezeLoop nbits X.toSqueezing nbits)

/-! ## Suffix injector and reset (R158, R159) -/

/-- InjectSuffix(X) (R158). -/
def Context.injectSuffix (X : Context) : Context :=
  if X.phase = .absorbing then X.absorbBits (X.cfg.sfxVal.setWidth 8) X.cfg.sfxLen else X

/-- Reset(X) (R159). -/
def Context.resetSponge (X : Context) : Except ErrKind Context := X.init X.cfg.rate X.cfg.capacity

end Sys2Proof.Machine
end

