-- ==== Sys2Proof/Machine/Ops.lean ====
section
/-! DEFINITION. The operations over the buffer memory and the contexts, and how every command ends: Finish, with or without an error (spec/10_state.md R24; spec/20_memory.md R64, R65; spec/60_exceptions.md R261, R262). An error of a command is this hardware's only exception (R265); there is nothing to return from (R266). -/

namespace Sys2Proof.Machine

/-! ## The buffer memory -/

/-- What the list holds at an address; none where nothing has been written since power-on. -/
def Memory.read? : Memory → Nat → Option Byte
  | [], _ => none
  | e :: m, a => if e.1 = a then some e.2 else Memory.read? m a

/-- Write one byte, keeping the addresses strictly rising. -/
def Memory.write : Memory → Nat → Byte → Memory
  | [], a, v => [(a, v)]
  | e :: m, a, v =>
    if a < e.1 then (a, v) :: e :: m
    else if a = e.1 then (a, v) :: m
    else e :: Memory.write m a v

/-- Write the bytes of a list from address a up (MemWrite, R13). -/
def Memory.writeBytes : Memory → Nat → List Byte → Memory
  | m, _, [] => m
  | m, a, v :: vs => Memory.writeBytes (m.write a v) (a + 1) vs

/-- The canonical form: addresses strictly rising. An unlisted address holds no written byte, so no entry equals
what one reads as, and equal contents are equal lists. -/
abbrev Memory.wf (m : Memory) : Prop := m.Pairwise fun e f => e.1 < f.1

/-- Every listed address is a buffer-memory address, below n. -/
abbrev Memory.below (m : Memory) (n : Nat) : Prop := ∀ e ∈ m, e.1 < n

/-- mem[a]: the byte last written there since power-on, or the free value of this power-on (R65). -/
def State.memByte (s : State) (a : Nat) : Byte :=
  (s.mem.read? a).getD (Config.powerOnByte s.powerOns a)

/-- MemRead(a, n) (R13). -/
def State.memRead (s : State) (a n : Nat) : List Byte := (List.range n).map fun i => s.memByte (a + i)

/-- MemWrite(a, n, v) for the byte list v (R13). -/
def State.memWrite (s : State) (a : Nat) (v : List Byte) : State := { s with mem := s.mem.writeBytes a v }

/-! ## Contexts -/

/-- ctx[c]. -/
def State.ctx (s : State) (c : CtxId) : Context := s.ctxs[c.toNat]'c.isLt

/-- ctx[c] <- X. -/
def State.setCtx (s : State) (c : CtxId) (X : Context) : State :=
  { s with ctxs := s.ctxs.set c.toNat X c.isLt }

/-- RESULT <- v. -/
def State.setResult (s : State) (v : Reg) : State := { s with result := v }

/-! ## Checks, and the end of a command -/

/-- One check of R261: the first that fails decides the error. -/
def require (holds : Bool) (e : ErrKind) : Except ErrKind Unit := if holds then .ok () else .error e

/-- Check P2: the context is configured. -/
def State.requireConfigured (s : State) (c : CtxId) : Except ErrKind Unit := require (s.ctx c).valid .stateError

/-- Check P4: the context is SHAKE. -/
def State.requireXof (s : State) (c : CtxId) : Except ErrKind Unit := require (s.ctx c).cfg.xof .illegalCommand

/-- Check P5: the phase is Absorbing. -/
def State.requireAbsorbing (s : State) (c : CtxId) : Except ErrKind Unit :=
  require ((s.ctx c).phase = .absorbing) .stateError

/-- Finish(e) of a command whose word has this `op` and `ctx` (R262): it writes STATUS and ends the command. -/
def State.finish (s : State) (op : Byte) (c : CtxId) (e : Option ErrKind) : State :=
  { s with status := s.status.finish op c e, inFlight := none }

/-- The end of command i issued in s whose body gave r: Finish(OK) on the body's state, or Finish(e) on s itself,
every effect of the body undone, since an error writes no state but STATUS (R13, R262). -/
def complete (i : Instr) (s : State) (r : Except ErrKind State) : Host.Outcome State Fault Refusal :=
  match r with
  | .ok t => .next (t.finish (opOf i) (ctxOf i) none)
  | .error e => .next (s.finish (opOf i) (ctxOf i) (some e))

/-- The end of a word that check P1 rejects (R96, R261, R262). -/
def rejectWord (w : CmdWord) (s : State) : Host.Outcome State Fault Refusal :=
  .next (s.finish (fieldOp w) (fieldCtx w) (some .illegalCommand))

end Sys2Proof.Machine
end

