-- ==== Sys2Proof/Machine/Bus.lean ====
section
/-! DEFINITION. The core window on the host bus: regions, access rules, register reads and writes, buffer-memory accesses and the issue of commands (spec/20_memory.md R66 to R72; spec/10_state.md R33 to R38; spec/60_exceptions.md R260, R267; spec/70_reset_and_hazards.md R311, R312). -/

namespace Sys2Proof.Machine

/-! ## Widths and regions (R66, R68) -/

/-- The bytes an access of a width moves. -/
def Width.bytes : Width → Nat
  | .byte => 1
  | .half => 2
  | .word => 4

/-- The regions of the window (R66). -/
inductive Region where
  | registers
  | buffer
  | reserved
  deriving DecidableEq, Repr

/-- The region of a window offset (R66). -/
def regionOf (b : Build) (off : Nat) : Region :=
  if off < 0x1000 then .registers
  else if 0x10000 ≤ off ∧ off < 0x10000 + b.memsz then .buffer
  else .reserved

/-- The accesses a region accepts (R68): the register block 32-bit accesses at multiples of 4, the rest naturally
aligned accesses of every width (for the reserved ranges, R67). -/
abbrev accessAllowed (r : Region) (w : Width) (off : Nat) : Prop :=
  off % w.bytes = 0 ∧ (r = .registers → w = .word)

/-! ## Registers (R33) -/

/-- A read of the register block: CMD and reserved offsets read 0 (R34, R67). -/
def State.regRead (s : State) (off : Nat) : Reg :=
  if off = 0x004 then s.arg
  else if off = 0x008 then s.statusWord
  else if off = 0x00C then s.result
  else if off = 0x010 then idWord s.build
  else 0

/-- A write of v to CMD (R34, R260): accepted while BUSY = 0, it latches {ARG, v} and the Host's command index
advances (R22); while BUSY = 1 it is dropped and sets OVR (R311). -/
def State.writeCmd (s : State) (v : Reg) : State :=
  if s.busy then { s with status := s.status.setOvr }
  else { s with inFlight := some (joinWord s.arg v), host := { s.host with cmdIndex := s.host.cmdIndex + 1 } }

/-- A write of the register block: RESULT, ID and reserved offsets ignore it (R67). -/
def State.regWrite (s : State) (off : Nat) (v : Reg) : State :=
  if off = 0x000 then s.writeCmd v
  else if off = 0x004 then { s with arg := v }
  else if off = 0x008 then { s with status := s.status.writeClear v }
  else s

/-! ## Buffer memory (R69) -/

/-- A little-endian value from its bytes, lowest address first. -/
def leWord : List Byte → Nat
  | [] => 0
  | b :: bs => b.toNat + 256 * leWord bs

/-- The low `n` bytes of v, least significant first. -/
def leBytes : Nat → Nat → List Byte
  | 0, _ => []
  | n + 1, v => BitVec.ofNat 8 v :: leBytes n (v / 256)

/-- A read of buffer-memory offset a (R69). -/
def State.bufRead (s : State) (w : Width) (a : Nat) : Reg := BitVec.ofNat 32 (leWord (s.memRead a w.bytes))

/-- A write to buffer-memory offset a (R69). -/
def State.bufWrite (s : State) (w : Width) (a : Nat) (v : Reg) : State := s.memWrite a (leBytes w.bytes v.toNat)

/-! ## One access -/

/-- The answer to the Host's access, the last on the bus. -/
def State.respond (s : State) (r : BusResponse) : State := { s with host := { s.host with response := some r } }

def BusAccess.addr : BusAccess → Nat
  | .read _ a => a
  | .write _ a _ => a

def BusAccess.width : BusAccess → Width
  | .read w _ => w
  | .write w _ _ => w

/-- An access at window offset `off` that its region accepts. Only the buffer memory is closed to the Host while
BUSY = 1 (R312). -/
def State.access (s : State) (a : BusAccess) (off : Nat) : Host.Outcome State Fault Refusal :=
  match regionOf s.build off, a with
  | .registers, .read _ _ => .next (s.respond (.data (s.regRead off)))
  | .registers, .write _ _ v => .next ((s.regWrite off v).respond .ack)
  | .reserved, .read _ _ => .next (s.respond (.data 0))
  | .reserved, .write _ _ _ => .next (s.respond .ack)
  | .buffer, .read w _ =>
    if s.busy then .refused .hostBufferAccessWhileBusy
    else .next (s.respond (.data (s.bufRead w (off - 0x10000))))
  | .buffer, .write w _ v =>
    if s.busy then .refused .hostBufferAccessWhileBusy
    else .next ((s.bufWrite w (off - 0x10000) v).respond .ack)

/-- A bus address lies in the core's window (R60). -/
abbrev inWindow (b : Build) (addr : Nat) : Prop := b.base ≤ addr ∧ addr < b.base + Config.windowBytes

/-- One Host access: outside the window it is not the core's; while reset is asserted it is outside the spec; of a
width or alignment its region does not accept it gets the bus-error response and has no effect (R68). -/
def hostAccess (a : BusAccess) (s : State) : Host.Outcome State Fault Refusal :=
  if ¬ inWindow s.build a.addr then .fault (.outsideWindow a.addr)
  else if s.inReset then .refused .hostAccessDuringReset
  else if accessAllowed (regionOf s.build (a.addr - s.build.base)) a.width (a.addr - s.build.base) then
    s.access a (a.addr - s.build.base)
  else .next (s.respond .busError)

end Sys2Proof.Machine
end

