-- ==== Sys2Proof/Machine/Operands.lean ====
section
/-! DEFINITION. The operand forms: the buffer-memory region OFF, LEN of a command (spec/20_memory.md R70), with check P6 (spec/60_exceptions.md R261). -/

namespace Sys2Proof.Machine

/-- The region mem[off .. off+n-1] is legal: off + n ≤ MEMSZ, exactly (R70). -/
abbrev regionLegal (b : Build) (off : Half) (n : Nat) : Prop := off.toNat + n ≤ b.memsz

/-- Check P6 (R261). -/
def State.requireRegion (s : State) (off : Half) (n : Nat) : Except ErrKind Unit :=
  require (regionLegal s.build off n) .bufferError

/-- The bytes of a source region, mem[off] first (R71). -/
def State.source (s : State) (off len : Half) : List Byte := s.memRead off.toNat len.toNat

end Sys2Proof.Machine
end

