-- ==== Sys2Proof/Machine/Variants.lean ====
section
/-! DEFINITION. The variant table and the variant codes (spec/41_sponge_engine.md R157, R160; spec/30_encoding.md R94). -/

namespace Sys2Proof.Machine

/-- The variant an `imm8` code selects; none for 0x03 to 0xFF (R94). -/
def variantOfCode (v : Byte) : Option Variant :=
  match v.toNat with
  | 0 => some .keccak
  | 1 => some .sha3
  | 2 => some .shake
  | _ => none

/-- The code of a variant: the value the 2-bit `variant` field holds (R25, R94). -/
def Variant.code : Variant → Byte
  | .keccak => 0
  | .sha3 => 1
  | .shake => 2

/-- The legal configurations, row by row of R160. -/
def variantTable : List Cfg :=
  [ { variant := .keccak, bitlen := 128, rate := 1344, capacity := 256, dsize := 16, sfxVal := 0x0, sfxLen := 0, xof := false },
    { variant := .keccak, bitlen := 224, rate := 1152, capacity := 448, dsize := 28, sfxVal := 0x0, sfxLen := 0, xof := false },
    { variant := .keccak, bitlen := 256, rate := 1088, capacity := 512, dsize := 32, sfxVal := 0x0, sfxLen := 0, xof := false },
    { variant := .keccak, bitlen := 288, rate := 1024, capacity := 576, dsize := 36, sfxVal := 0x0, sfxLen := 0, xof := false },
    { variant := .keccak, bitlen := 384, rate := 832, capacity := 768, dsize := 48, sfxVal := 0x0, sfxLen := 0, xof := false },
    { variant := .keccak, bitlen := 512, rate := 576, capacity := 1024, dsize := 64, sfxVal := 0x0, sfxLen := 0, xof := false },
    { variant := .sha3, bitlen := 224, rate := 1152, capacity := 448, dsize := 28, sfxVal := 0x2, sfxLen := 2, xof := false },
    { variant := .sha3, bitlen := 256, rate := 1088, capacity := 512, dsize := 32, sfxVal := 0x2, sfxLen := 2, xof := false },
    { variant := .sha3, bitlen := 384, rate := 832, capacity := 768, dsize := 48, sfxVal := 0x2, sfxLen := 2, xof := false },
    { variant := .sha3, bitlen := 512, rate := 576, capacity := 1024, dsize := 64, sfxVal := 0x2, sfxLen := 2, xof := false },
    { variant := .shake, bitlen := 128, rate := 1344, capacity := 256, dsize := 16, sfxVal := 0xF, sfxLen := 4, xof := true },
    { variant := .shake, bitlen := 256, rate := 1088, capacity := 512, dsize := 32, sfxVal := 0xF, sfxLen := 4, xof := true } ]

/-- The row R160 gives a variant and a bit length; none where the length is not in the variant's set. -/
def variantRow (v : Variant) (bitlen : Nat) : Option Cfg :=
  variantTable.find? fun r => r.variant = v ∧ r.bitlen = bitlen

end Sys2Proof.Machine
end

