-- ==== Sys2Proof/Machine/Control.lean ====
section
/-! DEFINITION. The configuration and control commands: CONFIG, RESET, COPY, GET_DIGEST_SIZE, GET_BYTE_LENGTH (spec/42_commands_control.md R190 to R194). -/

namespace Sys2Proof.Machine

/-- The row check P3 finds for CONFIG's operands, or ConfigurationError (R190, R261). -/
def configRow (v : Byte) (n : Half) : Except ErrKind Cfg :=
  match variantOfCode v with
  | none => .error .configurationError
  | some var =>
    match variantRow var n.toNat with
    | none => .error .configurationError
    | some row => .ok row

/-- CONFIG's effect (R190). -/
def configBody (c : CtxId) (v : Byte) (n : Half) (s : State) : Except ErrKind State := do
  let row ← configRow v n
  let X ← { s.ctx c with valid := true, cfg := row : Context }.init row.rate row.capacity
  .ok (s.setCtx c X)

/-- CONFIG (R190). -/
def execConfig (c : CtxId) (v : Byte) (n : Half) (s : State) : Host.Outcome State Fault Refusal :=
  complete (.config c v n) s (configBody c v n s)

/-- RESET's effect (R191). -/
def resetBody (c : CtxId) (s : State) : Except ErrKind State := do
  s.requireConfigured c
  let X ← (s.ctx c).resetSponge
  .ok (s.setCtx c X)

/-- RESET (R191). -/
def execReset (c : CtxId) (s : State) : Host.Outcome State Fault Refusal :=
  complete (.reset c) s (resetBody c s)

/-- COPY's effect (R192): check P2 is on the source. -/
def copyBody (d c : CtxId) (s : State) : Except ErrKind State := do
  s.requireConfigured c
  .ok (s.setCtx d (s.ctx c))

/-- COPY (R192). -/
def execCopy (d c : CtxId) (s : State) : Host.Outcome State Fault Refusal :=
  complete (.copy d c) s (copyBody d c s)

/-- The effect the two query commands share: RESULT <- zext_32 of a count of a configured context (R193, R194). -/
def queryBody (c : CtxId) (count : Context → Nat) (s : State) : Except ErrKind State := do
  s.requireConfigured c
  .ok (s.setResult (BitVec.ofNat 32 (count (s.ctx c))))

/-- GET_DIGEST_SIZE (R193). -/
def execGetDigestSize (c : CtxId) (s : State) : Host.Outcome State Fault Refusal :=
  complete (.getDigestSize c) s (queryBody c (fun X => X.cfg.dsize) s)

/-- GET_BYTE_LENGTH (R194). -/
def execGetByteLength (c : CtxId) (s : State) : Host.Outcome State Fault Refusal :=
  complete (.getByteLength c) s (queryBody c (fun X => X.cfg.rate / 8) s)

end Sys2Proof.Machine
end

