-- ==== Sys2Proof/Machine/Data.lean ====
section
/-! DEFINITION. The data commands: UPDATE_BYTE, UPDATE, DO_FINAL, DO_FINAL_XOF, DO_OUTPUT (spec/43_commands_data.md R220 to R224). -/

namespace Sys2Proof.Machine

/-- UPDATE_BYTE's effect (R220). -/
def updateByteBody (c : CtxId) (b : Byte) (s : State) : Except ErrKind State := do
  s.requireConfigured c
  s.requireAbsorbing c
  .ok (s.setCtx c ((s.ctx c).absorbByte b))

/-- UPDATE_BYTE (R220). -/
def execUpdateByte (c : CtxId) (b : Byte) (s : State) : Host.Outcome State Fault Refusal :=
  complete (.updateByte c b) s (updateByteBody c b s)

/-- UPDATE's effect (R221). -/
def updateBody (c : CtxId) (off len : Half) (s : State) : Except ErrKind State := do
  s.requireConfigured c
  s.requireAbsorbing c
  s.requireRegion off len.toNat
  .ok (s.setCtx c ((s.ctx c).absorbBytes (s.source off len)))

/-- UPDATE (R221). -/
def execUpdate (c : CtxId) (off len : Half) (s : State) : Host.Outcome State Fault Refusal :=
  complete (.update c off len) s (updateBody c off len s)

/-- Output(X, OFF, n), the body the three finalize commands share (43_commands_data.md): inject the suffix, squeeze
n bytes, write them from mem[OFF] up. -/
def State.output (s : State) (c : CtxId) (off : Half) (n : Nat) : Except ErrKind State := do
  let r ← (s.ctx c).injectSuffix.squeeze (8 * n)
  .ok ((s.setCtx c r.1).memWrite off.toNat r.2)

/-- Reset(ctx[c]), the end of DO_FINAL and DO_FINAL_XOF (R222, R223). -/
def State.resetAfter (s : State) (c : CtxId) : Except ErrKind State := do
  let X ← (s.ctx c).resetSponge
  .ok (s.setCtx c X)

/-- DO_FINAL's effect (R222): the length is dsize. -/
def doFinalBody (c : CtxId) (off : Half) (s : State) : Except ErrKind State := do
  s.requireConfigured c
  s.requireRegion off (s.ctx c).cfg.dsize
  let t ← s.output c off (s.ctx c).cfg.dsize
  t.resetAfter c

/-- DO_FINAL (R222). -/
def execDoFinal (c : CtxId) (off : Half) (s : State) : Host.Outcome State Fault Refusal :=
  complete (.doFinal c off) s (doFinalBody c off s)

/-- DO_FINAL_XOF's effect (R223). -/
def doFinalXofBody (c : CtxId) (off len : Half) (s : State) : Except ErrKind State := do
  s.requireConfigured c
  s.requireXof c
  s.requireRegion off len.toNat
  let t ← s.output c off len.toNat
  t.resetAfter c

/-- DO_FINAL_XOF (R223). -/
def execDoFinalXof (c : CtxId) (off len : Half) (s : State) : Host.Outcome State Fault Refusal :=
  complete (.doFinalXof c off len) s (doFinalXofBody c off len s)

/-- DO_OUTPUT's effect (R224). -/
def doOutputBody (c : CtxId) (off len : Half) (s : State) : Except ErrKind State := do
  s.requireConfigured c
  s.requireXof c
  s.requireRegion off len.toNat
  s.output c off len.toNat

/-- DO_OUTPUT (R224). -/
def execDoOutput (c : CtxId) (off len : Half) (s : State) : Host.Outcome State Fault Refusal :=
  complete (.doOutput c off len) s (doOutputBody c off len s)

end Sys2Proof.Machine
end

