-- ==== Sys2Proof/Machine/Dispatch.lean ====
section
/-! DEFINITION. One arm per command of spec/opcode_table.json, each a direct call of its meaning. -/

namespace Sys2Proof.Machine

def exec (i : Instr) (s : State) : Host.Outcome State Fault Refusal :=
  match i with
  | .config c v n => Sys2Proof.Machine.execConfig c v n s
  | .reset c => Sys2Proof.Machine.execReset c s
  | .updateByte c b => Sys2Proof.Machine.execUpdateByte c b s
  | .update c off len => Sys2Proof.Machine.execUpdate c off len s
  | .doFinal c off => Sys2Proof.Machine.execDoFinal c off s
  | .doFinalXof c off len => Sys2Proof.Machine.execDoFinalXof c off len s
  | .doOutput c off len => Sys2Proof.Machine.execDoOutput c off len s
  | .copy d c => Sys2Proof.Machine.execCopy d c s
  | .getDigestSize c => Sys2Proof.Machine.execGetDigestSize c s
  | .getByteLength c => Sys2Proof.Machine.execGetByteLength c s

end Sys2Proof.Machine
end

