-- ==== Sys2Proof/Machine/Engine.lean ====
section
/-! DEFINITION. The core's turn and the events of the outside world (spec/60_exceptions.md R260; spec/70_reset_and_hazards.md R300, R314). -/

namespace Sys2Proof.Machine

/-- The core performs a latched word: decode it, and run the command or reject the word (R260). -/
def runWord (w : CmdWord) (s : State) : Host.Outcome State Fault Refusal :=
  match decode s.build w with
  | .ok i => exec i s
  | .error _ => rejectWord w s

/-- The core's turn: the whole command in flight, Finish included; with none, idle time, which changes nothing
(R285, R314). -/
def coreTurn (s : State) : Host.Outcome State Fault Refusal :=
  match s.inFlight with
  | none => .next s
  | some w => runWord w s

/-- Power-on reset asserted (R300, R301): the command in flight is abandoned and every piece of state takes its reset
value, the buffer memory fresh free values. The build and what is the Host's own, its coming events and command index,
are not the core's to reset. -/
def assertReset (s : State) : State :=
  { State.powerOn s.build (s.powerOns + 1) with inReset := true, host := { s.host with response := none } }

/-- Power-on reset released: the core waits for a command (R291). -/
def releaseReset (s : State) : State := { s with inReset := false }

/-- A Host access, then the core's turn, in one step. -/
def hostThenCore (a : BusAccess) (s : State) : Host.Outcome State Fault Refusal :=
  match hostAccess a s with
  | .next t => coreTurn t
  | .fault f => .fault f
  | .refused r => .refused r

/-- One event. -/
def handle (e : Event) (s : State) : Host.Outcome State Fault Refusal :=
  match e with
  | .host a => hostAccess a s
  | .core => coreTurn s
  | .hostCore a => hostThenCore a s
  | .resetAssert => .next (assertReset s)
  | .resetRelease => .next (releaseReset s)

/-- The state with the oldest coming event taken. -/
def State.popEvent (s : State) : State := { s with host := { s.host with pending := s.host.pending.tail } }

/-- One step: the oldest coming event; with none to come, the core's turn. -/
def stepEvent (s : State) : Host.Outcome State Fault Refusal :=
  match s.host.pending with
  | [] => coreTurn s
  | e :: _ => handle e s.popEvent

/-- The state in which word w is in flight and the core moves next. ARG holds the word's high half, as it did when the
Host wrote CMD (R34). -/
def State.withWord (s : State) (w : CmdWord) : State :=
  { s with
    arg := w.extractLsb' 32 32
    inFlight := some w
    inReset := false
    host := { s.host with pending := .core :: s.host.pending } }

end Sys2Proof.Machine
end

