-- ==== Sys2Proof/Machine/Step.lean ====
section
/-! DEFINITION. The step function, and the host's way to place one command word. -/

namespace Sys2Proof.Machine

/-- One step of the machine (R314). -/
def step (s : State) : Host.Outcome State Fault Refusal := stepEvent s

/-- The host places a table word: the core fetches nothing (R22), so the word is put in flight as the Host's writes of ARG and
CMD put it, and the very next step is the core's turn with it. -/
def State.withFetchWord (s : State) (nbits w : Nat) : State := s.withWord (tableWord nbits w)

end Sys2Proof.Machine
end

