-- ==== Sys2Proof/Machine/Assembler.lean ====
section
/-! DEFINITION. The Host's side of a command program: the assembler syntax, the Host directives, the pseudo-instructions, and the bus accesses each line stands for (spec/30_encoding.md R99 to R101; spec/70_reset_and_hazards.md R305, R310). -/

namespace Sys2Proof.Machine

/-- What one line of a command program stands for: a command, or a Host directive of R100. -/
inductive AsmLine where
  | command (i : Instr)
  /-- `.mem`: the Host writes the bytes from mem[off] up. -/
  | mem (off : Half) (bytes : List Byte)
  /-- `.expect ERR=n`: STATUS.ERR is n after the previous command. -/
  | expectErr (n : Nat)
  /-- `.result n`: RESULT is n. -/
  | expectResult (n : Nat)
  deriving DecidableEq, Repr

/-! ## Characters and numbers -/

/-- The value of a digit below a number base of at most 16. R99 gives no letter case for hexadecimal digits: both are accepted,
a DESIGN CHOICE (notes/assumptions/16.md). -/
def digitOf (base : Nat) (c : Char) : Option Nat :=
  let n := c.toNat
  let d := if 48 ≤ n ∧ n ≤ 57 then n - 48
    else if 65 ≤ n ∧ n ≤ 70 then n - 55
    else if 97 ≤ n ∧ n ≤ 102 then n - 87
    else 16
  if d < base then some d else none

/-- The value of a string of digits, after those that gave `acc`. -/
def digitsFrom (base : Nat) : Nat → List Char → Option Nat
  | acc, [] => some acc
  | acc, c :: cs =>
    match digitOf base c with
    | some d => digitsFrom base (acc * base + d) cs
    | none => none

/-- A number: decimal, or hexadecimal after `0x` (R99). -/
def numberOf : List Char → Option Nat
  | [] => none
  | '0' :: 'x' :: c :: cs => digitsFrom 16 0 (c :: cs)
  | cs => digitsFrom 10 0 cs

/-- A number that a field of `w` bits holds (R92). -/
def fieldOf (w : Nat) (cs : List Char) : Option (BitVec w) :=
  match numberOf cs with
  | some n => if n < 2 ^ w then some (BitVec.ofNat w n) else none
  | none => none

/-- A context operand `c<ctx>` (R99). -/
def ctxOperand : List Char → Option CtxId
  | 'c' :: cs => fieldOf 4 cs
  | _ => none

/-- A variant operand: KECCAK, SHA3 or SHAKE, or a number 0 to 255 (R99). -/
def variantOperand (cs : List Char) : Option Byte :=
  if cs = "KECCAK".toList then some 0
  else if cs = "SHA3".toList then some 1
  else if cs = "SHAKE".toList then some 2
  else fieldOf 8 cs

/-! ## Lines -/

def isBlank (c : Char) : Bool := c = ' ' || c = '\t'

/-- A string without the blanks around it. -/
def trimBlanks (cs : List Char) : List Char := ((cs.dropWhile isBlank).reverse.dropWhile isBlank).reverse

/-- The parts of a string between its commas. -/
def splitCommas : List Char → List (List Char)
  | [] => [[]]
  | c :: cs =>
    if c = ',' then [] :: splitCommas cs
    else match splitCommas cs with
      | [] => [[c]]
      | p :: ps => (c :: p) :: ps

/-- The operands of a line, after its mnemonic. -/
def operandsOf (cs : List Char) : List (List Char) :=
  if trimBlanks cs = [] then [] else (splitCommas cs).map trimBlanks

/-- The pseudo-instructions of R101 that are one CONFIG: their variant code and bit length. -/
def configPseudos : List (String × Byte × Half) :=
  [("KECCAK_128", 0, 128), ("KECCAK_224", 0, 224), ("KECCAK_256", 0, 256), ("KECCAK_288", 0, 288),
   ("KECCAK_384", 0, 384), ("KECCAK_512", 0, 512), ("SHA3_224", 1, 224), ("SHA3_256", 1, 256),
   ("SHA3_384", 1, 384), ("SHA3_512", 1, 512), ("SHAKE_128", 2, 128), ("SHAKE_256", 2, 256)]

/-- A command whose one operand is a context. -/
def ctxCommand (mk : CtxId → Instr) : List (List Char) → Option (List AsmLine)
  | [c] => do
    let c ← ctxOperand c
    some [.command (mk c)]
  | _ => none

/-- A command whose operands are a context, OFF and LEN. -/
def regionCommand (mk : CtxId → Half → Half → Instr) : List (List Char) → Option (List AsmLine)
  | [c, off, len] => do
    let c ← ctxOperand c
    let off ← fieldOf 16 off
    let len ← fieldOf 16 len
    some [.command (mk c off len)]
  | _ => none

/-- A line from its mnemonic and operands (R99 to R101); none where it is no line of the syntax. R100 shows `.mem` with at least
one byte: a `.mem` line with none is accepted and writes nothing, a DESIGN CHOICE (notes/assumptions/16.md). -/
def lineOf (m : List Char) (ops : List (List Char)) : Option (List AsmLine) :=
  if m = "CONFIG".toList then
    match ops with
    | [c, v, n] => do
      let c ← ctxOperand c
      let v ← variantOperand v
      let n ← fieldOf 16 n
      some [.command (.config c v n)]
    | _ => none
  else if m = "RESET".toList then ctxCommand .reset ops
  else if m = "UPDATE_BYTE".toList then
    match ops with
    | [c, b] => do
      let c ← ctxOperand c
      let b ← fieldOf 8 b
      some [.command (.updateByte c b)]
    | _ => none
  else if m = "UPDATE".toList then regionCommand .update ops
  else if m = "DO_FINAL".toList then
    match ops with
    | [c, off] => do
      let c ← ctxOperand c
      let off ← fieldOf 16 off
      some [.command (.doFinal c off)]
    | _ => none
  else if m = "DO_FINAL_XOF".toList then regionCommand .doFinalXof ops
  else if m = "DO_OUTPUT".toList then regionCommand .doOutput ops
  else if m = "COPY".toList ∨ m = "CHECKPOINT".toList then
    match ops with
    | [d, c] => do
      let d ← ctxOperand d
      let c ← ctxOperand c
      some [.command (.copy d c)]
    | _ => none
  else if m = "GET_DIGEST_SIZE".toList then ctxCommand .getDigestSize ops
  else if m = "GET_BYTE_LENGTH".toList then ctxCommand .getByteLength ops
  else if m = "HASH".toList then
    match ops with
    | [c, src, len, dst] => do
      let c ← ctxOperand c
      let src ← fieldOf 16 src
      let len ← fieldOf 16 len
      let dst ← fieldOf 16 dst
      some [.command (.update c src len), .command (.doFinal c dst)]
    | _ => none
  else if m = ".mem".toList then
    match ops with
    | off :: bytes => do
      let off ← fieldOf 16 off
      let bytes ← bytes.mapM (fieldOf 8)
      some [.mem off bytes]
    | _ => none
  else if m = ".expect".toList then
    match ops with
    | ['E' :: 'R' :: 'R' :: '=' :: n] => do
      let n ← numberOf n
      some [.expectErr n]
    | _ => none
  else if m = ".result".toList then
    match ops with
    | [n] => do
      let n ← numberOf n
      some [.expectResult n]
    | _ => none
  else
    match configPseudos.find? fun p => m = p.1.toList with
    | some p => ctxCommand (fun c => .config c p.2.1 p.2.2) ops
    | none => none

/-- One line of text; a `;` starts a comment (R99). A line with nothing else stands for nothing. -/
def assembleLine (text : String) : Option (List AsmLine) :=
  let t := trimBlanks (text.toList.takeWhile fun c => c ≠ ';')
  if t = [] then some []
  else lineOf (t.takeWhile fun c => !isBlank c) (operandsOf (t.dropWhile fun c => !isBlank c))

/-- A program's lines in order; none if one is no line of the syntax. -/
def assemble : List String → Option (List AsmLine)
  | [] => some []
  | l :: ls => do
    let a ← assembleLine l
    let as ← assemble ls
    some (a ++ as)

/-! ## The Host's accesses for a line -/

/-- A Host write of a 32-bit register. -/
def hostWriteReg (b : Build) (off : Nat) (v : Reg) : BusAccess := .write .word (b.base + off) v

/-- A Host read of STATUS. -/
def hostPoll (b : Build) : BusAccess := .read .word (b.base + 0x008)

/-- The three steps of R99 and R310 for a word, in the split view: write ARG, write CMD, and read STATUS until
BUSY = 0. The core completes after `polls` reads that see BUSY = 1; R315 leaves their number open. -/
def issueEvents (b : Build) (polls : Nat) (w : CmdWord) : List Event :=
  [.host (hostWriteReg b 0x004 (w.extractLsb' 32 32)), .host (hostWriteReg b 0x000 (w.extractLsb' 0 32))]
    ++ List.replicate polls (.host (hostPoll b)) ++ [.core, .host (hostPoll b)]

/-- The same in the atomic view (R314): the CMD write performs the whole command. -/
def issueAtomicEvents (b : Build) (w : CmdWord) : List Event :=
  [.host (hostWriteReg b 0x004 (w.extractLsb' 32 32)), .hostCore (hostWriteReg b 0x000 (w.extractLsb' 0 32)),
    .host (hostPoll b)]

/-- The byte writes of `.mem` (R100), lowest offset first. -/
def memEvents (b : Build) : Nat → List Byte → List Event
  | _, [] => []
  | a, v :: vs => .host (.write .byte (b.base + 0x10000 + a) (v.setWidth 32)) :: memEvents b (a + 1) vs

/-- The events of a line; an assertion has none. -/
def AsmLine.events (b : Build) (polls : Nat) : AsmLine → List Event
  | .command i => issueEvents b polls (encode i)
  | .mem off bytes => memEvents b off.toNat bytes
  | .expectErr _ => []
  | .expectResult _ => []

/-- The test assertions of R100, on the state after the previous command; the other lines assert nothing. -/
def AsmLine.assertion (s : State) : AsmLine → Bool
  | .command _ => true
  | .mem _ _ => true
  | .expectErr n => (errCode s.status.err).toNat = n
  | .expectResult n => s.result.toNat = n

end Sys2Proof.Machine
end

