-- ==== Sys2Proof/Machine/Work.lean ====
section
/-! DEFINITION. How many permutations a command runs (spec/70_reset_and_hazards.md R316): the engine operations that run KeccakF, each beside the number of its KeccakF applications. `countedKeccakF` is the one place that counts; the first component of each is the operation itself. A measure, no part of the state (notes/assumptions/14.md). -/

namespace Sys2Proof.Machine

/-- A value with the number of KeccakF applications that gave it. -/
abbrev Counted (α : Type) := α × Nat

/-- A value that took no permutation. -/
def Counted.free {α : Type} (a : α) : Counted α := (a, 0)

/-- One counted computation after another. -/
def Counted.andThen {α β : Type} (p : Counted α) (f : α → Counted β) : Counted β := ((f p.1).1, p.2 + (f p.1).2)

/-- KeccakF, counted once (R120). -/
def countedKeccakF (A : Lanes) : Counted Lanes := (keccakF A, 1)

/-- AbsorbBlock (R152). -/
def Context.absorbBlockCounted (X : Context) : Counted Context :=
  (countedKeccakF (xorQueue X.lanes X.queue (X.cfg.rate / 8))).andThen fun A =>
    .free { X with lanes := A, queue := queueZero, biq := 0 }

/-- AbsorbBlock if the queue holds a whole block. -/
def Context.absorbIfFullCounted (X : Context) : Counted Context :=
  if X.biq = X.cfg.rate then X.absorbBlockCounted else .free X

/-- AbsorbByte (R151). -/
def Context.absorbByteCounted (X : Context) (b : Byte) : Counted Context :=
  { X with queue := queueSet X.queue (X.biq / 8) b, biq := X.biq + 8 }.absorbIfFullCounted

/-- AbsorbByte for each byte of a list, in order (R221). -/
def Context.absorbBytesCounted : Context → List Byte → Counted Context
  | X, [] => .free X
  | X, b :: bs => (X.absorbByteCounted b).andThen fun Y => Y.absorbBytesCounted bs

/-- AbsorbBits (R153). -/
def Context.absorbBitsCounted (X : Context) (v : Byte) (n : Nat) : Counted Context :=
  if n = 0 then .free X
  else { X with
    queue := queueSet X.queue (X.biq / 8) (v &&& BitVec.ofNat 8 (2 ^ n - 1))
    biq := X.biq + n }.absorbIfFullCounted

/-- InjectSuffix (R158). -/
def Context.injectSuffixCounted (X : Context) : Counted Context :=
  if X.phase = .absorbing then X.absorbBitsCounted (X.cfg.sfxVal.setWidth 8) X.cfg.sfxLen else .free X

/-- PadSwitch (R154). -/
def Context.padSwitchCounted (X : Context) : Counted Context :=
  let first := { X with queue := queueSetBit X.queue X.biq }
  (if X.biq + 1 = X.cfg.rate then first.absorbBlockCounted else .free first).andThen fun X1 =>
    { X1 with queue := queueSetBit X1.queue (X.cfg.rate - 1) }.absorbBlockCounted.andThen fun X2 =>
      .free { X2 with phase := .squeezing }.extract

/-- The auto-transition of Squeeze (R156). -/
def Context.toSqueezingCounted (X : Context) : Counted Context :=
  if X.phase = .absorbing then X.padSwitchCounted else .free X

/-- The refill of Squeeze (R156). -/
def Context.refillCounted (X : Context) : Counted Context :=
  if X.bas = 0 then (countedKeccakF X.lanes).andThen fun A => .free { X with lanes := A }.extract else .free X

/-- The loop of Squeeze (R156). -/
def Context.squeezeLoopCounted : Nat → Context → Nat → Counted (Context × List Byte)
  | 0, X, _ => .free (X, [])
  | fuel + 1, X, left =>
    if left = 0 then .free (X, [])
    else X.refillCounted.andThen fun X1 =>
      let take := min X1.bas left
      (Context.squeezeLoopCounted fuel { X1 with bas := X1.bas - take } (left - take)).andThen fun r =>
        .free (r.1, queueBytes X1.queue ((X1.cfg.rate - X1.bas) / 8) (take / 8) ++ r.2)

/-- The context and the n bytes of the body the finalize commands share. -/
def Context.outputCounted (X : Context) (n : Nat) : Counted (Context × List Byte) :=
  X.injectSuffixCounted.andThen fun Y => Y.toSqueezingCounted.andThen fun Z => Context.squeezeLoopCounted (8 * n) Z (8 * n)

/-- Permutations a command runs when it completes without an error (R316). -/
def permutations (i : Instr) (s : State) : Nat :=
  match i with
  | .config _ _ _ => 0
  | .reset _ => 0
  | .updateByte c b => ((s.ctx c).absorbByteCounted b).2
  | .update c off len => ((s.ctx c).absorbBytesCounted (s.source off len)).2
  | .doFinal c _ => ((s.ctx c).outputCounted (s.ctx c).cfg.dsize).2
  | .doFinalXof c _ len => ((s.ctx c).outputCounted len.toNat).2
  | .doOutput c _ len => ((s.ctx c).outputCounted len.toNat).2
  | .copy _ _ => 0
  | .getDigestSize _ => 0
  | .getByteLength _ => 0

end Sys2Proof.Machine
end

