-- ==== Sys2Proof/Safety.lean ====
section
/-! DEFINITION. What a safe run keeps, and the terms the claims use: the invariants of spec/10_state.md R32 with R24, R28 and R163, the error table of spec/60_exceptions.md R261, and the output stream of a squeezing context. -/

namespace Sys2Proof.Machine

/-! ## Invariants (R32) -/

/-- A configured context: I1 to I4 of R32, its row of R160, and what R28 says the queue holds while Squeezing. -/
structure Context.Legal (X : Context) : Prop where
  /-- The configuration is a row of R160 (R25). -/
  row : X.cfg ∈ variantTable
  /-- (I1). -/
  rate : rateLegal X.cfg.rate X.cfg.capacity
  /-- (I2). -/
  absorbing : X.phase = .absorbing → X.bas = 0 ∧ X.biq % 8 = 0 ∧ X.biq ≤ X.cfg.rate - 8 ∧
    ∀ k, X.biq ≤ k → queueBit X.queue k = false
  /-- (I3). -/
  squeezing : X.phase = .squeezing → X.biq = 0 ∧ X.bas % 8 = 0 ∧ X.bas ≤ X.cfg.rate
  /-- (I4). -/
  queueTop : ∀ i, X.cfg.rate / 8 ≤ i → queueByte X.queue i = 0
  /-- While Squeezing the queue holds the rate bits last extracted from the state (R28). -/
  extracted : X.phase = .squeezing → ∀ i, i < X.cfg.rate / 8 → queueByte X.queue i = stateByte X.lanes i

/-- Any context between commands: legal if configured, else as power-on left it (R25, R26). -/
structure Context.Inv (X : Context) : Prop where
  configured : X.valid = true → X.Legal
  /-- Keccak and SHA3 contexts are Absorbing between commands (R163). -/
  fixedAbsorbing : X.cfg.xof = false → X.phase = .absorbing
  unconfigured : X.valid = false → X = Context.powerOn

/-- The whole machine between steps. -/
structure State.Inv (s : State) : Prop where
  /-- The build's parameters are allowed (R10). -/
  build : s.build.Legal
  /-- The buffer memory is in its canonical form, its bytes below MEMSZ (R64). -/
  memWf : s.mem.wf
  memBelow : s.mem.below s.build.memsz
  /-- Every context keeps its invariants (R32). -/
  ctxs : ∀ c, (s.ctx c).Inv
  /-- The build has no context at or above NCTX (R24). -/
  absent : ∀ c : CtxId, ¬ ctxInRange s.build c → (s.ctx c).valid = false
  /-- No command is in flight while reset is asserted (R300). -/
  resetIdle : s.inReset = true → s.inFlight = none

/-! ## The error of a command (R261) -/

/-- The bit lengths of a variant code (R190); none for an unsupported code. -/
def bitLengths (v : Byte) : List Nat :=
  if v = 0 then [128, 224, 256, 288, 384, 512]
  else if v = 1 then [224, 256, 384, 512]
  else if v = 2 then [128, 256]
  else []

/-- The context check P2 reads: the operated context, for COPY the source (R261). -/
def checkedCtx : Instr → CtxId
  | .copy _ c => c
  | i => ctxOf i

/-- Check P2 fails: an unconfigured context; CONFIG has no such check. -/
def failsP2 (i : Instr) (s : State) : Bool :=
  match i with
  | .config _ _ _ => false
  | i => !(s.ctx (checkedCtx i)).valid

/-- Check P3 fails: CONFIG's variant code or bit length. -/
def failsP3 : Instr → Bool
  | .config _ v n => n.toNat ∉ bitLengths v
  | _ => false

/-- Check P4 fails: an extendable-output command on a context that is not SHAKE. -/
def failsP4 (i : Instr) (s : State) : Bool :=
  match i with
  | .doFinalXof c _ _ => !(s.ctx c).cfg.xof
  | .doOutput c _ _ => !(s.ctx c).cfg.xof
  | _ => false

/-- Check P5 fails: an absorb in the Squeezing phase. -/
def failsP5 (i : Instr) (s : State) : Bool :=
  match i with
  | .updateByte c _ => (s.ctx c).phase = .squeezing
  | .update c _ _ => (s.ctx c).phase = .squeezing
  | _ => false

/-- Check P6 fails: the region passes MEMSZ. -/
def failsP6 (i : Instr) (s : State) : Bool :=
  match i with
  | .update _ off len => s.build.memsz < off.toNat + len.toNat
  | .doFinal c off => s.build.memsz < off.toNat + (s.ctx c).cfg.dsize
  | .doFinalXof _ off len => s.build.memsz < off.toNat + len.toNat
  | .doOutput _ off len => s.build.memsz < off.toNat + len.toNat
  | _ => false

/-- The error of a decoded command: that of the first failing check P2 to P6 (R261). -/
def firstError (i : Instr) (s : State) : Option ErrKind :=
  if failsP2 i s then some .stateError
  else if failsP3 i then some .configurationError
  else if failsP4 i s then some .illegalCommand
  else if failsP5 i s then some .stateError
  else if failsP6 i s then some .bufferError
  else none

/-! ## The end of a command (R262) -/

/-- t is a state in which a command issued in s, its word having this `op` and `ctx`, has ended with outcome e: what
Finish writes, and what no command writes. -/
structure Finished (s t : State) (op : Byte) (c : CtxId) (e : Option ErrKind) : Prop where
  err : t.status.err = e
  lastOp : t.status.lastOp = op
  lastCtx : t.status.lastCtx = c
  sticky : t.status.sticky = (s.status.sticky || e.isSome)
  idle : t.busy = false
  ovr : t.status.ovr = s.status.ovr
  arg : t.arg = s.arg
  build : t.build = s.build
  inReset : t.inReset = s.inReset
  powerOns : t.powerOns = s.powerOns
  host : t.host = s.host

/-- Every context but c reads as before. -/
abbrev OtherContextsKept (s t : State) (c : CtxId) : Prop := ∀ d, d ≠ c → t.ctx d = s.ctx d

/-- Every byte of buffer memory reads as before. -/
abbrev MemoryKept (s t : State) : Prop := ∀ a, t.memByte a = s.memByte a

/-- Every byte of buffer memory outside the n bytes from `off` reads as before. -/
abbrev MemoryKeptOutside (s t : State) (off n : Nat) : Prop :=
  ∀ a, a < off ∨ off + n ≤ a → t.memByte a = s.memByte a

/-- No context, RESULT or buffer-memory byte changed (R262). -/
abbrev Unmutated (s t : State) : Prop := t.ctxs = s.ctxs ∧ t.result = s.result ∧ MemoryKept s t

/-! ## The output stream -/

/-- Byte p of the stream that extraction blocks of `rate` bits give from lanes A, block j after j refills. -/
def blockStream (A : Lanes) (rate p : Nat) : Byte :=
  stateByte (keccakF^[p / (rate / 8)] A) (p % (rate / 8))

/-- The i-th byte a squeezing context has still to output: the stream of its lanes, from where its unread bits
start. -/
def Context.streamByte (X : Context) (i : Nat) : Byte :=
  blockStream X.lanes X.cfg.rate ((X.cfg.rate - X.bas) / 8 + i)

/-- The i-th byte the next finalize command on a context outputs: the suffix and the finalize transition come first
if it is still Absorbing. -/
def Context.outputByte (X : Context) (i : Nat) : Byte := X.injectSuffix.toSqueezing.streamByte i

end Sys2Proof.Machine
end

