-- ==== Sys2Proof/Certificates/Slice0/Obligations.lean ====
section
/-! DEFINITION. The statements for the provers. Each docstring names the rules of spec/ it formalises, or the log entry it rests on. -/

open Sys2Proof Sys2Proof.Machine

/-! ## Encoding (30_encoding.md) -/

/-- R102: the twelve worked encodings, for the default build: the line, the command it stands for, W, CMD and ARG. -/
def Obligations.WorkedEncodings : Prop :=
  let rows : List (String × Instr × CmdWord × Reg × Reg) :=
    [("CONFIG c0, SHA3, 256", .config 0 1 256, 0x0100000000010001, 0x00010001, 0x01000000),
     ("CONFIG c1, SHAKE, 128", .config 1 2 128, 0x0080000000020101, 0x00020101, 0x00800000),
     ("UPDATE_BYTE c2, 0x61", .updateByte 2 0x61, 0x0000000000610203, 0x00610203, 0x00000000),
     ("UPDATE c0, 0x0010, 4", .update 0 0x0010 4, 0x0004001000000004, 0x00000004, 0x00040010),
     ("DO_FINAL c0, 0x0100", .doFinal 0 0x0100, 0x0000010000000005, 0x00000005, 0x00000100),
     ("DO_FINAL_XOF c1, 0x0200, 64", .doFinalXof 1 0x0200 64, 0x0040020000000106, 0x00000106, 0x00400200),
     ("DO_OUTPUT c1, 0x0200, 10", .doOutput 1 0x0200 10, 0x000A020000000107, 0x00000107, 0x000A0200),
     ("COPY c1, c0", .copy 1 0, 0x0000000000000108, 0x00000108, 0x00000000),
     ("COPY c0, c3", .copy 0 3, 0x0000000000003008, 0x00003008, 0x00000000),
     ("GET_DIGEST_SIZE c0", .getDigestSize 0, 0x0000000000000009, 0x00000009, 0x00000000),
     ("GET_BYTE_LENGTH c3", .getByteLength 3, 0x000000000000030A, 0x0000030A, 0x00000000),
     ("RESET c0", .reset 0, 0x0000000000000002, 0x00000002, 0x00000000)]
  ∀ r ∈ rows, assembleLine r.1 = some [.command r.2.1] ∧ encode r.2.1 = r.2.2.1 ∧
    decode Config.defaultBuild r.2.2.1 = .ok r.2.1 ∧ r.2.2.1.extractLsb' 0 32 = r.2.2.2.1 ∧
    r.2.2.1.extractLsb' 32 32 = r.2.2.2.2

/-- R91, R93: decoding the word a well-formed command assembles to gives the command back, for every build and every
operand value. -/
def Obligations.DecodeOfEncodeIsTheCommand : Prop :=
  ∀ (b : Build) (i : Instr), wellFormed b i = true → decode b (encode i) = .ok i

/-- R97: the decoder accepts a word exactly when no line of its pseudocode rejects it, and then gives the command `op`
names with the word's fields as its operands; the all-zero word is rejected (R96). -/
def Obligations.DecoderAcceptsExactlyLegalWords : Prop :=
  (∀ (b : Build) (w : CmdWord),
    let op := (w.extractLsb' 0 8).toNat
    let ctx := w.extractLsb' 8 4
    let ctx2 := w.extractLsb' 12 4
    let imm8 := w.extractLsb' 16 8
    let rsv := w.extractLsb' 24 8
    let off := w.extractLsb' 32 16
    let len := w.extractLsb' 48 16
    ((∃ i, decode b w = .ok i) ↔
      (0x01 ≤ op ∧ op ≤ 0x0A) ∧ rsv = 0 ∧ (op ≠ 0x08 → ctx2 = 0) ∧ (op ≠ 0x01 → op ≠ 0x03 → imm8 = 0) ∧
        ctx.toNat < b.nctx ∧ (op = 0x08 → ctx2.toNat < b.nctx)) ∧
    ∀ i, decode b w = .ok i →
      (op = 0x01 → i = .config ctx imm8 len) ∧ (op = 0x02 → i = .reset ctx) ∧
      (op = 0x03 → i = .updateByte ctx imm8) ∧ (op = 0x04 → i = .update ctx off len) ∧
      (op = 0x05 → i = .doFinal ctx off) ∧ (op = 0x06 → i = .doFinalXof ctx off len) ∧
      (op = 0x07 → i = .doOutput ctx off len) ∧ (op = 0x08 → i = .copy ctx ctx2) ∧
      (op = 0x09 → i = .getDigestSize ctx) ∧ (op = 0x0A → i = .getByteLength ctx)) ∧
  ∀ b : Build, ∀ i, decode b 0 ≠ .ok i

/-- R91, R93: a decoded command is well-formed, has the word's `op` and `ctx`, and holds every bit of the word but
those of the ARG fields R93 calls ignored: its own word is W with those cleared. -/
def Obligations.DecodedCommandHoldsTheOperandBits : Prop :=
  ∀ (b : Build) (w : CmdWord) (i : Instr), decode b w = .ok i →
    wellFormed b i = true ∧ opOf i = fieldOp w ∧ ctxOf i = fieldCtx w ∧
    encode i = w &&&
      (match i with
       | .config _ _ _ => 0xFFFF0000FFFFFFFF
       | .update _ _ _ | .doFinalXof _ _ _ | .doOutput _ _ _ => 0xFFFFFFFFFFFFFFFF
       | .doFinal _ _ => 0x0000FFFFFFFFFFFF
       | .reset _ | .updateByte _ _ | .copy _ _ | .getDigestSize _ | .getByteLength _ => 0x00000000FFFFFFFF)

/-- R99, R102: lines of the assembler syntax and the commands they stand for, a comment, two pseudo-instructions of R101
and two directives of R100 among them. -/
def Obligations.AssemblerLines : Prop :=
  assembleLine "CONFIG c0, SHA3, 256" = some [.command (.config 0 1 256)] ∧
  assembleLine "UPDATE        c0, 0x0010, 4   ; four bytes" = some [.command (.update 0 0x10 4)] ∧
  assembleLine "COPY c0, c3" = some [.command (.copy 0 3)] ∧
  assembleLine "SHAKE_128 c1" = some [.command (.config 1 2 128)] ∧
  assembleLine "HASH c0, 0x10, 4, 0x100" = some [.command (.update 0 0x10 4), .command (.doFinal 0 0x100)] ∧
  assembleLine ".mem 0x10, 0x00, 0x01, 0x02, 0x03" = some [.mem 0x10 [0, 1, 2, 3]] ∧
  assembleLine ".expect ERR=2" = some [.expectErr 2]

/-! ## The step -/

/-- R260: with word W in flight, decoding to command i, the step in which the core moves is i's meaning, at the state
with that event taken; when no event is to come, the core moves. -/
def Obligations.StepRunsTheDecodedCommand : Prop :=
  ∀ (s : State) (w : CmdWord) (i : Instr), s.inFlight = some w → decode s.build w = .ok i →
    (s.host.pending = [] → step s = exec i s) ∧
    ∀ es, s.host.pending = .core :: es → step s = exec i { s with host := { s.host with pending := es } }

/-- The model's own convention (notes/assumptions/3.md): the very next step runs the placed word, from a state that
differs in ARG, the word in flight and the end of reset only. -/
def Obligations.PlacedWordRunsNext : Prop :=
  ∀ (s : State) (nbits w : Nat) (i : Instr) (W : CmdWord), W = BitVec.ofNat 64 (w % 2 ^ nbits) →
    decode s.build W = .ok i →
    step (s.withFetchWord nbits w) =
      exec i { s with arg := W.extractLsb' 32 32, inFlight := some W, inReset := false }

/-- R96, R261 (P1), R262: a word the decoder rejects ends with IllegalCommand, and changes STATUS only. -/
def Obligations.RejectedWordOnlyWritesStatus : Prop :=
  ∀ (s : State) (w : CmdWord) (e : DecodeError), s.inFlight = some w → s.host.pending = [] →
    decode s.build w = .error e →
    ∃ t, step s = .next t ∧ Finished s t (fieldOp w) (fieldCtx w) (some .illegalCommand) ∧ Unmutated s t

/-- R285: with BUSY = 0 and nothing to come the machine is idle, and idle time changes no state. -/
def Obligations.IdleTimeChangesNothing : Prop :=
  ∀ s : State, s.busy = false →
    (s.host.pending = [] → step s = .next s) ∧
    ∀ es, s.host.pending = .core :: es → step s = .next { s with host := { s.host with pending := es } }

/-! ## The end of a command, and the errors (60_exceptions.md) -/

/-- R262, R264: every word in flight, whatever it is and in whatever state, ends with Finish: ERR, LASTOP, LASTCTX and
STICKY as it writes them, BUSY 0, OVR, ARG and the rest kept; and when ERR ≠ 0 nothing else changes. -/
def Obligations.EveryCommandEndsWithFinish : Prop :=
  ∀ (s : State) (w : CmdWord), ∃ t e, runWord w s = .next t ∧ Finished s t (fieldOp w) (fieldCtx w) e ∧
    (e ≠ none → t.ctxs = s.ctxs ∧ t.result = s.result ∧ t.mem = s.mem)

/-- R261: the error of a command is that of the first check that fails, in the order P1 to P6. The premise is I1 of
R32, which rules out Init's own error (R161). -/
def Obligations.FirstFailingCheckDecidesTheError : Prop :=
  ∀ (s t : State) (w : CmdWord), (∀ c, (s.ctx c).valid = true → rateLegal (s.ctx c).cfg.rate (s.ctx c).cfg.capacity) →
    runWord w s = .next t →
    t.status.err = (match decode s.build w with
      | .error _ => some .illegalCommand
      | .ok i => firstError i s)

/-- R263: the error kinds each command can raise after check P1, whatever the state. -/
def Obligations.ErrorKindsOfEachCommand : Prop :=
  ∀ (i : Instr) (s t : State) (e : ErrKind), exec i s = .next t → t.status.err = some e →
    match i with
    | .config _ _ _ => e = .configurationError
    | .copy _ _ | .getDigestSize _ | .getByteLength _ | .updateByte _ _ => e = .stateError
    | .update _ _ _ => e = .stateError ∨ e = .bufferError
    | .reset _ => e = .stateError ∨ (e = .configurationError ∧ ¬ (s.ctx (ctxOf i)).Legal)
    | .doFinal _ _ => e = .stateError ∨ e = .bufferError ∨ (e = .configurationError ∧ ¬ (s.ctx (ctxOf i)).Legal)
    | .doFinalXof _ _ _ => e = .stateError ∨ e = .illegalCommand ∨ e = .bufferError ∨
        (e = .configurationError ∧ ¬ (s.ctx (ctxOf i)).Legal)
    | .doOutput _ _ _ => e = .stateError ∨ e = .illegalCommand ∨ e = .bufferError

/-! ## Configuration and control commands (42_commands_control.md) -/

/-- R190: CONFIG installs the row of R160 and clears the sponge fields, for each legal pair; for any other pair it
raises ConfigurationError and leaves the context as it was. -/
def Obligations.ConfigCommand : Prop :=
  ∀ (c : CtxId) (v : Byte) (n : Half) (s : State),
    (n.toNat ∈ bitLengths v → ∃ t, exec (.config c v n) s = .next t ∧ Finished s t 0x01 c none ∧
      (t.ctx c).valid = true ∧ (t.ctx c).cfg.variant.code = v ∧ (t.ctx c).cfg.bitlen = n.toNat ∧
      (t.ctx c).cfg.rate = 1600 - 2 * n.toNat ∧ (t.ctx c).cfg.capacity = 2 * n.toNat ∧
      (t.ctx c).cfg.dsize = n.toNat / 8 ∧
      (t.ctx c).cfg.sfxVal = (if v = 0 then 0x0 else if v = 1 then 0x2 else 0xF) ∧
      (t.ctx c).cfg.sfxLen = (if v = 0 then 0 else if v = 1 then 2 else 4) ∧
      (t.ctx c).cfg.xof = decide (v = 2) ∧
      (t.ctx c).lanes = lanesZero ∧ (t.ctx c).queue = queueZero ∧ (t.ctx c).biq = 0 ∧ (t.ctx c).bas = 0 ∧
      (t.ctx c).phase = .absorbing ∧
      OtherContextsKept s t c ∧ t.result = s.result ∧ MemoryKept s t) ∧
    (n.toNat ∉ bitLengths v → ∃ t, exec (.config c v n) s = .next t ∧
      Finished s t 0x01 c (some .configurationError) ∧ Unmutated s t)

/-- R191: RESET clears the sponge fields of a configured context and keeps its configuration; on an unconfigured one it
raises StateError. The premise on the rate is I1 of R32. -/
def Obligations.ResetCommand : Prop :=
  ∀ (c : CtxId) (s : State),
    ((s.ctx c).valid = true → rateLegal (s.ctx c).cfg.rate (s.ctx c).cfg.capacity →
      ∃ t, exec (.reset c) s = .next t ∧ Finished s t 0x02 c none ∧
        t.ctx c = { s.ctx c with lanes := lanesZero, queue := queueZero, biq := 0, bas := 0, phase := .absorbing } ∧
        OtherContextsKept s t c ∧ t.result = s.result ∧ MemoryKept s t) ∧
    ((s.ctx c).valid = false → ∃ t, exec (.reset c) s = .next t ∧
      Finished s t 0x02 c (some .stateError) ∧ Unmutated s t)

/-- R192: COPY gives the destination every field of a configured source, and d = s changes nothing; an unconfigured
source is a StateError. -/
def Obligations.CopyCommand : Prop :=
  ∀ (d c : CtxId) (s : State),
    ((s.ctx c).valid = true → ∃ t, exec (.copy d c) s = .next t ∧ Finished s t 0x08 d none ∧
      t.ctx d = s.ctx c ∧ OtherContextsKept s t d ∧ (d = c → t.ctxs = s.ctxs) ∧
      t.result = s.result ∧ MemoryKept s t) ∧
    ((s.ctx c).valid = false → ∃ t, exec (.copy d c) s = .next t ∧
      Finished s t 0x08 d (some .stateError) ∧ Unmutated s t)

/-- R193: GET_DIGEST_SIZE writes dsize to RESULT and nothing else, in either phase; on an unconfigured context it
raises StateError. -/
def Obligations.GetDigestSizeCommand : Prop :=
  ∀ (c : CtxId) (s : State),
    ((s.ctx c).valid = true → ∃ t, exec (.getDigestSize c) s = .next t ∧ Finished s t 0x09 c none ∧
      t.result = BitVec.ofNat 32 (s.ctx c).cfg.dsize ∧ t.ctxs = s.ctxs ∧ MemoryKept s t) ∧
    ((s.ctx c).valid = false → ∃ t, exec (.getDigestSize c) s = .next t ∧
      Finished s t 0x09 c (some .stateError) ∧ Unmutated s t)

/-- R194: GET_BYTE_LENGTH writes rate/8 to RESULT and nothing else, in either phase; it is one of 168, 144, 136, 128,
104 and 72 for a context whose configuration is a row of R160; on an unconfigured context it raises StateError. -/
def Obligations.GetByteLengthCommand : Prop :=
  ∀ (c : CtxId) (s : State),
    ((s.ctx c).valid = true → ∃ t, exec (.getByteLength c) s = .next t ∧ Finished s t 0x0A c none ∧
      t.result = BitVec.ofNat 32 ((s.ctx c).cfg.rate / 8) ∧
      ((s.ctx c).cfg ∈ variantTable → t.result.toNat ∈ [168, 144, 136, 128, 104, 72]) ∧
      t.ctxs = s.ctxs ∧ MemoryKept s t) ∧
    ((s.ctx c).valid = false → ∃ t, exec (.getByteLength c) s = .next t ∧
      Finished s t 0x0A c (some .stateError) ∧ Unmutated s t)

/-! ## Data commands (43_commands_data.md) -/

/-- R220: UPDATE_BYTE queues the byte, and runs AbsorbBlock when it completes the block; on an unconfigured or
Squeezing context it raises StateError. -/
def Obligations.UpdateByteCommand : Prop :=
  ∀ (c : CtxId) (b : Byte) (s : State),
    ((s.ctx c).valid = true → (s.ctx c).phase = .absorbing →
      ∃ t, exec (.updateByte c b) s = .next t ∧ Finished s t 0x03 c none ∧
        ((s.ctx c).biq + 8 ≠ (s.ctx c).cfg.rate → t.ctx c =
          { s.ctx c with queue := queueSet (s.ctx c).queue ((s.ctx c).biq / 8) b, biq := (s.ctx c).biq + 8 }) ∧
        ((s.ctx c).biq + 8 = (s.ctx c).cfg.rate → t.ctx c =
          { s.ctx c with
            lanes := keccakF (xorQueue (s.ctx c).lanes (queueSet (s.ctx c).queue ((s.ctx c).biq / 8) b)
              ((s.ctx c).cfg.rate / 8))
            queue := queueZero
            biq := 0 }) ∧
        OtherContextsKept s t c ∧ t.result = s.result ∧ MemoryKept s t) ∧
    ((s.ctx c).valid = false ∨ (s.ctx c).phase = .squeezing → ∃ t, exec (.updateByte c b) s = .next t ∧
      Finished s t 0x03 c (some .stateError) ∧ Unmutated s t)

/-- R221, R71: UPDATE absorbs mem[OFF] to mem[OFF + LEN - 1] in that order; LEN = 0 changes no context field; the
errors are StateError, for an unconfigured or a Squeezing context whatever LEN is, and then BufferError. -/
def Obligations.UpdateCommand : Prop :=
  ∀ (c : CtxId) (off len : Half) (s : State),
    ((s.ctx c).valid = true → (s.ctx c).phase = .absorbing → off.toNat + len.toNat ≤ s.build.memsz →
      ∃ t, exec (.update c off len) s = .next t ∧ Finished s t 0x04 c none ∧
        t.ctx c = (List.range len.toNat).foldl (fun X i => X.absorbByte (s.memByte (off.toNat + i))) (s.ctx c) ∧
        (len = 0 → t.ctxs = s.ctxs) ∧
        OtherContextsKept s t c ∧ t.result = s.result ∧ MemoryKept s t) ∧
    ((s.ctx c).valid = false ∨ (s.ctx c).phase = .squeezing → ∃ t, exec (.update c off len) s = .next t ∧
      Finished s t 0x04 c (some .stateError) ∧ Unmutated s t) ∧
    ((s.ctx c).valid = true → (s.ctx c).phase = .absorbing → s.build.memsz < off.toNat + len.toNat →
      ∃ t, exec (.update c off len) s = .next t ∧ Finished s t 0x04 c (some .bufferError) ∧ Unmutated s t)

/-- R222: DO_FINAL writes the context's next dsize output bytes from mem[OFF] up and then resets the context; on an
unconfigured context it raises StateError, and on a region that passes MEMSZ BufferError. -/
def Obligations.DoFinalCommand : Prop :=
  ∀ (c : CtxId) (off : Half) (s : State),
    ((s.ctx c).valid = true → (s.ctx c).Legal → off.toNat + (s.ctx c).cfg.dsize ≤ s.build.memsz →
      ∃ t, exec (.doFinal c off) s = .next t ∧ Finished s t 0x05 c none ∧
        (∀ i, i < (s.ctx c).cfg.dsize → t.memByte (off.toNat + i) = (s.ctx c).outputByte i) ∧
        MemoryKeptOutside s t off.toNat (s.ctx c).cfg.dsize ∧
        t.ctx c = { s.ctx c with lanes := lanesZero, queue := queueZero, biq := 0, bas := 0, phase := .absorbing } ∧
        OtherContextsKept s t c ∧ t.result = s.result) ∧
    ((s.ctx c).valid = false → ∃ t, exec (.doFinal c off) s = .next t ∧
      Finished s t 0x05 c (some .stateError) ∧ Unmutated s t) ∧
    ((s.ctx c).valid = true → s.build.memsz < off.toNat + (s.ctx c).cfg.dsize →
      ∃ t, exec (.doFinal c off) s = .next t ∧ Finished s t 0x05 c (some .bufferError) ∧ Unmutated s t)

/-- R223: DO_FINAL_XOF writes the next LEN output bytes of a SHAKE context and then resets it, LEN = 0 included;
StateError, IllegalCommand and BufferError in that order. -/
def Obligations.DoFinalXofCommand : Prop :=
  ∀ (c : CtxId) (off len : Half) (s : State),
    ((s.ctx c).valid = true → (s.ctx c).Legal → (s.ctx c).cfg.xof = true → off.toNat + len.toNat ≤ s.build.memsz →
      ∃ t, exec (.doFinalXof c off len) s = .next t ∧ Finished s t 0x06 c none ∧
        (∀ i, i < len.toNat → t.memByte (off.toNat + i) = (s.ctx c).outputByte i) ∧
        MemoryKeptOutside s t off.toNat len.toNat ∧
        t.ctx c = { s.ctx c with lanes := lanesZero, queue := queueZero, biq := 0, bas := 0, phase := .absorbing } ∧
        OtherContextsKept s t c ∧ t.result = s.result) ∧
    ((s.ctx c).valid = false → ∃ t, exec (.doFinalXof c off len) s = .next t ∧
      Finished s t 0x06 c (some .stateError) ∧ Unmutated s t) ∧
    ((s.ctx c).valid = true → (s.ctx c).cfg.xof = false → ∃ t, exec (.doFinalXof c off len) s = .next t ∧
      Finished s t 0x06 c (some .illegalCommand) ∧ Unmutated s t) ∧
    ((s.ctx c).valid = true → (s.ctx c).cfg.xof = true → s.build.memsz < off.toNat + len.toNat →
      ∃ t, exec (.doFinalXof c off len) s = .next t ∧ Finished s t 0x06 c (some .bufferError) ∧ Unmutated s t)

/-- R224: DO_OUTPUT writes the next LEN output bytes of a SHAKE context, which is then Squeezing and goes on with the
byte after them, LEN = 0 included; StateError, IllegalCommand and BufferError in that order. -/
def Obligations.DoOutputCommand : Prop :=
  ∀ (c : CtxId) (off len : Half) (s : State),
    ((s.ctx c).valid = true → (s.ctx c).Legal → (s.ctx c).cfg.xof = true → off.toNat + len.toNat ≤ s.build.memsz →
      ∃ t, exec (.doOutput c off len) s = .next t ∧ Finished s t 0x07 c none ∧
        (∀ i, i < len.toNat → t.memByte (off.toNat + i) = (s.ctx c).outputByte i) ∧
        MemoryKeptOutside s t off.toNat len.toNat ∧
        t.ctx c = (Context.squeezeLoop (8 * len.toNat) (s.ctx c).injectSuffix.toSqueezing (8 * len.toNat)).1 ∧
        (t.ctx c).phase = .squeezing ∧ (t.ctx c).cfg = (s.ctx c).cfg ∧ (t.ctx c).valid = true ∧
        (∀ i, (t.ctx c).outputByte i = (s.ctx c).outputByte (len.toNat + i)) ∧
        OtherContextsKept s t c ∧ t.result = s.result) ∧
    ((s.ctx c).valid = false → ∃ t, exec (.doOutput c off len) s = .next t ∧
      Finished s t 0x07 c (some .stateError) ∧ Unmutated s t) ∧
    ((s.ctx c).valid = true → (s.ctx c).cfg.xof = false → ∃ t, exec (.doOutput c off len) s = .next t ∧
      Finished s t 0x07 c (some .illegalCommand) ∧ Unmutated s t) ∧
    ((s.ctx c).valid = true → (s.ctx c).cfg.xof = true → s.build.memsz < off.toNat + len.toNat →
      ∃ t, exec (.doOutput c off len) s = .next t ∧ Finished s t 0x07 c (some .bufferError) ∧ Unmutated s t)

/-! ## The engine (41_sponge_engine.md) -/

/-- R61, R152: state byte i is byte i mod 8 of lane i div 8, from the least significant end; AbsorbBlock XORs the first
rate/8 queue bytes into the state bytes, leaves the others, permutes, and empties the queue. -/
def Obligations.AbsorbBlockXorsAndPermutes : Prop :=
  (∀ (A : Lanes) (i : Nat), i < 200 → stateByte A i = (laneK A (i / 8)).extractLsb' (8 * (i % 8)) 8) ∧
  ∀ X : Context, X.cfg.rate / 8 ≤ 168 →
    ∃ A : Lanes, A = xorQueue X.lanes X.queue (X.cfg.rate / 8) ∧ (∀ i, i < 200 → stateByte A i =
        if i < X.cfg.rate / 8 then stateByte X.lanes i ^^^ queueByte X.queue i else stateByte X.lanes i) ∧
      (∀ k, X.cfg.rate / 8 ≤ 8 * k → laneK A k = laneK X.lanes k) ∧
      X.absorbBlock = { X with lanes := keccakF A, queue := queueZero, biq := 0 }

/-- R62, R63, R154, R157, R158: queue bit k is bit k mod 8 of queue byte k div 8; the block the finalize transition absorbs
from a legal Absorbing context holds the queued message bits, the suffix bits from bit biq up in the order of increasing t,
a 1 after them, zeros, and a 1 at bit rate - 1; one permutation later the context is Squeezing with that state's first rate
bits in its queue. -/
def Obligations.FinalizeAbsorbsThePaddedBlock : Prop :=
  (∀ (Q : Queue) (k : Nat), queueBit Q k = (queueByte Q (k / 8)).getLsbD (k % 8)) ∧
  ∀ X : Context, X.Legal → X.phase = .absorbing →
    ∃ P : Queue,
      (∀ k, queueBit P k =
        if k < X.biq then queueBit X.queue k
        else if k < X.biq + X.cfg.sfxLen then X.cfg.sfxVal.getLsbD (k - X.biq)
        else decide (k = X.biq + X.cfg.sfxLen ∨ k = X.cfg.rate - 1)) ∧
      X.injectSuffix.toSqueezing.lanes = keccakF (xorQueue X.lanes P (X.cfg.rate / 8)) ∧
      X.injectSuffix.toSqueezing.phase = .squeezing ∧ X.injectSuffix.toSqueezing.biq = 0 ∧
      X.injectSuffix.toSqueezing.bas = X.cfg.rate ∧ X.injectSuffix.toSqueezing.cfg = X.cfg ∧
      ∀ i, i < X.cfg.rate / 8 →
        queueByte X.injectSuffix.toSqueezing.queue i = stateByte X.injectSuffix.toSqueezing.lanes i

/-- R162: after the suffix at most rate - 4 bits are queued, so the two-block branch of PadSwitch is never taken. -/
def Obligations.SuffixLeavesRoomForThePadding : Prop :=
  ∀ X : Context, X.Legal → X.phase = .absorbing →
    X.injectSuffix.biq ≤ X.cfg.rate - 4 ∧ X.injectSuffix.biq + 1 ≠ X.cfg.rate ∧ X.injectSuffix.lanes = X.lanes

/-- R154: where the first pad bit fills the block, it is absorbed alone and the second goes into an all-zero block: two
permutations (90_conflicts.md C3). -/
def Obligations.PaddingSpansTwoBlocksAtTheEdge : Prop :=
  ∀ X : Context, X.biq + 1 = X.cfg.rate →
    X.padSwitch.lanes =
      keccakF (xorQueue (keccakF (xorQueue X.lanes (queueSetBit X.queue X.biq) (X.cfg.rate / 8)))
        (queueSetBit queueZero (X.cfg.rate - 1)) (X.cfg.rate / 8))

/-- R156: Squeeze on a legal Squeezing context returns the next bytes of the stream that reads its state rate bits at a
time, a permutation between, and the context goes on where it stopped. -/
def Obligations.SqueezeOutputsTheStream : Prop :=
  ∀ (X : Context) (n : Nat), X.Legal → X.phase = .squeezing →
    ∃ Y, X.squeeze (8 * n) = .ok (Y, (List.range n).map X.streamByte) ∧
      Y.Legal ∧ Y.phase = .squeezing ∧ Y.cfg = X.cfg ∧ Y.valid = X.valid ∧
      ∀ i, Y.streamByte i = X.streamByte (n + i)

/-- R150, R156, R161: the engine's two own failures come before any change: a (rate, capacity) pair that fails Init's
invariant, and a squeeze length that is no whole number of bytes; no row of R160 fails it (90_conflicts.md C4). -/
def Obligations.EngineFailuresComeBeforeAnyChange : Prop :=
  (∀ (X : Context) (rate capacity : Nat),
    ¬ (rate + capacity = 1600 ∧ rate % 64 = 0 ∧ 0 < rate ∧ rate < 1600) →
    X.init rate capacity = .error .configurationError) ∧
  (∀ (X : Context) (r : Cfg), r ∈ variantTable → ∃ Y, X.init r.rate r.capacity = .ok Y) ∧
  ∀ (X : Context) (nbits : Nat), nbits % 8 ≠ 0 → X.squeeze nbits = .error .configurationError

/-- R164: two UPDATEs of neighbouring regions leave the context one UPDATE of both leaves, and an UPDATE of one byte the
context an UPDATE_BYTE of it leaves. -/
def Obligations.AbsorbingIsChunkIndependent : Prop :=
  (∀ (c : CtxId) (off n m : Half) (s t u : State), n.toNat + m.toNat < 2 ^ 16 →
    off.toNat + n.toNat < 2 ^ 16 ∨ m = 0 →
    exec (.update c off n) s = .next t → t.status.err = none →
    exec (.update c (off + n) m) t = .next u → u.status.err = none →
    ∃ v, exec (.update c off (n + m)) s = .next v ∧ v.status.err = none ∧ v.ctxs = u.ctxs) ∧
  ∀ (c : CtxId) (off : Half) (s t : State), exec (.update c off 1) s = .next t → t.status.err = none →
    ∃ v, exec (.updateByte c (s.memByte off.toNat)) s = .next v ∧ v.status.err = none ∧ v.ctxs = t.ctxs

/-- R165: DO_OUTPUT of N bytes and then of M bytes to the region after them writes the bytes, and leaves the context,
that one DO_OUTPUT of N + M bytes does. -/
def Obligations.OutputIsStreamingConsistent : Prop :=
  ∀ (c : CtxId) (off n m : Half) (s t u : State), s.Inv → n.toNat + m.toNat < 2 ^ 16 → off.toNat + n.toNat < 2 ^ 16 →
    exec (.doOutput c off n) s = .next t → t.status.err = none →
    exec (.doOutput c (off + n) m) t = .next u → u.status.err = none →
    ∃ v, exec (.doOutput c off (n + m)) s = .next v ∧ v.status.err = none ∧ v.ctxs = u.ctxs ∧
      ∀ a, v.memByte a = u.memByte a

/-- R302: RESET leaves a configured context as a successful CONFIG of its variant and length does; a second RESET
changes nothing more (R303). -/
def Obligations.ResetEqualsFreshConfig : Prop :=
  ∀ (c : CtxId) (s t : State), (s.ctx c).valid = true → (s.ctx c).Legal → exec (.reset c) s = .next t →
    (∃ u, exec (.config c (s.ctx c).cfg.variant.code (BitVec.ofNat 16 (s.ctx c).cfg.bitlen)) s = .next u ∧
      u.status.err = none ∧ u.ctxs = t.ctxs) ∧
    ∃ u, exec (.reset c) t = .next u ∧ u.status.err = none ∧ u.ctxs = t.ctxs

/-- R163: the phase of the operated context after each command, by its phase before. -/
def Obligations.PhaseController : Prop :=
  ∀ (i : Instr) (s t : State), s.Inv → exec i s = .next t → t.status.err = none →
    match i with
    | .updateByte c _ | .update c _ _ => (s.ctx c).phase = .absorbing ∧ (t.ctx c).phase = .absorbing
    | .doFinal c _ | .doFinalXof c _ _ | .reset c | .config c _ _ => (t.ctx c).phase = .absorbing
    | .doOutput c _ _ => (t.ctx c).phase = .squeezing
    | .copy d c => (t.ctx d).phase = (s.ctx c).phase
    | .getDigestSize c | .getByteLength c => t.ctx c = s.ctx c

/-- R316: the permutations a command runs when it completes with OK, by its operands and the context's counters. They are
counted by the model's own measure (notes/assumptions/14.md), no part of the state: the engine operations with one added
at each KeccakF, whose first component is the operation itself. -/
def Obligations.PermutationCounts : Prop :=
  ((∀ A, countedKeccakF A = (keccakF A, 1)) ∧ (∀ X : Context, X.absorbBlockCounted.1 = X.absorbBlock) ∧
    (∀ (X : Context) b, (X.absorbByteCounted b).1 = X.absorbByte b) ∧
    (∀ (X : Context) bs, (X.absorbBytesCounted bs).1 = X.absorbBytes bs) ∧
    (∀ X : Context, X.injectSuffixCounted.1 = X.injectSuffix) ∧ (∀ X : Context, X.padSwitchCounted.1 = X.padSwitch) ∧
    (∀ X : Context, X.refillCounted.1 = X.refill) ∧
    ∀ (X : Context) n, (X.outputCounted n).1 = Context.squeezeLoop (8 * n) X.injectSuffix.toSqueezing (8 * n)) ∧
  ∀ s : State, s.Inv →
    (∀ c v n, permutations (.config c v n) s = 0) ∧ (∀ c, permutations (.reset c) s = 0) ∧
    (∀ d c, permutations (.copy d c) s = 0) ∧ (∀ c, permutations (.getDigestSize c) s = 0) ∧
    (∀ c, permutations (.getByteLength c) s = 0) ∧
    ∀ c, (s.ctx c).valid = true →
      ((s.ctx c).phase = .absorbing →
        (∀ b, permutations (.updateByte c b) s = if (s.ctx c).biq + 8 = (s.ctx c).cfg.rate then 1 else 0) ∧
        (∀ off len : Half, permutations (.update c off len) s =
          ((s.ctx c).biq + 8 * len.toNat) / (s.ctx c).cfg.rate) ∧
        (∀ off, permutations (.doFinal c off) s = 1) ∧
        (∀ off len : Half, permutations (.doOutput c off len) s =
          1 + (8 * len.toNat - (s.ctx c).cfg.rate + (s.ctx c).cfg.rate - 1) / (s.ctx c).cfg.rate) ∧
        ∀ off len : Half, permutations (.doFinalXof c off len) s = permutations (.doOutput c off len) s) ∧
      ((s.ctx c).phase = .squeezing →
        (∀ off, permutations (.doFinal c off) s =
          (8 * (s.ctx c).cfg.dsize - (s.ctx c).bas + (s.ctx c).cfg.rate - 1) / (s.ctx c).cfg.rate) ∧
        ∀ off len : Half, permutations (.doOutput c off len) s =
            (8 * len.toNat - (s.ctx c).bas + (s.ctx c).cfg.rate - 1) / (s.ctx c).cfg.rate ∧
          permutations (.doFinalXof c off len) s = permutations (.doOutput c off len) s)

/-! ## The permutation (40_permutation.md) -/

/-- R124, R125, R126: theta, rho and pi lane by lane. -/
def Obligations.ThetaRhoPiLaneByLane : Prop :=
  ∀ A : Lanes, ∀ x < 5, ∀ y < 5,
    laneK (theta A) (x + 5 * y) = laneK A (x + 5 * y) ^^^
      ((laneK A ((x + 4) % 5) ^^^ laneK A ((x + 4) % 5 + 5) ^^^ laneK A ((x + 4) % 5 + 10) ^^^
          laneK A ((x + 4) % 5 + 15) ^^^ laneK A ((x + 4) % 5 + 20)) ^^^
        (laneK A ((x + 1) % 5) ^^^ laneK A ((x + 1) % 5 + 5) ^^^ laneK A ((x + 1) % 5 + 10) ^^^
          laneK A ((x + 1) % 5 + 15) ^^^ laneK A ((x + 1) % 5 + 20)).rotateLeft 1) ∧
    laneK (rho A) (x + 5 * y) = (laneK A (x + 5 * y)).rotateLeft (rhoTable.getD (x + 5 * y) 0) ∧
    laneK (pi A) (y + 5 * ((2 * x + 3 * y) % 5)) = laneK A (x + 5 * y)

/-- R127, R128: chi and iota lane by lane. -/
def Obligations.ChiIotaLaneByLane : Prop :=
  ∀ (A : Lanes) (i : Nat),
    (∀ x < 5, ∀ y < 5, laneK (chi A) (x + 5 * y) = laneK A (x + 5 * y) ^^^
      (~~~ (laneK A ((x + 1) % 5 + 5 * y)) &&& laneK A ((x + 2) % 5 + 5 * y))) ∧
    laneK (iota A i) 0 = laneK A 0 ^^^ rcTable.getD i 0 ∧
    ∀ k, 1 ≤ k → k ≤ 24 → laneK (iota A i) k = laneK A k

/-- R120, R122, R123: KeccakF is the 24 rounds 0 to 23 in order, each theta, rho, pi, chi, iota in that order. -/
def Obligations.KeccakFIsTwentyFourRounds : Prop :=
  ∃ S : Nat → Lanes → Lanes,
    (∀ A, S 0 A = A) ∧ (∀ i A, S (i + 1) A = iota (chi (pi (rho (theta (S i A))))) i) ∧ ∀ A, keccakF A = S 24 A

/-- R130 to R133: the two constant tables are what their derivations give, and the walk visits the 24 positions other
than (0,0) exactly once. -/
def Obligations.ConstantTablesAreDerived : Prop :=
  lfsrTable 24 0x01 = rcTable ∧ rhoOffset 0 0 = 0 ∧
  (∀ p ∈ rhoWalk 24 0 1 0, rhoOffset p.1 p.2.1 = p.2.2 ∧ (p.1, p.2.1) ≠ (0, 0)) ∧
  ((rhoWalk 24 0 1 0).map fun p => (p.1, p.2.1)).Nodup

/-- R120: KeccakF is a bijection on the states. -/
def Obligations.KeccakFIsABijection : Prop := Function.Bijective keccakF

/-! ## The host window (20_memory.md, 10_state.md) -/

/-- R33 to R38, R67: what a 32-bit read of each register-block offset answers; reading changes nothing but the answer on
the bus, whether a command is in flight or not. -/
def Obligations.RegisterReads : Prop :=
  ∀ (s : State) (off : Nat), s.inReset = false → off < 0x1000 → off % 4 = 0 →
    ∃ v, hostAccess (.read .word (s.build.base + off)) s =
        .next { s with host := { s.host with response := some (.data v) } } ∧
      v = (if off = 0x004 then s.arg else if off = 0x008 then s.statusWord else if off = 0x00C then s.result
        else if off = 0x010 then idWord s.build else 0)

/-- R37, R263: the layout of STATUS, and the five codes of its ERR field. -/
def Obligations.StatusLayout : Prop :=
  (errCode none = 0 ∧ errCode (some .configurationError) = 1 ∧ errCode (some .stateError) = 2 ∧
    errCode (some .bufferError) = 3 ∧ errCode (some .illegalCommand) = 4) ∧
  ∀ s : State, s.statusWord.getLsbD 0 = s.busy ∧ s.statusWord.extractLsb' 1 3 = errCode s.status.err ∧
    s.statusWord.getLsbD 4 = s.status.sticky ∧ s.statusWord.getLsbD 5 = s.status.ovr ∧
    s.statusWord.extractLsb' 6 2 = 0 ∧ s.statusWord.extractLsb' 8 8 = s.status.lastOp ∧
    s.statusWord.extractLsb' 16 4 = s.status.lastCtx ∧ s.statusWord.extractLsb' 20 12 = 0

/-- R35: the fields of ID for every build, 0x0001434B for the default one; the Host reads it at offset 0x010, and a
write there is ignored. -/
def Obligations.IdRegister : Prop :=
  (∀ b : Build, b.Legal → (idWord b).extractLsb' 0 8 = 0x4B ∧ ((idWord b).extractLsb' 8 4).toNat = b.nctx - 1 ∧
    (∀ k, b.memsz = 2 ^ k → ((idWord b).extractLsb' 12 4).toNat = k - 8 ∧ k - 8 ≤ 8) ∧
    (idWord b).extractLsb' 16 8 = 0x01 ∧ (idWord b).extractLsb' 24 8 = 0x00) ∧
  Config.defaultBuild.nctx = 4 ∧ Config.defaultBuild.memsz = 4096 ∧ idWord Config.defaultBuild = 0x0001434B ∧
  ∀ (s : State) (v : Reg), s.inReset = false →
    hostAccess (.read .word (s.build.base + 0x010)) s =
        .next { s with host := { s.host with response := some (.data (idWord s.build)) } } ∧
      hostAccess (.write .word (s.build.base + 0x010) v) s =
        .next { s with host := { s.host with response := some .ack } }

/-- R36, R37, R38, R67: a write to ARG sets it; one to STATUS clears STICKY and OVR where it has a 1 and changes nothing
else; one to RESULT, ID or a reserved register offset is ignored. -/
def Obligations.RegisterWrites : Prop :=
  ∀ (s : State) (off : Nat) (v : Reg), s.inReset = false → off < 0x1000 → off % 4 = 0 → off ≠ 0 →
    ∃ t, hostAccess (.write .word (s.build.base + off) v) s = .next t ∧
      t.host = { s.host with response := some .ack } ∧
      t.arg = (if off = 0x004 then v else s.arg) ∧
      t.status.sticky = (if off = 0x008 then s.status.sticky && !v.getLsbD 4 else s.status.sticky) ∧
      t.status.ovr = (if off = 0x008 then s.status.ovr && !v.getLsbD 5 else s.status.ovr) ∧
      t.status.err = s.status.err ∧ t.status.lastOp = s.status.lastOp ∧ t.status.lastCtx = s.status.lastCtx ∧
      t.result = s.result ∧ t.ctxs = s.ctxs ∧ t.mem = s.mem ∧ t.inFlight = s.inFlight ∧ t.build = s.build ∧
      t.inReset = s.inReset ∧ t.powerOns = s.powerOns

/-- R22, R34, R260: a CMD write while BUSY = 0 latches {ARG, V}, sets BUSY and advances the Host's command index; nothing
else changes. -/
def Obligations.CmdWriteIssuesTheWord : Prop :=
  ∀ (s : State) (v : Reg), s.inReset = false → s.busy = false →
    ∃ t w, hostAccess (.write .word s.build.base v) s = .next t ∧ t.inFlight = some w ∧ t.busy = true ∧
      w.extractLsb' 0 32 = v ∧ w.extractLsb' 32 32 = s.arg ∧
      t = { s with
        inFlight := some w
        host := { s.host with response := some .ack, cmdIndex := s.host.cmdIndex + 1 } }

/-- R311: a CMD write while BUSY = 1 is dropped: OVR is set and nothing else changes. -/
def Obligations.CmdWriteWhileBusyIsDropped : Prop :=
  ∀ (s : State) (v : Reg), s.inReset = false → s.busy = true →
    hostAccess (.write .word s.build.base v) s =
      .next { s with status := { s.status with ovr := true }, host := { s.host with response := some .ack } }

/-- R68: an access of a width or alignment its region does not accept gets the bus-error response and has no effect;
no other access gets one. That a misaligned buffer-memory access gets it while BUSY = 1 too, where R312 asks for no access
at all, is the model's choice (notes/assumptions/10.md). -/
def Obligations.BusErrors : Prop :=
  ∀ (s : State) (a : BusAccess) (off : Nat), s.inReset = false → a.addr = s.build.base + off → off < 0x20000 →
    let ok := off % a.width.bytes = 0 ∧ (off < 0x1000 → a.width = .word)
    (¬ ok → hostAccess a s = .next { s with host := { s.host with response := some .busError } }) ∧
    (ok → ∀ t, hostAccess a s = .next t → t.host.response ≠ some .busError)

/-- R66, R67: the reserved ranges read 0 and ignore writes, for the default and every other size of buffer memory. -/
def Obligations.ReservedRanges : Prop :=
  ∀ (s : State) (w : Width) (off : Nat) (v : Reg), s.inReset = false → off % w.bytes = 0 →
    (0x1000 ≤ off ∧ off < 0x10000 ∨ 0x10000 + s.build.memsz ≤ off ∧ off < 0x20000) →
    hostAccess (.read w (s.build.base + off)) s =
        .next { s with host := { s.host with response := some (.data 0) } } ∧
      hostAccess (.write w (s.build.base + off) v) s =
        .next { s with host := { s.host with response := some .ack } }

/-- R69: buffer-memory accesses are little-endian: a read moves the bytes from mem[a] up as the value's bytes from the
least significant up, a write stores the value's low bytes there and keeps every other byte. -/
def Obligations.BufferAccessesAreLittleEndian : Prop :=
  ∀ (s : State) (w : Width) (a : Nat) (v : Reg), s.Inv → s.inReset = false → s.busy = false → a % w.bytes = 0 →
    a < s.build.memsz →
    (∃ r : Reg, hostAccess (.read w (s.build.base + 0x10000 + a)) s =
        .next { s with host := { s.host with response := some (.data r) } } ∧
      (∀ k < w.bytes, r.extractLsb' (8 * k) 8 = s.memByte (a + k)) ∧ r.toNat < 2 ^ (8 * w.bytes)) ∧
    ∃ t, hostAccess (.write w (s.build.base + 0x10000 + a) v) s = .next t ∧
      t.host = { s.host with response := some .ack } ∧
      (∀ k < w.bytes, t.memByte (a + k) = v.extractLsb' (8 * k) 8) ∧
      MemoryKeptOutside s t a w.bytes ∧ t.ctxs = s.ctxs ∧ t.status = s.status ∧ t.arg = s.arg ∧
      t.result = s.result ∧ t.inFlight = s.inFlight ∧ t.build = s.build

/-- R300, R312: the two Host accesses the spec has a model refuse (U5, U6; notes/assumptions/11.md): while BUSY = 1 one to
the buffer memory of a width and alignment it accepts, and while reset is asserted any in the window. -/
def Obligations.BufferAccessWhileBusyIsRefused : Prop :=
  (∀ (s : State) (a : BusAccess) (off : Nat), s.inReset = false → s.busy = true → off < s.build.memsz →
    s.build.memsz ≤ 0x10000 → a.addr = s.build.base + 0x10000 + off → off % a.width.bytes = 0 →
    hostAccess a s = .refused .hostBufferAccessWhileBusy) ∧
  ∀ (s : State) (a : BusAccess), s.inReset = true → s.build.base ≤ a.addr → a.addr < s.build.base + 0x20000 →
    hostAccess a s = .refused .hostAccessDuringReset

/-- R72: no read anywhere in the window has a side effect: a read that answers changes the answer on the bus only. -/
def Obligations.ReadsHaveNoSideEffects : Prop :=
  ∀ (s t : State) (w : Width) (addr : Nat), hostAccess (.read w addr) s = .next t →
    ∃ r, t = { s with host := { s.host with response := some r } }

/-- R20, R38, R72, R284: no Host access changes a context or RESULT, and only a write of the buffer-memory range changes a
buffer-memory byte; nor does one read a context: with other contexts in their place it gives the same answer, the same
state but for them, and the same stop. -/
def Obligations.HostReachesNoContext : Prop :=
  (∀ (s : State) (a : BusAccess) (C : Vector Context 16),
    match hostAccess a s with
    | .next t => hostAccess a { s with ctxs := C } = .next { t with ctxs := C }
    | .fault f => hostAccess a { s with ctxs := C } = .fault f
    | .refused r => hostAccess a { s with ctxs := C } = .refused r) ∧
  ∀ (s t : State) (a : BusAccess), hostAccess a s = .next t →
    t.ctxs = s.ctxs ∧ t.result = s.result ∧ t.build = s.build ∧ t.powerOns = s.powerOns ∧
    (t.mem ≠ s.mem → ∃ w addr v, a = .write w addr v ∧ s.build.base + 0x10000 ≤ addr ∧
      addr < s.build.base + 0x10000 + s.build.memsz)

/-- R60, R66: an access outside the window is not the core's; the model stops with a fault that names the address
(notes/assumptions/7.md). -/
def Obligations.AccessOutsideTheWindowFaults : Prop :=
  ∀ (s : State) (a : BusAccess), a.addr < s.build.base ∨ s.build.base + 0x20000 ≤ a.addr →
    hostAccess a s = .fault (.outsideWindow a.addr)

/-! ## Whole-machine rules -/

/-- R24: a command changes no context but the one it operates on, for COPY the destination. -/
def Obligations.CommandsKeepOtherContexts : Prop :=
  ∀ (i : Instr) (s t : State), exec i s = .next t → OtherContextsKept s t (ctxOf i)

/-- R24, R166: what a command does depends on no context but the one it operates on and, for COPY, its source: from two
states that agree on those, the buffer memory, RESULT and the build, it gives that context, every buffer-memory byte,
RESULT and ERR alike. -/
def Obligations.CommandsReadNoOtherContext : Prop :=
  ∀ (i : Instr) (s1 s2 t1 t2 : State), s1.build = s2.build → s1.result = s2.result →
    (∀ a, s1.memByte a = s2.memByte a) → s1.ctx (ctxOf i) = s2.ctx (ctxOf i) →
    s1.ctx (checkedCtx i) = s2.ctx (checkedCtx i) →
    exec i s1 = .next t1 → exec i s2 = .next t2 →
    t1.ctx (ctxOf i) = t2.ctx (ctxOf i) ∧ (∀ a, t1.memByte a = t2.memByte a) ∧ t1.result = t2.result ∧
      t1.status.err = t2.status.err

/-- R38, R64: only GET_DIGEST_SIZE and GET_BYTE_LENGTH change RESULT, and only the finalize commands change the buffer
memory. -/
def Obligations.WhichCommandsWriteResultAndMemory : Prop :=
  ∀ (i : Instr) (s t : State), exec i s = .next t →
    (t.result ≠ s.result → ∃ c, i = .getDigestSize c ∨ i = .getByteLength c) ∧
    (t.mem ≠ s.mem → ∃ c off len, i = .doFinal c off ∨ i = .doFinalXof c off len ∨ i = .doOutput c off len)

/-- R32: the invariants hold at reset. -/
def Obligations.InvariantHoldsAtReset : Prop := State.reset.Inv

/-- R32, R24, R64: every step keeps the invariants: I1 to I4 of each configured context, the canonical form and the
bounds of the buffer memory, the absence of contexts at or above NCTX, and no command in flight while reset is asserted. -/
def Obligations.StepKeepsTheInvariant : Prop :=
  ∀ s t : State, s.Inv → step s = .next t → t.Inv

/-- R41, R300, R301: reset asserted and released, in any state, abandons the command in flight and leaves every piece of
state at its reset value, the buffer memory's bytes free (the build, the coming events and the command index are not the
core's to reset: notes/assumptions/4.md). -/
def Obligations.PowerOnReset : Prop :=
  ∀ (s : State) (es : List Event), s.host.pending = .resetAssert :: .resetRelease :: es →
    ∃ u t, step s = .next u ∧ step u = .next t ∧
      (∀ c, t.ctx c = { valid := false, cfg := Cfg.mk .keccak 0 0 0 0 0 false 0, lanes := lanesZero, queue := queueZero,
                          biq := 0, bas := 0, phase := .absorbing }) ∧
      t.arg = 0 ∧ t.statusWord = 0 ∧ t.result = 0 ∧ t.busy = false ∧ t.inReset = false ∧ t.build = s.build ∧
      (∀ a, t.memByte a = Config.powerOnByte (s.powerOns + 1) a) ∧ t.host.pending = es

/-- R37: a STATUS write in the cycle in which a command completes with an error leaves STICKY set: setting wins. -/
def Obligations.SettingStickyWins : Prop :=
  ∀ (s : State) (v : Reg) (es : List Event) (w : CmdWord), s.inReset = false → s.inFlight = some w →
    s.host.pending = .hostCore (.write .word (s.build.base + 0x008) v) :: es →
    ∃ t, step s = .next t ∧ t.busy = false ∧ (t.status.err ≠ none → t.status.sticky = true)

/-- R314: a CMD write performed in one step (the atomic view) leaves the state that the write and a later core step (the
split view) leave. -/
def Obligations.AtomicViewEqualsSplitView : Prop :=
  ∀ (s : State) (v : Reg) (es : List Event), s.inReset = false → s.busy = false →
    ∃ t u, step { s with host := { s.host with pending := .hostCore (.write .word s.build.base v) :: es } } = .next t ∧
      step { s with host := { s.host with pending := .host (.write .word s.build.base v) :: .core :: es } } = .next u ∧
      step u = .next t ∧ t.busy = false ∧ t.status.ovr = s.status.ovr

/-- R99, R310, R315: the issue protocol: write ARG, write CMD, read STATUS until BUSY = 0. After any number of reads that
see BUSY = 1 the command has had its effect, the last read answers its STATUS, and the events after it are next. -/
def Obligations.IssueProtocolCompletes : Prop :=
  ∀ (s : State) (polls : Nat) (i : Instr) (es : List Event), s.inReset = false → s.busy = false →
    wellFormed s.build i = true → s.host.pending = issueEvents s.build polls (encode i) ++ es →
    ∃ t u, exec i s = .next t ∧ Host.Core.run Sys2Proof.core (polls + 4) s = .next u ∧
      u.ctxs = t.ctxs ∧ u.mem = t.mem ∧ u.result = t.result ∧ u.status = t.status ∧ u.busy = false ∧
      u.arg = (encode i).extractLsb' 32 32 ∧ u.host.response = some (.data u.statusWord) ∧
      u.host.pending = es ∧ u.host.cmdIndex = s.host.cmdIndex + 1
end

