-- ==== Sys2Proof/Laws/State.lean ====
section
/-! SUPPORT. One lemma per field per update of the state, true by rfl, so that no later proof unfolds a record update; then the same for contexts, STATUS and accessors. -/

namespace Sys2Proof.Machine

/-! ## setCtx -/

@[simp] theorem State.setCtx_build (s : State) (c : CtxId) (X : Context) : (s.setCtx c X).build = s.build := rfl
@[simp] theorem State.setCtx_arg (s : State) (c : CtxId) (X : Context) : (s.setCtx c X).arg = s.arg := rfl
@[simp] theorem State.setCtx_status (s : State) (c : CtxId) (X : Context) : (s.setCtx c X).status = s.status := rfl
@[simp] theorem State.setCtx_result (s : State) (c : CtxId) (X : Context) : (s.setCtx c X).result = s.result := rfl
@[simp] theorem State.setCtx_mem (s : State) (c : CtxId) (X : Context) : (s.setCtx c X).mem = s.mem := rfl
@[simp] theorem State.setCtx_inFlight (s : State) (c : CtxId) (X : Context) : (s.setCtx c X).inFlight = s.inFlight := rfl
@[simp] theorem State.setCtx_inReset (s : State) (c : CtxId) (X : Context) : (s.setCtx c X).inReset = s.inReset := rfl
@[simp] theorem State.setCtx_powerOns (s : State) (c : CtxId) (X : Context) : (s.setCtx c X).powerOns = s.powerOns := rfl
@[simp] theorem State.setCtx_host (s : State) (c : CtxId) (X : Context) : (s.setCtx c X).host = s.host := rfl
@[simp] theorem State.setCtx_ctxs (s : State) (c : CtxId) (X : Context) : (s.setCtx c X).ctxs = s.ctxs.set c.toNat X c.isLt := rfl

/-! ## setResult -/

@[simp] theorem State.setResult_build (s : State) (v : Reg) : (s.setResult v).build = s.build := rfl
@[simp] theorem State.setResult_ctxs (s : State) (v : Reg) : (s.setResult v).ctxs = s.ctxs := rfl
@[simp] theorem State.setResult_arg (s : State) (v : Reg) : (s.setResult v).arg = s.arg := rfl
@[simp] theorem State.setResult_status (s : State) (v : Reg) : (s.setResult v).status = s.status := rfl
@[simp] theorem State.setResult_mem (s : State) (v : Reg) : (s.setResult v).mem = s.mem := rfl
@[simp] theorem State.setResult_inFlight (s : State) (v : Reg) : (s.setResult v).inFlight = s.inFlight := rfl
@[simp] theorem State.setResult_inReset (s : State) (v : Reg) : (s.setResult v).inReset = s.inReset := rfl
@[simp] theorem State.setResult_powerOns (s : State) (v : Reg) : (s.setResult v).powerOns = s.powerOns := rfl
@[simp] theorem State.setResult_host (s : State) (v : Reg) : (s.setResult v).host = s.host := rfl
@[simp] theorem State.setResult_result (s : State) (v : Reg) : (s.setResult v).result = v := rfl

/-! ## memWrite -/

@[simp] theorem State.memWrite_build (s : State) (a : Nat) (v : List Byte) : (s.memWrite a v).build = s.build := rfl
@[simp] theorem State.memWrite_ctxs (s : State) (a : Nat) (v : List Byte) : (s.memWrite a v).ctxs = s.ctxs := rfl
@[simp] theorem State.memWrite_arg (s : State) (a : Nat) (v : List Byte) : (s.memWrite a v).arg = s.arg := rfl
@[simp] theorem State.memWrite_status (s : State) (a : Nat) (v : List Byte) : (s.memWrite a v).status = s.status := rfl
@[simp] theorem State.memWrite_result (s : State) (a : Nat) (v : List Byte) : (s.memWrite a v).result = s.result := rfl
@[simp] theorem State.memWrite_inFlight (s : State) (a : Nat) (v : List Byte) : (s.memWrite a v).inFlight = s.inFlight := rfl
@[simp] theorem State.memWrite_inReset (s : State) (a : Nat) (v : List Byte) : (s.memWrite a v).inReset = s.inReset := rfl
@[simp] theorem State.memWrite_powerOns (s : State) (a : Nat) (v : List Byte) : (s.memWrite a v).powerOns = s.powerOns := rfl
@[simp] theorem State.memWrite_host (s : State) (a : Nat) (v : List Byte) : (s.memWrite a v).host = s.host := rfl
@[simp] theorem State.memWrite_mem (s : State) (a : Nat) (v : List Byte) : (s.memWrite a v).mem = s.mem.writeBytes a v := rfl

/-! ## finish -/

@[simp] theorem State.finish_build (s : State) (op : Byte) (c : CtxId) (e : Option ErrKind) : (s.finish op c e).build = s.build := rfl
@[simp] theorem State.finish_ctxs (s : State) (op : Byte) (c : CtxId) (e : Option ErrKind) : (s.finish op c e).ctxs = s.ctxs := rfl
@[simp] theorem State.finish_arg (s : State) (op : Byte) (c : CtxId) (e : Option ErrKind) : (s.finish op c e).arg = s.arg := rfl
@[simp] theorem State.finish_result (s : State) (op : Byte) (c : CtxId) (e : Option ErrKind) : (s.finish op c e).result = s.result := rfl
@[simp] theorem State.finish_mem (s : State) (op : Byte) (c : CtxId) (e : Option ErrKind) : (s.finish op c e).mem = s.mem := rfl
@[simp] theorem State.finish_inReset (s : State) (op : Byte) (c : CtxId) (e : Option ErrKind) : (s.finish op c e).inReset = s.inReset := rfl
@[simp] theorem State.finish_powerOns (s : State) (op : Byte) (c : CtxId) (e : Option ErrKind) : (s.finish op c e).powerOns = s.powerOns := rfl
@[simp] theorem State.finish_host (s : State) (op : Byte) (c : CtxId) (e : Option ErrKind) : (s.finish op c e).host = s.host := rfl
@[simp] theorem State.finish_status (s : State) (op : Byte) (c : CtxId) (e : Option ErrKind) : (s.finish op c e).status = s.status.finish op c e := rfl
@[simp] theorem State.finish_inFlight (s : State) (op : Byte) (c : CtxId) (e : Option ErrKind) : (s.finish op c e).inFlight = none := rfl

/-! ## respond -/

@[simp] theorem State.respond_build (s : State) (r : BusResponse) : (s.respond r).build = s.build := rfl
@[simp] theorem State.respond_ctxs (s : State) (r : BusResponse) : (s.respond r).ctxs = s.ctxs := rfl
@[simp] theorem State.respond_arg (s : State) (r : BusResponse) : (s.respond r).arg = s.arg := rfl
@[simp] theorem State.respond_status (s : State) (r : BusResponse) : (s.respond r).status = s.status := rfl
@[simp] theorem State.respond_result (s : State) (r : BusResponse) : (s.respond r).result = s.result := rfl
@[simp] theorem State.respond_mem (s : State) (r : BusResponse) : (s.respond r).mem = s.mem := rfl
@[simp] theorem State.respond_inFlight (s : State) (r : BusResponse) : (s.respond r).inFlight = s.inFlight := rfl
@[simp] theorem State.respond_inReset (s : State) (r : BusResponse) : (s.respond r).inReset = s.inReset := rfl
@[simp] theorem State.respond_powerOns (s : State) (r : BusResponse) : (s.respond r).powerOns = s.powerOns := rfl

@[simp] theorem State.respond_pending (s : State) (r : BusResponse) : (s.respond r).host.pending = s.host.pending := rfl
@[simp] theorem State.respond_response (s : State) (r : BusResponse) : (s.respond r).host.response = some r := rfl
@[simp] theorem State.respond_cmdIndex (s : State) (r : BusResponse) : (s.respond r).host.cmdIndex = s.host.cmdIndex := rfl

/-! ## popEvent -/

@[simp] theorem State.popEvent_build (s : State) : (s.popEvent).build = s.build := rfl
@[simp] theorem State.popEvent_ctxs (s : State) : (s.popEvent).ctxs = s.ctxs := rfl
@[simp] theorem State.popEvent_arg (s : State) : (s.popEvent).arg = s.arg := rfl
@[simp] theorem State.popEvent_status (s : State) : (s.popEvent).status = s.status := rfl
@[simp] theorem State.popEvent_result (s : State) : (s.popEvent).result = s.result := rfl
@[simp] theorem State.popEvent_mem (s : State) : (s.popEvent).mem = s.mem := rfl
@[simp] theorem State.popEvent_inFlight (s : State) : (s.popEvent).inFlight = s.inFlight := rfl
@[simp] theorem State.popEvent_inReset (s : State) : (s.popEvent).inReset = s.inReset := rfl
@[simp] theorem State.popEvent_powerOns (s : State) : (s.popEvent).powerOns = s.powerOns := rfl

@[simp] theorem State.popEvent_pending (s : State) : s.popEvent.host.pending = s.host.pending.tail := rfl
@[simp] theorem State.popEvent_response (s : State) : s.popEvent.host.response = s.host.response := rfl
@[simp] theorem State.popEvent_cmdIndex (s : State) : s.popEvent.host.cmdIndex = s.host.cmdIndex := rfl

/-! ## withWord -/

@[simp] theorem State.withWord_build (s : State) (w : CmdWord) : (s.withWord w).build = s.build := rfl
@[simp] theorem State.withWord_ctxs (s : State) (w : CmdWord) : (s.withWord w).ctxs = s.ctxs := rfl
@[simp] theorem State.withWord_status (s : State) (w : CmdWord) : (s.withWord w).status = s.status := rfl
@[simp] theorem State.withWord_result (s : State) (w : CmdWord) : (s.withWord w).result = s.result := rfl
@[simp] theorem State.withWord_mem (s : State) (w : CmdWord) : (s.withWord w).mem = s.mem := rfl
@[simp] theorem State.withWord_powerOns (s : State) (w : CmdWord) : (s.withWord w).powerOns = s.powerOns := rfl
@[simp] theorem State.withWord_arg (s : State) (w : CmdWord) : (s.withWord w).arg = w.extractLsb' 32 32 := rfl
@[simp] theorem State.withWord_inFlight (s : State) (w : CmdWord) : (s.withWord w).inFlight = some w := rfl
@[simp] theorem State.withWord_inReset (s : State) (w : CmdWord) : (s.withWord w).inReset = false := rfl

@[simp] theorem State.withWord_pending (s : State) (w : CmdWord) : (s.withWord w).host.pending = .core :: s.host.pending := rfl

/-! ## Reads through a finished, answered or popped state -/

@[simp] theorem State.finish_ctx (s : State) (op : Byte) (c : CtxId) (e : Option ErrKind) (d : CtxId) : (s.finish op c e).ctx d = s.ctx d := rfl
@[simp] theorem State.respond_ctx (s : State) (r : BusResponse) (d : CtxId) : (s.respond r).ctx d = s.ctx d := rfl
@[simp] theorem State.popEvent_ctx (s : State) (d : CtxId) : (s.popEvent).ctx d = s.ctx d := rfl
@[simp] theorem State.setResult_ctx (s : State) (v : Reg) (d : CtxId) : (s.setResult v).ctx d = s.ctx d := rfl
@[simp] theorem State.memWrite_ctx (s : State) (a : Nat) (v : List Byte) (d : CtxId) : (s.memWrite a v).ctx d = s.ctx d := rfl
@[simp] theorem State.withWord_ctx (s : State) (w : CmdWord) (d : CtxId) : (s.withWord w).ctx d = s.ctx d := rfl
@[simp] theorem State.finish_memByte (s : State) (op : Byte) (c : CtxId) (e : Option ErrKind) (i : Nat) : (s.finish op c e).memByte i = s.memByte i := rfl
@[simp] theorem State.finish_memRead (s : State) (op : Byte) (c : CtxId) (e : Option ErrKind) (i n : Nat) : (s.finish op c e).memRead i n = s.memRead i n := rfl
@[simp] theorem State.respond_memByte (s : State) (r : BusResponse) (i : Nat) : (s.respond r).memByte i = s.memByte i := rfl
@[simp] theorem State.respond_memRead (s : State) (r : BusResponse) (i n : Nat) : (s.respond r).memRead i n = s.memRead i n := rfl
@[simp] theorem State.popEvent_memByte (s : State) (i : Nat) : (s.popEvent).memByte i = s.memByte i := rfl
@[simp] theorem State.popEvent_memRead (s : State) (i n : Nat) : (s.popEvent).memRead i n = s.memRead i n := rfl
@[simp] theorem State.setResult_memByte (s : State) (v : Reg) (i : Nat) : (s.setResult v).memByte i = s.memByte i := rfl
@[simp] theorem State.setResult_memRead (s : State) (v : Reg) (i n : Nat) : (s.setResult v).memRead i n = s.memRead i n := rfl
@[simp] theorem State.setCtx_memByte (s : State) (c : CtxId) (X : Context) (i : Nat) : (s.setCtx c X).memByte i = s.memByte i := rfl
@[simp] theorem State.setCtx_memRead (s : State) (c : CtxId) (X : Context) (i n : Nat) : (s.setCtx c X).memRead i n = s.memRead i n := rfl
@[simp] theorem State.withWord_memByte (s : State) (w : CmdWord) (i : Nat) : (s.withWord w).memByte i = s.memByte i := rfl
@[simp] theorem State.withWord_memRead (s : State) (w : CmdWord) (i n : Nat) : (s.withWord w).memRead i n = s.memRead i n := rfl
@[simp] theorem State.finish_busy (s : State) (op : Byte) (c : CtxId) (e : Option ErrKind) : (s.finish op c e).busy = false := rfl

/-! ## STATUS -/

@[simp] theorem Status.finish_err (t : Status) (op : Byte) (c : CtxId) (e : Option ErrKind) : (t.finish op c e).err = e := rfl
@[simp] theorem Status.finish_lastOp (t : Status) (op : Byte) (c : CtxId) (e : Option ErrKind) : (t.finish op c e).lastOp = op := rfl
@[simp] theorem Status.finish_lastCtx (t : Status) (op : Byte) (c : CtxId) (e : Option ErrKind) : (t.finish op c e).lastCtx = c := rfl
@[simp] theorem Status.finish_ovr (t : Status) (op : Byte) (c : CtxId) (e : Option ErrKind) : (t.finish op c e).ovr = t.ovr := rfl
@[simp] theorem Status.finish_sticky (t : Status) (op : Byte) (c : CtxId) (e : Option ErrKind) :
    (t.finish op c e).sticky = (t.sticky || e.isSome) := rfl
@[simp] theorem Status.writeClear_err (t : Status) (v : Reg) : (t.writeClear v).err = t.err := rfl
@[simp] theorem Status.writeClear_lastOp (t : Status) (v : Reg) : (t.writeClear v).lastOp = t.lastOp := rfl
@[simp] theorem Status.writeClear_lastCtx (t : Status) (v : Reg) : (t.writeClear v).lastCtx = t.lastCtx := rfl
@[simp] theorem Status.writeClear_sticky (t : Status) (v : Reg) : (t.writeClear v).sticky = (t.sticky && !v.getLsbD 4) := rfl
@[simp] theorem Status.writeClear_ovr (t : Status) (v : Reg) : (t.writeClear v).ovr = (t.ovr && !v.getLsbD 5) := rfl
@[simp] theorem Status.setOvr_ovr (t : Status) : t.setOvr.ovr = true := rfl
@[simp] theorem Status.setOvr_err (t : Status) : t.setOvr.err = t.err := rfl
@[simp] theorem Status.setOvr_sticky (t : Status) : t.setOvr.sticky = t.sticky := rfl
@[simp] theorem Status.setOvr_lastOp (t : Status) : t.setOvr.lastOp = t.lastOp := rfl
@[simp] theorem Status.setOvr_lastCtx (t : Status) : t.setOvr.lastCtx = t.lastCtx := rfl

/-! ## Contexts -/

@[simp] theorem Context.cleared_valid (X : Context) : X.cleared.valid = X.valid := rfl
@[simp] theorem Context.cleared_cfg (X : Context) : X.cleared.cfg = X.cfg := rfl
@[simp] theorem Context.cleared_lanes (X : Context) : X.cleared.lanes = lanesZero := rfl
@[simp] theorem Context.cleared_queue (X : Context) : X.cleared.queue = queueZero := rfl
@[simp] theorem Context.cleared_biq (X : Context) : X.cleared.biq = 0 := rfl
@[simp] theorem Context.cleared_bas (X : Context) : X.cleared.bas = 0 := rfl
@[simp] theorem Context.cleared_phase (X : Context) : X.cleared.phase = .absorbing := rfl
@[simp] theorem Context.absorbBlock_valid (X : Context) : X.absorbBlock.valid = X.valid := rfl
@[simp] theorem Context.absorbBlock_cfg (X : Context) : X.absorbBlock.cfg = X.cfg := rfl
@[simp] theorem Context.absorbBlock_queue (X : Context) : X.absorbBlock.queue = queueZero := rfl
@[simp] theorem Context.absorbBlock_biq (X : Context) : X.absorbBlock.biq = 0 := rfl
@[simp] theorem Context.absorbBlock_bas (X : Context) : X.absorbBlock.bas = X.bas := rfl
@[simp] theorem Context.absorbBlock_phase (X : Context) : X.absorbBlock.phase = X.phase := rfl
@[simp] theorem Context.absorbBlock_lanes (X : Context) :
    X.absorbBlock.lanes = keccakF (xorQueue X.lanes X.queue (X.cfg.rate / 8)) := rfl
@[simp] theorem Context.extract_valid (X : Context) : X.extract.valid = X.valid := rfl
@[simp] theorem Context.extract_cfg (X : Context) : X.extract.cfg = X.cfg := rfl
@[simp] theorem Context.extract_lanes (X : Context) : X.extract.lanes = X.lanes := rfl
@[simp] theorem Context.extract_biq (X : Context) : X.extract.biq = X.biq := rfl
@[simp] theorem Context.extract_phase (X : Context) : X.extract.phase = X.phase := rfl

end Sys2Proof.Machine
end

