-- ==== Sys2Proof/Laws/Memory.lean ====
section
/-! SUPPORT. The buffer memory as a list: read after write, the canonical form every operation keeps, and that equal contents are equal lists (spec/20_memory.md R64, R65, R69). -/

namespace Sys2Proof.Machine

@[simp] theorem Memory.read?_nil (a : Nat) : Memory.read? [] a = none := rfl

theorem Memory.read?_cons (e : Host.Cell) (m : Memory) (a : Nat) :
    Memory.read? (e :: m) a = if e.1 = a then some e.2 else Memory.read? m a := rfl

@[simp] theorem Memory.read?_write_same (m : Memory) (a : Nat) (v : Byte) :
    (Memory.write m a v).read? a = some v := by
  induction m with
  | nil => simp [Memory.write, Memory.read?]
  | cons e m ih =>
    simp only [Memory.write]
    split
    · simp [Memory.read?]
    · split
      · simp [Memory.read?]
      · rename_i h1 h2
        rw [Memory.read?_cons, if_neg (fun h => h2 h.symm), ih]

theorem Memory.read?_write_other (m : Memory) {a b : Nat} (v : Byte) (h : b ≠ a) :
    (Memory.write m a v).read? b = m.read? b := by
  induction m with
  | nil => simp [Memory.write, Memory.read?, Ne.symm h]
  | cons e m ih =>
    simp only [Memory.write]
    split
    · simp [Memory.read?, Ne.symm h]
    · split
      · rename_i h1 h2
        rw [Memory.read?_cons, Memory.read?_cons, if_neg (Ne.symm h), if_neg (fun h' => h (by omega))]
      · rw [Memory.read?_cons, Memory.read?_cons, ih]

theorem Memory.read?_write (m : Memory) (a b : Nat) (v : Byte) :
    (Memory.write m a v).read? b = if b = a then some v else m.read? b := by
  split
  · next h => rw [h, Memory.read?_write_same]
  · next h => exact Memory.read?_write_other m v h

/-- Where a MemWrite lands, and that it changes nothing else. -/
theorem Memory.read?_writeBytes (vs : List Byte) :
    ∀ (m : Memory) (a b : Nat), (Memory.writeBytes m a vs).read? b =
      if a ≤ b ∧ b < a + vs.length then some (vs.getD (b - a) 0) else m.read? b := by
  induction vs with
  | nil =>
    intro m a b
    rw [if_neg (by simp only [List.length_nil]; omega)]
    rfl
  | cons v vs ih =>
    intro m a b
    rw [Memory.writeBytes, ih, Memory.read?_write]
    simp only [List.length_cons]
    by_cases h : b = a
    · subst h
      rw [if_neg (by omega), if_pos rfl, if_pos (by omega)]
      simp
    · by_cases h1 : a + 1 ≤ b ∧ b < a + 1 + vs.length
      · rw [if_pos h1, if_pos (by omega)]
        obtain ⟨k, rfl⟩ : ∃ k, b = a + 1 + k := ⟨b - (a + 1), by omega⟩
        have e1 : a + 1 + k - a = k + 1 := by omega
        have e2 : a + 1 + k - (a + 1) = k := by omega
        rw [e1, e2]
        simp
      · rw [if_neg h1, if_neg h, if_neg (by omega)]

/-! ## The canonical form -/

theorem Memory.mem_write (m : Memory) (a : Nat) (v : Byte) (e : Host.Cell) (h : e ∈ Memory.write m a v) :
    e = (a, v) ∨ e ∈ m := by
  induction m with
  | nil => simpa [Memory.write] using h
  | cons f m ih =>
    simp only [Memory.write] at h
    split at h
    · simpa using h
    · split at h
      · simp only [List.mem_cons] at h ⊢
        tauto
      · simp only [List.mem_cons] at h ⊢
        rcases h with h | h
        · exact .inr (.inl h)
        · rcases ih h with h | h
          · exact .inl h
          · exact .inr (.inr h)

theorem Memory.wf_nil : Memory.wf [] := List.Pairwise.nil

theorem Memory.wf_write {m : Memory} (hm : m.wf) (a : Nat) (v : Byte) : (Memory.write m a v).wf := by
  induction m with
  | nil => simp [Memory.write, Memory.wf]
  | cons e m ih =>
    have hm' := List.pairwise_cons.1 hm
    simp only [Memory.write]
    split
    · next h =>
      refine List.pairwise_cons.2 ⟨fun f hf => ?_, hm⟩
      rcases List.mem_cons.1 hf with rfl | hf
      · exact h
      · exact lt_trans h (hm'.1 f hf)
    · split
      · next h => exact List.pairwise_cons.2 ⟨fun f hf => h ▸ hm'.1 f hf, hm'.2⟩
      · next h1 h2 =>
        refine List.pairwise_cons.2 ⟨fun f hf => ?_, ih hm'.2⟩
        rcases Memory.mem_write m a v f hf with rfl | hf
        · show e.1 < a
          omega
        · exact hm'.1 f hf

theorem Memory.wf_writeBytes (vs : List Byte) : ∀ {m : Memory} (a : Nat), m.wf → (Memory.writeBytes m a vs).wf := by
  induction vs with
  | nil => exact fun a hm => hm
  | cons v vs ih => exact fun a hm => ih (a + 1) (Memory.wf_write hm a v)

theorem Memory.below_write {m : Memory} {n a : Nat} (hm : m.below n) (ha : a < n) (v : Byte) :
    (Memory.write m a v).below n := fun e he => by
  rcases Memory.mem_write m a v e he with rfl | he
  · exact ha
  · exact hm e he

theorem Memory.below_writeBytes (vs : List Byte) :
    ∀ {m : Memory} {n a : Nat}, m.below n → a + vs.length ≤ n → (Memory.writeBytes m a vs).below n := by
  induction vs with
  | nil => exact fun hm _ => hm
  | cons v vs ih =>
    intro m n a hm ha
    simp only [List.length_cons] at ha
    exact ih (Memory.below_write hm (by omega) v) (by omega)

theorem Memory.read?_eq_none_of_lt {m : Memory} {a : Nat} (h : ∀ e ∈ m, a < e.1) : m.read? a = none := by
  induction m with
  | nil => rfl
  | cons e m ih =>
    rw [Memory.read?_cons, if_neg (by have := h e (by simp); omega)]
    exact ih fun f hf => h f (List.mem_cons_of_mem _ hf)

/-- Memories in canonical form with equal contents are equal. -/
theorem Memory.eq_of_read? : ∀ {m n : Memory}, m.wf → n.wf → (∀ a, m.read? a = n.read? a) → m = n
  | [], [], _, _, _ => rfl
  | [], e :: n, _, _, h => by
    have := h e.1
    simp [Memory.read?] at this
  | e :: m, [], _, _, h => by
    have := h e.1
    simp [Memory.read?] at this
  | e :: m, f :: n, hm, hn, h => by
    have hm' := List.pairwise_cons.1 hm
    have hn' := List.pairwise_cons.1 hn
    have hef : e.1 = f.1 := by
      by_contra hne
      rcases lt_or_gt_of_ne hne with hlt | hlt
      · have h1 := h e.1
        rw [Memory.read?_cons, if_pos rfl, Memory.read?_eq_none_of_lt (m := f :: n)] at h1
        · cases h1
        · intro g hg
          rcases List.mem_cons.1 hg with rfl | hg
          · exact hlt
          · exact lt_trans hlt (hn'.1 g hg)
      · have h1 := h f.1
        rw [Memory.read?_eq_none_of_lt (m := e :: m), Memory.read?_cons, if_pos rfl] at h1
        · cases h1
        · intro g hg
          rcases List.mem_cons.1 hg with rfl | hg
          · exact hlt
          · exact lt_trans hlt (hm'.1 g hg)
    have hv : e.2 = f.2 := by
      have h1 := h e.1
      rw [Memory.read?_cons, if_pos rfl, Memory.read?_cons, if_pos hef.symm] at h1
      exact Option.some.inj h1
    have hefe : e = f := Prod.ext hef hv
    subst hefe
    refine congrArg (e :: ·) (Memory.eq_of_read? hm'.2 hn'.2 fun a => ?_)
    have h1 := h a
    rw [Memory.read?_cons, Memory.read?_cons] at h1
    by_cases ha : e.1 = a
    · rw [Memory.read?_eq_none_of_lt (fun g hg => ha ▸ hm'.1 g hg),
        Memory.read?_eq_none_of_lt (fun g hg => ha ▸ hn'.1 g hg)]
    · simpa [ha] using h1

/-! ## Through the state -/

theorem State.memByte_eq (s : State) (a : Nat) :
    s.memByte a = (s.mem.read? a).getD (Config.powerOnByte s.powerOns a) := rfl

/-- One byte after a MemWrite. -/
theorem State.memByte_memWrite (s : State) (a : Nat) (vs : List Byte) (b : Nat) :
    (s.memWrite a vs).memByte b =
      if a ≤ b ∧ b < a + vs.length then vs.getD (b - a) 0 else s.memByte b := by
  simp only [State.memByte_eq, State.memWrite_mem, State.memWrite_powerOns, Memory.read?_writeBytes]
  split <;> rfl

theorem State.memByte_memWrite_at (s : State) (a : Nat) (vs : List Byte) {i : Nat} (h : i < vs.length) :
    (s.memWrite a vs).memByte (a + i) = vs.getD i 0 := by
  rw [State.memByte_memWrite, if_pos (by omega), Nat.add_sub_cancel_left]

theorem State.memByte_memWrite_outside (s : State) (a : Nat) (vs : List Byte) {b : Nat}
    (h : b < a ∨ a + vs.length ≤ b) : (s.memWrite a vs).memByte b = s.memByte b := by
  rw [State.memByte_memWrite, if_neg (by omega)]

@[simp] theorem State.length_memRead (s : State) (a n : Nat) : (s.memRead a n).length = n := by
  simp [State.memRead]

theorem State.getD_memRead (s : State) (a : Nat) {n i : Nat} (h : i < n) :
    (s.memRead a n).getD i 0 = s.memByte (a + i) := by
  simp [State.memRead, h]

theorem State.memRead_add (s : State) (a n k : Nat) :
    s.memRead a (n + k) = s.memRead a n ++ s.memRead (a + n) k := by
  simp [State.memRead, List.range_add, Nat.add_assoc]

theorem State.memRead_succ (s : State) (a n : Nat) :
    s.memRead a (n + 1) = s.memByte a :: s.memRead (a + 1) n := by
  rw [Nat.add_comm, State.memRead_add]
  simp [State.memRead]

end Sys2Proof.Machine
end

