-- ==== Sys2Proof/Laws/Bus.lean ====
section
/-! SUPPORT. The size of the buffer memory, the little-endian values, the accesses of the window by region, and the step by its event. -/

namespace Sys2Proof.Machine

/-- MEMSZ is a power of two from 256 to 65536 (R10). -/
theorem memsz_bounds {b : Build} (h : b.Legal) : 256 ≤ b.memsz ∧ b.memsz ≤ 65536 ∧ b.memsz % 4 = 0 := by
  have h := h.2.1
  have low : 2 ^ 8 ≤ 2 ^ b.memLog := Nat.pow_le_pow_right (by omega) h.1
  have high : 2 ^ b.memLog ≤ 2 ^ 16 := Nat.pow_le_pow_right (by omega) h.2
  obtain ⟨k, hk⟩ := Nat.exists_eq_add_of_le (show 2 ≤ b.memLog by omega)
  have split : 2 ^ b.memLog = 4 * 2 ^ k := by rw [hk, Nat.pow_add]
  unfold Build.memsz
  omega

/-! ## Little-endian values (R69) -/

@[simp] theorem length_leBytes (n : Nat) : ∀ v, (leBytes n v).length = n := by
  induction n with
  | zero => intro _; rfl
  | succ n ih => intro v; simp [leBytes, ih]

theorem pow_byte_succ (k : Nat) : 2 ^ (8 * (k + 1)) = 256 * 2 ^ (8 * k) := by
  rw [Nat.mul_add, Nat.pow_add]
  omega

/-- Byte k of the bytes of v. -/
theorem getD_leBytes (n : Nat) : ∀ (v k : Nat), k < n → (leBytes n v).getD k 0 = BitVec.ofNat 8 (v / 2 ^ (8 * k)) := by
  induction n with
  | zero => intro v k h; omega
  | succ n ih =>
    intro v k h
    cases k with
    | zero => simp [leBytes]
    | succ k => rw [leBytes, List.getD_cons_succ, ih _ _ (by omega), Nat.div_div_eq_div_mul, pow_byte_succ]

theorem leWord_lt (l : List Byte) : leWord l < 2 ^ (8 * l.length) := by
  induction l with
  | nil => simp [leWord]
  | cons b l ih =>
    have := b.isLt
    rw [leWord, List.length_cons, pow_byte_succ]
    omega

/-- Byte k of a value is byte k of the list it was made from. -/
theorem byte_leWord (l : List Byte) : ∀ k, k < l.length → BitVec.ofNat 8 (leWord l / 2 ^ (8 * k)) = l.getD k 0 := by
  induction l with
  | nil => intro k h; simp at h
  | cons b l ih =>
    have hb := b.isLt
    intro k hk
    cases k with
    | zero =>
      apply BitVec.eq_of_toNat_eq
      rw [BitVec.toNat_ofNat, Nat.mul_zero, Nat.pow_zero, Nat.div_one, leWord, List.getD_cons_zero]
      omega
    | succ k =>
      rw [pow_byte_succ, ← Nat.div_div_eq_div_mul, leWord, show (b.toNat + 256 * leWord l) / 256 = leWord l by omega,
        ih k (by simpa using hk), List.getD_cons_succ]

theorem Width.bytes_cases (w : Width) : w.bytes = 1 ∨ w.bytes = 2 ∨ w.bytes = 4 := by cases w <;> decide

/-! ## Accesses (R66, R68) -/

theorem regionOf_registers (b : Build) {off : Nat} : regionOf b off = .registers ↔ off < 0x1000 := by
  unfold regionOf
  split_ifs <;> simp [*]

theorem regionOf_buffer (b : Build) {off : Nat} : regionOf b off = .buffer ↔ 0x10000 ≤ off ∧ off < 0x10000 + b.memsz := by
  unfold regionOf
  split_ifs with h1 h2
  · simp
    omega
  · simp [h2]
  · simp
    omega

/-- An access of the window that its region accepts is performed. -/
theorem hostAccess_allowed {s : State} {a : BusAccess} {off : Nat} (hr : s.inReset = false)
    (ha : a.addr = s.build.base + off) (hoff : off < 0x20000) (hal : off % a.width.bytes = 0)
    (hw : off < 0x1000 → a.width = .word) : hostAccess a s = s.access a off := by
  have e : a.addr - s.build.base = off := by omega
  unfold hostAccess
  rw [if_neg, if_neg, if_pos, e]
  · rw [e]
    exact ⟨hal, fun h => hw ((regionOf_registers _).1 h)⟩
  · simp [hr]
  · simp only [inWindow, Config.windowBytes, not_not]
    omega

/-- A 32-bit read of the register block. -/
theorem hostAccess_regRead {s : State} {off : Nat} (hr : s.inReset = false) (h : off < 0x1000) (h4 : off % 4 = 0) :
    hostAccess (.read .word (s.build.base + off)) s = .next (s.respond (.data (s.regRead off))) := by
  rw [hostAccess_allowed (a := .read .word (s.build.base + off)) (off := off) hr rfl (by omega) h4 fun _ => rfl]
  unfold State.access
  rw [(regionOf_registers _).2 h]

/-- A 32-bit write of the register block. -/
theorem hostAccess_regWrite {s : State} {off : Nat} {v : Reg} (hr : s.inReset = false) (h : off < 0x1000)
    (h4 : off % 4 = 0) :
    hostAccess (.write .word (s.build.base + off) v) s = .next ((s.regWrite off v).respond .ack) := by
  rw [hostAccess_allowed (a := .write .word (s.build.base + off) v) (off := off) hr rfl (by omega) h4 fun _ => rfl]
  unfold State.access
  rw [(regionOf_registers _).2 h]

/-! ## The step by its event (R314) -/

theorem step_nil {s : State} (h : s.host.pending = []) : step s = coreTurn s := by
  rw [step, stepEvent, h]

theorem step_cons {s : State} {e : Event} {es : List Event} (h : s.host.pending = e :: es) :
    step s = handle e { s with host := { s.host with pending := es } } := by
  rw [step, stepEvent, h]
  show handle e s.popEvent = _
  rw [State.popEvent, h]
  rfl

theorem coreTurn_inFlight {s : State} {w : CmdWord} (h : s.inFlight = some w) : coreTurn s = runWord w s := by
  rw [coreTurn, h]

theorem coreTurn_idle {s : State} (h : s.inFlight = none) : coreTurn s = .next s := by
  rw [coreTurn, h]

theorem runWord_ok {w : CmdWord} {s : State} {i : Instr} (h : decode s.build w = .ok i) : runWord w s = exec i s := by
  rw [runWord, h]

theorem runWord_error {w : CmdWord} {s : State} {e : DecodeError} (h : decode s.build w = .error e) :
    runWord w s = rejectWord w s := by
  rw [runWord, h]

end Sys2Proof.Machine
end

