-- ==== Sys2Proof/Laws/Keccak.lean ====
section
/-! SUPPORT. Lanes read after each step mapping, lane files equal lane by lane, and the rotation bit by bit (spec/40_permutation.md R121, R124 to R128; spec/00_scope.md R12). -/

namespace Sys2Proof.Machine

/-! ## Lane files -/

theorem laneK_eq_getElem (A : Lanes) {k : Nat} (h : k < 25) : laneK A k = A[k] := by
  simp [laneK, h]

theorem laneK_out (A : Lanes) {k : Nat} (h : 25 ≤ k) : laneK A k = 0 := by
  simp [laneK, h]

@[simp] theorem laneK_lanesOf (f : Nat → Lane) {k : Nat} (h : k < 25) : laneK (lanesOf f) k = f k := by
  rw [laneK_eq_getElem _ h]
  simp [lanesOf]

theorem lanes_ext {A B : Lanes} (h : ∀ k, k < 25 → laneK A k = laneK B k) : A = B := by
  apply Vector.ext
  intro k hk
  rw [← laneK_eq_getElem A hk, ← laneK_eq_getElem B hk, h k hk]

theorem lane_index_lt (x y : Nat) : x % 5 + 5 * (y % 5) < 25 := by omega

theorem lane_eq_laneK (A : Lanes) {x y : Nat} (hx : x < 5) (hy : y < 5) : lane A x y = laneK A (x + 5 * y) := by
  rw [lane, Nat.mod_eq_of_lt hx, Nat.mod_eq_of_lt hy]

theorem laneK_eq_lane (A : Lanes) {k : Nat} (h : k < 25) : laneK A k = lane A (k % 5) (k / 5) := by
  rw [lane]
  congr 1
  omega

theorem lanes_ext_lane {A B : Lanes} (h : ∀ x y, x < 5 → y < 5 → lane A x y = lane B x y) : A = B :=
  lanes_ext fun k hk => by
    rw [laneK_eq_lane A hk, laneK_eq_lane B hk]
    exact h _ _ (by omega) (by omega)

/-- Lane indices count mod 5 (R121). -/
theorem lane_mod (A : Lanes) (x y : Nat) : lane A (x % 5) (y % 5) = lane A x y := by
  simp only [lane, Nat.mod_mod]

theorem lane_congr (A : Lanes) {x x' y y' : Nat} (hx : x % 5 = x' % 5) (hy : y % 5 = y' % 5) :
    lane A x y = lane A x' y' := by
  simp only [lane, hx, hy]

@[simp] theorem lane_lanesXY (f : Nat → Nat → Lane) (x y : Nat) :
    lane (lanesXY f) x y = f (x % 5) (y % 5) := by
  rw [lane, lanesXY, laneK_lanesOf _ (lane_index_lt x y)]
  congr 1 <;> omega

@[simp] theorem laneK_lanesZero (k : Nat) : laneK lanesZero k = 0 := by
  by_cases h : k < 25
  · rw [laneK_eq_getElem _ h]
    simp [lanesZero]
  · exact laneK_out _ (by omega)

@[simp] theorem lane_lanesZero (x y : Nat) : lane lanesZero x y = 0 := laneK_lanesZero _

/-! ## The step mappings, lane by lane -/

theorem columnParity_mod (A : Lanes) (x : Nat) : columnParity A (x % 5) = columnParity A x := by
  simp only [columnParity, lane, Nat.mod_mod]

theorem columnParity_congr (A : Lanes) {x x' : Nat} (h : x % 5 = x' % 5) : columnParity A x = columnParity A x' := by
  rw [← columnParity_mod A x, h, columnParity_mod]

theorem thetaD_congr (A : Lanes) {x x' : Nat} (h : x % 5 = x' % 5) : thetaD A x = thetaD A x' := by
  rw [thetaD, thetaD, columnParity_congr A (show (x + 4) % 5 = (x' + 4) % 5 by omega),
    columnParity_congr A (show (x + 1) % 5 = (x' + 1) % 5 by omega)]

/-- theta (R124). -/
theorem lane_theta (A : Lanes) (x y : Nat) : lane (theta A) x y = lane A x y ^^^ thetaD A x := by
  rw [theta, lane_lanesXY, lane_mod, thetaD_congr A (Nat.mod_mod x 5)]

/-- rho (R125). -/
theorem lane_rho (A : Lanes) (x y : Nat) : lane (rho A) x y = rotl (lane A x y) (rhoOffset x y) := by
  rw [rho, lane_lanesXY, lane_mod]
  simp only [rhoOffset, Nat.mod_mod]

/-- pi in its second form (R126). -/
theorem lane_pi (A : Lanes) (X Y : Nat) : lane (pi A) X Y = lane A (X + 3 * Y) X := by
  rw [pi, lane_lanesXY]
  exact lane_congr A (by omega) (by omega)

/-- pi in its first form: lane (x, y) moves to (y, 2x + 3y) (R126). -/
theorem lane_pi_moves (A : Lanes) (x y : Nat) : lane (pi A) y (2 * x + 3 * y) = lane A x y := by
  rw [lane_pi]
  exact lane_congr A (by omega) rfl

/-- chi (R127). -/
theorem lane_chi (A : Lanes) (x y : Nat) :
    lane (chi A) x y = lane A x y ^^^ (~~~ (lane A (x + 1) y) &&& lane A (x + 2) y) := by
  rw [chi, lane_lanesXY, lane_mod, lane_congr A (x := x % 5 + 1) (x' := x + 1) (y' := y) (by omega) (by omega),
    lane_congr A (x := x % 5 + 2) (x' := x + 2) (y' := y) (by omega) (by omega)]

/-- iota (R128). -/
theorem laneK_iota (A : Lanes) (i : Nat) {k : Nat} (h : k < 25) :
    laneK (iota A i) k = if k = 0 then laneK A 0 ^^^ roundConstant i else laneK A k := by
  rw [iota, laneK_lanesOf _ h]

theorem rnd_eq (A : Lanes) (i : Nat) : rnd A i = iota (chi (pi (rho (theta A)))) i := rfl

theorem keccakF_eq (A : Lanes) : keccakF A = (List.range 24).foldl rnd A := rfl

/-! ## Rotation (R12) -/

/-- Bit j of a rotated lane is the bit n places below it, round the end. -/
theorem getLsbD_rotl (v : Lane) (n : Nat) {j : Nat} (hj : j < 64) :
    (rotl v n).getLsbD j = v.getLsbD ((j + (64 - n % 64)) % 64) := by
  have hn : n % 64 < 64 := Nat.mod_lt _ (by omega)
  rw [rotl, BitVec.getLsbD_or, BitVec.getLsbD_shiftLeft, BitVec.getLsbD_ushiftRight]
  by_cases h : j < n % 64
  · have e : (j + (64 - n % 64)) % 64 = 64 - n % 64 + j := by omega
    rw [e]
    simp [h, hj]
  · have e : (j + (64 - n % 64)) % 64 = j - n % 64 := by omega
    have : v.getLsbD (64 - n % 64 + j) = false := BitVec.getLsbD_of_ge _ _ (by omega)
    rw [e, this]
    simp [h, hj]

@[simp] theorem rotl_zero (v : Lane) : rotl v 0 = v := by
  apply BitVec.eq_of_getLsbD_eq
  intro j hj
  rw [getLsbD_rotl v 0 hj]
  congr 1
  omega

theorem rotl_rotl (v : Lane) (m n : Nat) : rotl (rotl v m) n = rotl v (m + n) := by
  apply BitVec.eq_of_getLsbD_eq
  intro j hj
  rw [getLsbD_rotl _ n hj, getLsbD_rotl _ m (Nat.mod_lt _ (by omega)), getLsbD_rotl _ (m + n) hj]
  congr 1
  omega

theorem rotl_congr (v : Lane) {m n : Nat} (h : m % 64 = n % 64) : rotl v m = rotl v n := by
  rw [rotl, rotl, h]

theorem rotl_xor (v w : Lane) (n : Nat) : rotl (v ^^^ w) n = rotl v n ^^^ rotl w n := by
  apply BitVec.eq_of_getLsbD_eq
  intro j hj
  rw [BitVec.getLsbD_xor, getLsbD_rotl _ n hj, getLsbD_rotl _ n hj, getLsbD_rotl _ n hj, BitVec.getLsbD_xor]

/-- Rotating on to a full turn gives the lane back. -/
theorem rotl_back (v : Lane) (n : Nat) : rotl (rotl v n) (64 - n % 64) = v := by
  rw [rotl_rotl, rotl_congr v (n := 0) (by omega), rotl_zero]

theorem rotl_injective (n : Nat) : Function.Injective fun v => rotl v n := fun v w h => by
  rw [← rotl_back v n, ← rotl_back w n]
  exact congrArg (rotl · (64 - n % 64)) h

end Sys2Proof.Machine
end

