-- ==== Sys2Proof/Laws/Sponge.lean ====
section
/-! SUPPORT. The byte and bit views, and what each engine operation does to a context (spec/20_memory.md R61 to R63; spec/41_sponge_engine.md R150 to R159). -/

namespace Sys2Proof.Machine

/-! ## The queue, byte by byte and bit by bit (R28, R62) -/

theorem queueByte_eq_getElem (Q : Queue) {i : Nat} (h : i < 168) : queueByte Q i = Q[i] := by
  simp [queueByte, h]

theorem queueByte_out (Q : Queue) {i : Nat} (h : 168 ≤ i) : queueByte Q i = 0 := by
  simp [queueByte, h]

theorem queue_ext {P Q : Queue} (h : ∀ i, i < 168 → queueByte P i = queueByte Q i) : P = Q := by
  apply Vector.ext
  intro i hi
  rw [← queueByte_eq_getElem P hi, ← queueByte_eq_getElem Q hi, h i hi]

@[simp] theorem queueByte_queueZero (i : Nat) : queueByte queueZero i = 0 := by
  by_cases h : i < 168
  · rw [queueByte_eq_getElem _ h]
    simp [queueZero]
  · exact queueByte_out _ (by omega)

@[simp] theorem queueBit_queueZero (k : Nat) : queueBit queueZero k = false := by
  simp [queueBit]

theorem queueByte_queueSet (Q : Queue) {i : Nat} (hi : i < 168) (b : Byte) (j : Nat) :
    queueByte (queueSet Q i b) j = if j = i then b else queueByte Q j := by
  by_cases hj : j < 168
  · rw [queueByte_eq_getElem _ hj, queueByte_eq_getElem _ hj, queueSet]
    simp only [Vector.getElem_setIfInBounds]
    by_cases h : i = j
    · simp [h]
    · simp [h, Ne.symm h]
  · rw [queueByte_out _ (by omega), queueByte_out _ (by omega), if_neg (by omega)]

theorem queueBit_out (Q : Queue) {k : Nat} (h : 1344 ≤ k) : queueBit Q k = false := by
  rw [queueBit, queueByte_out _ (by omega)]
  simp

/-- Setting a queue bit sets that bit and no other. -/
theorem queueBit_queueSetBit (Q : Queue) {k : Nat} (hk : k < 1344) (j : Nat) :
    queueBit (queueSetBit Q k) j = (queueBit Q j || decide (j = k)) := by
  rw [queueBit, queueSetBit, queueByte_queueSet _ (by omega)]
  by_cases h : j / 8 = k / 8
  · rw [if_pos h, BitVec.getLsbD_or, BitVec.getLsbD_shiftLeft, queueBit, h]
    congr 1
    have h8 : j % 8 < 8 := Nat.mod_lt _ (by omega)
    by_cases hjk : j = k
    · subst hjk
      simp [h8]
    · simp only [decide_eq_false hjk, h8, decide_true, Bool.true_and]
      by_cases hlt : j % 8 < k % 8
      · simp [hlt]
      · have hne : j % 8 - k % 8 ≠ 0 := by omega
        simp [hlt, BitVec.getLsbD_one, hne]
  · rw [if_neg h, queueBit, decide_eq_false (fun hjk => h (by rw [hjk])), Bool.or_false]

/-- A queue byte is 0 exactly when its bits are. -/
theorem queueByte_eq_zero_iff (Q : Queue) (i : Nat) :
    queueByte Q i = 0 ↔ ∀ t, t < 8 → queueBit Q (8 * i + t) = false := by
  constructor
  · intro h t ht
    rw [queueBit, show (8 * i + t) / 8 = i by omega, h]
    simp
  · intro h
    apply BitVec.eq_of_getLsbD_eq
    intro t ht
    have := h t ht
    rw [queueBit, show (8 * i + t) / 8 = i by omega, show (8 * i + t) % 8 = t by omega] at this
    rw [this]
    simp

/-- From a byte boundary up, zero bits are zero bytes (R32 I2). -/
theorem queueBits_zero_iff (Q : Queue) {n : Nat} (hn : n % 8 = 0) :
    (∀ k, n ≤ k → queueBit Q k = false) ↔ ∀ i, n / 8 ≤ i → queueByte Q i = 0 := by
  constructor
  · intro h i hi
    rw [queueByte_eq_zero_iff]
    intro t _
    exact h _ (by omega)
  · intro h k hk
    rw [queueBit, h (k / 8) (by omega)]
    simp

/-! ## State bytes (R61) -/

theorem getLsbD_stateByte (A : Lanes) (i : Nat) {t : Nat} (ht : t < 8) :
    (stateByte A i).getLsbD t = (laneK A (i / 8)).getLsbD (8 * (i % 8) + t) := by
  simp [stateByte, ht]

/-- A lane file is its 200 state bytes. -/
theorem lanes_ext_byte {A B : Lanes} (h : ∀ i, i < 200 → stateByte A i = stateByte B i) : A = B := by
  apply lanes_ext
  intro k hk
  apply BitVec.eq_of_getLsbD_eq
  intro j hj
  have h1 := congrArg (fun b : Byte => b.getLsbD (j % 8)) (h (8 * k + j / 8) (by omega))
  simp only [getLsbD_stateByte _ _ (Nat.mod_lt j (by omega : 0 < 8))] at h1
  rw [show (8 * k + j / 8) / 8 = k by omega, show 8 * ((8 * k + j / 8) % 8) + j % 8 = j by omega] at h1
  exact h1

theorem laneK_stateByteXor (A : Lanes) {i : Nat} (hi : i < 200) (b : Byte) (k : Nat) :
    laneK (stateByteXor A i b) k =
      if k = i / 8 then laneK A k ^^^ ((b.setWidth 64) <<< (8 * (i % 8))) else laneK A k := by
  by_cases hk : k < 25
  · rw [laneK_eq_getElem _ hk, laneK_eq_getElem _ hk, stateByteXor, laneK_eq_getElem _ (by omega : i / 8 < 25)]
    simp only [Vector.getElem_setIfInBounds]
    by_cases h : i / 8 = k
    · simp [h]
    · simp [h, Ne.symm h]
  · rw [laneK_out _ (by omega), laneK_out _ (by omega), if_neg (by omega)]

/-- SBxor changes one state byte. -/
theorem stateByte_stateByteXor (A : Lanes) {i : Nat} (hi : i < 200) (b : Byte) (j : Nat) :
    stateByte (stateByteXor A i b) j = if j = i then stateByte A j ^^^ b else stateByte A j := by
  apply BitVec.eq_of_getLsbD_eq
  intro t ht
  rw [getLsbD_stateByte _ _ ht, laneK_stateByteXor A hi]
  by_cases hji : j = i
  · subst hji
    simp only [if_true, BitVec.getLsbD_xor, getLsbD_stateByte _ _ ht, BitVec.getLsbD_shiftLeft]
    rw [show 8 * (j % 8) + t - 8 * (j % 8) = t by omega]
    have h64 : 8 * (j % 8) + t < 64 := by omega
    have hle : ¬ (8 * (j % 8) + t < 8 * (j % 8)) := by omega
    simp only [h64, hle, decide_true, decide_false, Bool.not_false, Bool.true_and, BitVec.getLsbD_setWidth,
      show t < 64 by omega]
  · rw [if_neg hji, getLsbD_stateByte _ _ ht]
    split
    · next h =>
      rw [BitVec.getLsbD_xor, BitVec.getLsbD_shiftLeft]
      by_cases hlt : 8 * (j % 8) + t < 8 * (i % 8)
      · simp [hlt]
      · have hz : (BitVec.setWidth 64 b).getLsbD (8 * (j % 8) + t - 8 * (i % 8)) = false := by
          rw [BitVec.getLsbD_setWidth, BitVec.getLsbD_of_ge b _ (by omega), Bool.and_false]
        rw [hz, Bool.and_false, Bool.xor_false]
    · rfl

theorem xorQueue_succ (A : Lanes) (Q : Queue) (n : Nat) :
    xorQueue A Q (n + 1) = stateByteXor (xorQueue A Q n) n (queueByte Q n) := by
  simp [xorQueue, List.range_succ]

/-- The first n queue bytes go into the first n state bytes, and nothing else changes (R152). -/
theorem stateByte_xorQueue (A : Lanes) (Q : Queue) : ∀ {n : Nat}, n ≤ 200 → ∀ i,
    stateByte (xorQueue A Q n) i = if i < n then stateByte A i ^^^ queueByte Q i else stateByte A i
  | 0, _, i => by simp [xorQueue]
  | n + 1, h, i => by
    rw [xorQueue_succ, stateByte_stateByteXor _ (by omega), stateByte_xorQueue A Q (by omega)]
    by_cases hi : i = n
    · subst hi
      simp
    · rw [if_neg hi]
      by_cases hlt : i < n
      · rw [if_pos hlt, if_pos (by omega)]
      · rw [if_neg hlt, if_neg (by omega)]

/-- The capacity lanes receive no queue byte (R152). -/
theorem laneK_xorQueue_capacity (A : Lanes) (Q : Queue) : ∀ {n : Nat}, n ≤ 200 → ∀ {k : Nat}, n ≤ 8 * k →
    laneK (xorQueue A Q n) k = laneK A k
  | 0, _, _, _ => rfl
  | n + 1, h, k, hk => by
    rw [xorQueue_succ, laneK_stateByteXor _ (by omega), if_neg (by omega),
      laneK_xorQueue_capacity A Q (by omega) (by omega)]

/-! ## Init, and what no operation changes -/

theorem Context.init_ok (X : Context) {rate capacity : Nat} (h : rateLegal rate capacity) :
    X.init rate capacity = .ok { X.cleared with cfg := { X.cfg with rate := rate, capacity := capacity } } :=
  if_pos h

theorem Context.init_error (X : Context) {rate capacity : Nat} (h : ¬ rateLegal rate capacity) :
    X.init rate capacity = .error .configurationError := if_neg h

/-- Reset keeps the configuration and clears the rest (R159). -/
theorem Context.resetSponge_ok (X : Context) (h : rateLegal X.cfg.rate X.cfg.capacity) :
    X.resetSponge = .ok X.cleared := Context.init_ok X h

@[simp] theorem Context.absorbIfFull_valid (X : Context) : X.absorbIfFull.valid = X.valid := by
  rw [Context.absorbIfFull]; split <;> rfl

@[simp] theorem Context.absorbIfFull_cfg (X : Context) : X.absorbIfFull.cfg = X.cfg := by
  rw [Context.absorbIfFull]; split <;> rfl

@[simp] theorem Context.absorbIfFull_phase (X : Context) : X.absorbIfFull.phase = X.phase := by
  rw [Context.absorbIfFull]; split <;> rfl

@[simp] theorem Context.absorbIfFull_bas (X : Context) : X.absorbIfFull.bas = X.bas := by
  rw [Context.absorbIfFull]; split <;> rfl

@[simp] theorem Context.absorbByte_valid (X : Context) (b : Byte) : (X.absorbByte b).valid = X.valid :=
  Context.absorbIfFull_valid _

@[simp] theorem Context.absorbByte_cfg (X : Context) (b : Byte) : (X.absorbByte b).cfg = X.cfg :=
  Context.absorbIfFull_cfg _

@[simp] theorem Context.absorbByte_phase (X : Context) (b : Byte) : (X.absorbByte b).phase = X.phase :=
  Context.absorbIfFull_phase _

@[simp] theorem Context.absorbByte_bas (X : Context) (b : Byte) : (X.absorbByte b).bas = X.bas :=
  Context.absorbIfFull_bas _

/-- A byte that leaves the block incomplete is queued (R151). -/
theorem Context.absorbByte_partial (X : Context) (b : Byte) (h : X.biq + 8 ≠ X.cfg.rate) :
    X.absorbByte b = { X with queue := queueSet X.queue (X.biq / 8) b, biq := X.biq + 8 } := if_neg h

/-- The byte that completes a block runs AbsorbBlock (R151). -/
theorem Context.absorbByte_full (X : Context) (b : Byte) (h : X.biq + 8 = X.cfg.rate) :
    X.absorbByte b = { X with queue := queueSet X.queue (X.biq / 8) b, biq := X.biq + 8 }.absorbBlock := if_pos h

@[simp] theorem Context.absorbBytes_nil (X : Context) : X.absorbBytes [] = X := rfl

theorem Context.absorbBytes_cons (X : Context) (b : Byte) (bs : List Byte) :
    X.absorbBytes (b :: bs) = (X.absorbByte b).absorbBytes bs := rfl

/-- Absorbing is byte by byte, whatever the chunks (R164). -/
theorem Context.absorbBytes_append (X : Context) (bs cs : List Byte) :
    X.absorbBytes (bs ++ cs) = (X.absorbBytes bs).absorbBytes cs := List.foldl_append ..

@[simp] theorem Context.absorbBytes_valid (bs : List Byte) : ∀ X : Context, (X.absorbBytes bs).valid = X.valid := by
  induction bs with
  | nil => exact fun _ => rfl
  | cons b bs ih => intro X; rw [absorbBytes_cons, ih, absorbByte_valid]

@[simp] theorem Context.absorbBytes_cfg (bs : List Byte) : ∀ X : Context, (X.absorbBytes bs).cfg = X.cfg := by
  induction bs with
  | nil => exact fun _ => rfl
  | cons b bs ih => intro X; rw [absorbBytes_cons, ih, absorbByte_cfg]

@[simp] theorem Context.absorbBytes_phase (bs : List Byte) : ∀ X : Context, (X.absorbBytes bs).phase = X.phase := by
  induction bs with
  | nil => exact fun _ => rfl
  | cons b bs ih => intro X; rw [absorbBytes_cons, ih, absorbByte_phase]

@[simp] theorem Context.absorbBytes_bas (bs : List Byte) : ∀ X : Context, (X.absorbBytes bs).bas = X.bas := by
  induction bs with
  | nil => exact fun _ => rfl
  | cons b bs ih => intro X; rw [absorbBytes_cons, ih, absorbByte_bas]

@[simp] theorem Context.absorbBits_valid (X : Context) (v : Byte) (n : Nat) : (X.absorbBits v n).valid = X.valid := by
  rw [absorbBits]; split
  · rfl
  · exact absorbIfFull_valid _

@[simp] theorem Context.absorbBits_cfg (X : Context) (v : Byte) (n : Nat) : (X.absorbBits v n).cfg = X.cfg := by
  rw [absorbBits]; split
  · rfl
  · exact absorbIfFull_cfg _

@[simp] theorem Context.absorbBits_phase (X : Context) (v : Byte) (n : Nat) : (X.absorbBits v n).phase = X.phase := by
  rw [absorbBits]; split
  · rfl
  · exact absorbIfFull_phase _

@[simp] theorem Context.injectSuffix_valid (X : Context) : X.injectSuffix.valid = X.valid := by
  rw [injectSuffix]; split
  · exact absorbBits_valid ..
  · rfl

@[simp] theorem Context.injectSuffix_cfg (X : Context) : X.injectSuffix.cfg = X.cfg := by
  rw [injectSuffix]; split
  · exact absorbBits_cfg ..
  · rfl

@[simp] theorem Context.injectSuffix_phase (X : Context) : X.injectSuffix.phase = X.phase := by
  rw [injectSuffix]; split
  · exact absorbBits_phase ..
  · rfl

/-- On a Squeezing context the suffix injector does nothing (R158). -/
theorem Context.injectSuffix_squeezing (X : Context) (h : X.phase = .squeezing) : X.injectSuffix = X := by
  rw [injectSuffix, if_neg (by rw [h]; decide)]

@[simp] theorem Context.padded_valid (X : Context) : X.padded.valid = X.valid := by
  simp only [padded]; split <;> rfl

@[simp] theorem Context.padded_cfg (X : Context) : X.padded.cfg = X.cfg := by
  simp only [padded]; split <;> rfl

@[simp] theorem Context.padSwitch_valid (X : Context) : X.padSwitch.valid = X.valid := by
  rw [padSwitch, extract_valid]; exact padded_valid X

@[simp] theorem Context.padSwitch_cfg (X : Context) : X.padSwitch.cfg = X.cfg := by
  rw [padSwitch, extract_cfg]; exact padded_cfg X

@[simp] theorem Context.padSwitch_phase (X : Context) : X.padSwitch.phase = .squeezing := rfl

@[simp] theorem Context.padSwitch_biq (X : Context) : X.padSwitch.biq = 0 := rfl

@[simp] theorem Context.toSqueezing_valid (X : Context) : X.toSqueezing.valid = X.valid := by
  rw [toSqueezing]; split
  · exact padSwitch_valid X
  · rfl

@[simp] theorem Context.toSqueezing_cfg (X : Context) : X.toSqueezing.cfg = X.cfg := by
  rw [toSqueezing]; split
  · exact padSwitch_cfg X
  · rfl

@[simp] theorem Context.toSqueezing_phase (X : Context) : X.toSqueezing.phase = .squeezing := by
  rw [toSqueezing]; split
  · rfl
  · next h => cases hp : X.phase with
    | absorbing => exact absurd hp h
    | squeezing => rfl

theorem Context.toSqueezing_of_squeezing (X : Context) (h : X.phase = .squeezing) : X.toSqueezing = X := by
  rw [toSqueezing, if_neg (by rw [h]; decide)]

/-! ## Extract and refill (R155, R156) -/

/-- The path for rate = 1024 is the general one (R155). -/
theorem Context.extract_bas (X : Context) : X.extract.bas = X.cfg.rate := by
  simp only [extract]; split
  · next h => exact h.symm
  · rfl

theorem Context.queueByte_extract (X : Context) (i : Nat) :
    queueByte X.extract.queue i =
      if i < 168 ∧ i < X.cfg.rate / 8 then stateByte X.lanes i else queueByte X.queue i := by
  have hn : (if X.cfg.rate = 1024 then 128 else X.cfg.rate / 8) = X.cfg.rate / 8 := by
    split
    · next h => rw [h]
    · rfl
  by_cases h : i < 168
  · rw [queueByte_eq_getElem _ h]
    simp [extract, hn, h]
  · rw [queueByte_out _ (by omega), if_neg (by omega), queueByte_out _ (by omega)]

@[simp] theorem Context.refill_valid (X : Context) : X.refill.valid = X.valid := by
  rw [refill]; split <;> rfl

@[simp] theorem Context.refill_cfg (X : Context) : X.refill.cfg = X.cfg := by
  rw [refill]; split <;> rfl

@[simp] theorem Context.refill_phase (X : Context) : X.refill.phase = X.phase := by
  rw [refill]; split <;> rfl

@[simp] theorem Context.refill_biq (X : Context) : X.refill.biq = X.biq := by
  rw [refill]; split <;> rfl

theorem Context.refill_of_pos (X : Context) (h : X.bas ≠ 0) : X.refill = X := if_neg h

theorem Context.squeezeLoop_zero (fuel : Nat) (X : Context) : Context.squeezeLoop fuel X 0 = (X, []) := by
  cases fuel with
  | zero => rfl
  | succ f => rw [squeezeLoop, if_pos rfl]

theorem Context.squeeze_ok (X : Context) {nbits : Nat} (h : nbits % 8 = 0) :
    X.squeeze nbits = .ok (Context.squeezeLoop nbits X.toSqueezing nbits) := by
  rw [squeeze, if_neg (by simpa using h)]

/-! ## Squeezing byte by byte -/

/-- One byte of output: the refill if the buffer is empty, then the next queue byte. -/
def Context.squeezeOne (X : Context) : Context × Byte :=
  ({ X.refill with bas := X.refill.bas - 8 }, queueByte X.refill.queue ((X.cfg.rate - X.refill.bas) / 8))

/-- n bytes of output, one at a time. -/
def Context.squeezeBytes : Nat → Context → Context × List Byte
  | 0, X => (X, [])
  | n + 1, X =>
    ((Context.squeezeBytes n X.squeezeOne.1).1, X.squeezeOne.2 :: (Context.squeezeBytes n X.squeezeOne.1).2)

theorem Context.squeezeBytes_add (n : Nat) : ∀ (k : Nat) (X : Context), Context.squeezeBytes (n + k) X =
    ((Context.squeezeBytes k (Context.squeezeBytes n X).1).1,
      (Context.squeezeBytes n X).2 ++ (Context.squeezeBytes k (Context.squeezeBytes n X).1).2) := by
  induction n with
  | zero => intro k X; simp [squeezeBytes]
  | succ n ih =>
    intro k X
    rw [show n + 1 + k = (n + k) + 1 by omega, squeezeBytes, ih]
    rfl

@[simp] theorem Context.length_squeezeBytes (n : Nat) : ∀ X : Context, (Context.squeezeBytes n X).2.length = n := by
  induction n with
  | zero => exact fun _ => rfl
  | succ n ih => intro X; simp [squeezeBytes, ih]

/-- While the buffer lasts, squeezing reads it in order. -/
theorem Context.squeezeBytes_buffered (t : Nat) : ∀ X : Context, 8 * t ≤ X.bas → X.bas % 8 = 0 → X.bas ≤ X.cfg.rate →
    X.cfg.rate % 8 = 0 →
    Context.squeezeBytes t X =
      ({ X with bas := X.bas - 8 * t }, queueBytes X.queue ((X.cfg.rate - X.bas) / 8) t) := by
  induction t with
  | zero => intro X _ _ _ _; rfl
  | succ t ih =>
    intro X h h8 hr hr8
    have hne : X.bas ≠ 0 := by omega
    have h1 : X.squeezeOne = ({ X with bas := X.bas - 8 }, queueByte X.queue ((X.cfg.rate - X.bas) / 8)) := by
      rw [squeezeOne, refill_of_pos X hne]
    rw [squeezeBytes, h1]
    rw [ih { X with bas := X.bas - 8 } (by show _ ≤ X.bas - 8; omega) (by show (X.bas - 8) % 8 = 0; omega)
      (by show X.bas - 8 ≤ X.cfg.rate; omega) hr8]
    refine Prod.ext ?_ ?_
    · show ({ X with bas := X.bas - 8 - 8 * t } : Context) = { X with bas := X.bas - 8 * (t + 1) }
      rw [show X.bas - 8 - 8 * t = X.bas - 8 * (t + 1) by omega]
    · show queueByte X.queue ((X.cfg.rate - X.bas) / 8) ::
        queueBytes X.queue ((X.cfg.rate - (X.bas - 8)) / 8) t = queueBytes X.queue ((X.cfg.rate - X.bas) / 8) (t + 1)
      rw [show (X.cfg.rate - (X.bas - 8)) / 8 = (X.cfg.rate - X.bas) / 8 + 1 by omega]
      simp only [queueBytes, List.range_succ_eq_map, List.map_cons, List.map_map, Nat.add_zero]
      congr 1
      apply List.map_congr_left
      intro i _
      show queueByte X.queue _ = queueByte X.queue _
      congr 1
      show (X.cfg.rate - X.bas) / 8 + 1 + i = (X.cfg.rate - X.bas) / 8 + (i + 1)
      omega

/-- Squeeze's loop outputs the bytes one at a time (R156). -/
theorem Context.squeezeLoop_eq_squeezeBytes (fuel : Nat) : ∀ (X : Context) (n : Nat), 8 * n ≤ fuel → 0 < X.cfg.rate →
    X.cfg.rate % 8 = 0 → X.bas % 8 = 0 → X.bas ≤ X.cfg.rate →
    Context.squeezeLoop fuel X (8 * n) = Context.squeezeBytes n X := by
  induction fuel with
  | zero =>
    intro X n hn _ _ _ _
    rw [show n = 0 by omega]
    rfl
  | succ fuel ih =>
    intro X n hn hpos hr8 hb8 hbr
    by_cases h0 : n = 0
    · subst h0
      exact squeezeLoop_zero _ X
    · rw [squeezeLoop, if_neg (by omega)]
      have hbas : X.refill.bas % 8 = 0 ∧ X.refill.bas ≤ X.cfg.rate ∧ X.refill.bas ≠ 0 := by
        rw [refill]
        split
        · rw [extract_bas]
          exact ⟨hr8, le_refl _, by show X.cfg.rate ≠ 0; omega⟩
        · next h => exact ⟨hb8, hbr, h⟩
      obtain ⟨t, ht, htn, htp, htb⟩ : ∃ t, min X.refill.bas (8 * n) = 8 * t ∧ t ≤ n ∧ 0 < t ∧ 8 * t ≤ X.refill.bas :=
        ⟨min (X.refill.bas / 8) n, by omega, by omega, by omega, by omega⟩
      have hone : Context.squeezeBytes t X = Context.squeezeBytes t X.refill := by
        obtain ⟨t', rfl⟩ : ∃ t', t = t' + 1 := ⟨t - 1, by omega⟩
        have : X.refill.squeezeOne = X.squeezeOne := by
          rw [squeezeOne, squeezeOne, refill_of_pos X.refill hbas.2.2, refill_cfg]
        rw [squeezeBytes, squeezeBytes, this]
      have hbuf := squeezeBytes_buffered t X.refill htb hbas.1 (by rw [refill_cfg]; exact hbas.2.1)
        (by rw [refill_cfg]; exact hr8)
      simp only [ht, show 8 * n - 8 * t = 8 * (n - t) by omega]
      rw [ih { X.refill with bas := X.refill.bas - 8 * t } (n - t) (by omega) (by rw [show
        ({ X.refill with bas := X.refill.bas - 8 * t } : Context).cfg = X.cfg from refill_cfg X]; exact hpos)
        (by rw [show ({ X.refill with bas := X.refill.bas - 8 * t } : Context).cfg = X.cfg from refill_cfg X]; exact hr8)
        (by show (X.refill.bas - 8 * t) % 8 = 0; omega)
        (by rw [show ({ X.refill with bas := X.refill.bas - 8 * t } : Context).cfg = X.cfg from refill_cfg X]
            show X.refill.bas - 8 * t ≤ X.cfg.rate; omega)]
      conv_rhs => rw [show n = t + (n - t) by omega, squeezeBytes_add, hone, hbuf]
      rw [show 8 * t / 8 = t by omega]

end Sys2Proof.Machine
end

