-- ==== Sys2Proof/Laws/Legal.lean ====
section
/-! SUPPORT. The engine keeps the invariants of a configured context (spec/10_state.md R32; spec/41_sponge_engine.md R162), the padded block bit by bit (R154), and the output of a squeezing context as a stream (R156). -/

namespace Sys2Proof.Machine

/-! ## The rows of R160 -/

theorem variantTable_rateLegal : ∀ r ∈ variantTable, rateLegal r.rate r.capacity := by decide

theorem variantTable_bounds : ∀ r ∈ variantTable,
    576 ≤ r.rate ∧ r.rate ≤ 1344 ∧ 8 * r.dsize < r.rate ∧ r.sfxLen ≤ 4 ∧ r.sfxVal.toNat < 2 ^ r.sfxLen := by decide

theorem variantRow_mem {v : Variant} {n : Nat} {r : Cfg} (h : variantRow v n = some r) : r ∈ variantTable :=
  List.mem_of_find?_eq_some h

theorem variantRow_fields {v : Variant} {n : Nat} {r : Cfg} (h : variantRow v n = some r) :
    r.variant = v ∧ r.bitlen = n := by
  have := List.find?_some h
  simpa using this

namespace Context.Legal

variable {X : Context}

theorem bounds (h : X.Legal) : 576 ≤ X.cfg.rate ∧ X.cfg.rate ≤ 1344 ∧ 8 * X.cfg.dsize < X.cfg.rate ∧
    X.cfg.sfxLen ≤ 4 ∧ X.cfg.sfxVal.toNat < 2 ^ X.cfg.sfxLen := variantTable_bounds _ h.row

theorem rate_mod (h : X.Legal) : X.cfg.rate % 64 = 0 := h.rate.2.1

theorem biq_lt (h : X.Legal) (hp : X.phase = .absorbing) : X.biq + 8 ≤ X.cfg.rate := by
  have := (h.absorbing hp).2.2.1
  have := h.bounds
  omega

theorem bytes_zero (h : X.Legal) (hp : X.phase = .absorbing) : ∀ i, X.biq / 8 ≤ i → queueByte X.queue i = 0 :=
  (queueBits_zero_iff X.queue (h.absorbing hp).2.1).1 (h.absorbing hp).2.2.2

/-- A cleared context of a legal configuration is legal: what Init and Reset leave (R150, R302). -/
theorem of_cleared (hrow : X.cfg ∈ variantTable) : X.cleared.Legal where
  row := hrow
  rate := variantTable_rateLegal _ hrow
  absorbing := fun _ => ⟨rfl, rfl, Nat.zero_le _, fun k _ => queueBit_queueZero k⟩
  squeezing := fun h => by cases h
  queueTop := fun i _ => queueByte_queueZero i
  extracted := fun h => by cases h

end Context.Legal

/-! ## Absorbing (R151, R162) -/

theorem Context.absorbByte_legal {X : Context} (h : X.Legal) (hp : X.phase = .absorbing) (b : Byte) :
    (X.absorbByte b).Legal := by
  have hb := h.bounds
  have hr := h.rate_mod
  obtain ⟨h0, h8, hle, -⟩ := h.absorbing hp
  have hz := h.bytes_zero hp
  by_cases hfull : X.biq + 8 = X.cfg.rate
  · rw [absorbByte_full X b hfull]
    exact {
      row := h.row
      rate := h.rate
      absorbing := fun _ => ⟨h0, rfl, Nat.zero_le _, fun k _ => queueBit_queueZero k⟩
      squeezing := fun hs => by have hs : X.phase = .squeezing := hs; rw [hp] at hs; cases hs
      queueTop := fun i _ => queueByte_queueZero i
      extracted := fun hs => by have hs : X.phase = .squeezing := hs; rw [hp] at hs; cases hs }
  · rw [absorbByte_partial X b hfull]
    have hi : X.biq / 8 < 168 := by omega
    have hbytes : ∀ i, (X.biq + 8) / 8 ≤ i → queueByte (queueSet X.queue (X.biq / 8) b) i = 0 := fun i hle => by
      rw [queueByte_queueSet _ hi, if_neg (by omega)]
      exact hz i (by omega)
    exact {
      row := h.row
      rate := h.rate
      absorbing := fun _ => ⟨h0, by show (X.biq + 8) % 8 = 0; omega, by show X.biq + 8 ≤ X.cfg.rate - 8; omega,
        (queueBits_zero_iff _ (by show (X.biq + 8) % 8 = 0; omega)).2 hbytes⟩
      squeezing := fun hs => by have hs : X.phase = .squeezing := hs; rw [hp] at hs; cases hs
      queueTop := fun i hi' => by
        have hi' : X.cfg.rate / 8 ≤ i := hi'
        exact hbytes i (by omega)
      extracted := fun hs => by have hs : X.phase = .squeezing := hs; rw [hp] at hs; cases hs }

theorem Context.absorbBytes_legal (bs : List Byte) : ∀ {X : Context}, X.Legal → X.phase = .absorbing →
    (X.absorbBytes bs).Legal := by
  induction bs with
  | nil => exact fun h _ => h
  | cons b bs ih =>
    intro X h hp
    rw [absorbBytes_cons]
    exact ih (absorbByte_legal h hp b) ((absorbByte_phase X b).trans hp)

/-! ## The suffix and the padding (R153, R154, R158) -/

/-- What holds of a context when PadSwitch is called: the queue holds its bits below biq and no other, and there is
room for more than the first pad bit (R154, R162). -/
structure Context.PadReady (X : Context) : Prop where
  row : X.cfg ∈ variantTable
  phase : X.phase = .absorbing
  room : X.biq + 4 ≤ X.cfg.rate
  above : ∀ k, X.biq ≤ k → queueBit X.queue k = false

/-- The suffix bits enter from queue bit biq up, in the order of increasing t (R63, R153). -/
theorem Context.queueBit_absorbBits {X : Context} (h8 : X.biq % 8 = 0) (hroom : X.biq + 8 ≤ X.cfg.rate)
    (hq : X.cfg.rate ≤ 1344) (hz : ∀ k, X.biq ≤ k → queueBit X.queue k = false) (v : Byte) {n : Nat} (hn : n < 8)
    (k : Nat) :
    queueBit (X.absorbBits v n).queue k =
      if X.biq ≤ k ∧ k < X.biq + n then v.getLsbD (k - X.biq) else queueBit X.queue k := by
  by_cases h0 : n = 0
  · subst h0
    rw [absorbBits, if_pos rfl, if_neg (by omega)]
  · rw [absorbBits, if_neg h0, absorbIfFull, if_neg (by show X.biq + n ≠ X.cfg.rate; omega)]
    show queueBit (queueSet X.queue (X.biq / 8) (v &&& BitVec.ofNat 8 (2 ^ n - 1))) k = _
    rw [queueBit, queueByte_queueSet _ (by omega)]
    by_cases hk : k / 8 = X.biq / 8
    · rw [if_pos hk, BitVec.getLsbD_and, BitVec.getLsbD_ofNat, Nat.testBit_two_pow_sub_one]
      have h8' : k % 8 < 8 := Nat.mod_lt _ (by omega)
      by_cases hkn : k < X.biq + n
      · rw [if_pos (by omega), show k - X.biq = k % 8 by omega]
        have : k % 8 < n := by omega
        simp [h8', this]
      · rw [if_neg (by omega), hz k (by omega)]
        have : ¬ k % 8 < n := by omega
        simp [this]
    · rw [if_neg hk]
      rw [if_neg (by omega)]
      rfl

theorem Context.biq_absorbBits {X : Context} (hroom : X.biq + 8 ≤ X.cfg.rate) (v : Byte) {n : Nat} (hn : n < 8) :
    (X.absorbBits v n).biq = X.biq + n := by
  rw [absorbBits]
  split
  · next h => rw [h]; rfl
  · rw [absorbIfFull, if_neg (by show X.biq + n ≠ X.cfg.rate; omega)]

theorem Context.lanes_absorbBits {X : Context} (hroom : X.biq + 8 ≤ X.cfg.rate) (v : Byte) {n : Nat} (hn : n < 8) :
    (X.absorbBits v n).lanes = X.lanes := by
  rw [absorbBits]
  split
  · rfl
  · rw [absorbIfFull, if_neg (by show X.biq + n ≠ X.cfg.rate; omega)]

namespace Context.Legal

variable {X : Context}

theorem injectSuffix_biq (h : X.Legal) (hp : X.phase = .absorbing) : X.injectSuffix.biq = X.biq + X.cfg.sfxLen := by
  rw [injectSuffix, if_pos hp]
  exact biq_absorbBits (h.biq_lt hp) _ (by have := h.bounds; omega)

theorem injectSuffix_lanes (h : X.Legal) : X.injectSuffix.lanes = X.lanes := by
  by_cases hp : X.phase = .absorbing
  · rw [injectSuffix, if_pos hp]
    exact lanes_absorbBits (h.biq_lt hp) _ (by have := h.bounds; omega)
  · rw [injectSuffix, if_neg hp]

theorem queueBit_injectSuffix (h : X.Legal) (hp : X.phase = .absorbing) (k : Nat) :
    queueBit X.injectSuffix.queue k =
      if X.biq ≤ k ∧ k < X.biq + X.cfg.sfxLen then X.cfg.sfxVal.getLsbD (k - X.biq) else queueBit X.queue k := by
  have hb := h.bounds
  rw [injectSuffix, if_pos hp, queueBit_absorbBits (h.absorbing hp).2.1 (h.biq_lt hp) hb.2.1 (h.absorbing hp).2.2.2 _
    (by omega)]
  split
  · next hk =>
    rw [BitVec.getLsbD_setWidth]
    have : k - X.biq < 8 := by omega
    simp [this]
  · rfl

/-- What InjectSuffix leaves for PadSwitch (R162). -/
theorem padReady (h : X.Legal) (hp : X.phase = .absorbing) : X.injectSuffix.PadReady where
  row := by rw [injectSuffix_cfg]; exact h.row
  phase := by rw [injectSuffix_phase]; exact hp
  room := by
    have := h.bounds
    have := h.biq_lt hp
    rw [h.injectSuffix_biq hp, injectSuffix_cfg]
    omega
  above := fun k hk => by
    rw [h.injectSuffix_biq hp] at hk
    rw [h.queueBit_injectSuffix hp, if_neg (by omega)]
    exact (h.absorbing hp).2.2.2 k (by omega)

end Context.Legal

namespace Context.PadReady

variable {X : Context}

theorem padded_eq (h : X.PadReady) :
    X.padded = { X with queue := queueSetBit (queueSetBit X.queue X.biq) (X.cfg.rate - 1) } := by
  have := h.room
  simp only [padded, if_neg (by omega : ¬ X.biq + 1 = X.cfg.rate)]

/-- pad10*1: the message's bits, a 1 after them, zeros, and a 1 at bit rate - 1 (R154). -/
theorem queueBit_padded (h : X.PadReady) (k : Nat) :
    queueBit X.padded.queue k = (queueBit X.queue k || decide (k = X.biq) || decide (k = X.cfg.rate - 1)) := by
  have := h.room
  have := variantTable_bounds _ h.row
  rw [h.padded_eq]
  show queueBit (queueSetBit (queueSetBit X.queue X.biq) (X.cfg.rate - 1)) k = _
  rw [queueBit_queueSetBit _ (by omega), queueBit_queueSetBit _ (by omega)]

theorem padSwitch_lanes (h : X.PadReady) :
    X.padSwitch.lanes = keccakF (xorQueue X.lanes X.padded.queue (X.cfg.rate / 8)) := by
  show keccakF (xorQueue X.padded.lanes X.padded.queue (X.padded.cfg.rate / 8)) = _
  rw [padded_cfg, h.padded_eq]

theorem padSwitch_bas (_ : X.PadReady) : X.padSwitch.bas = X.cfg.rate := by
  rw [padSwitch, extract_bas]
  exact congrArg Cfg.rate (padded_cfg X)

/-- The finalize transition leaves a legal Squeezing context. -/
theorem padSwitch_legal (h : X.PadReady) : X.padSwitch.Legal := by
  have hb := variantTable_bounds _ h.row
  have hq : ∀ i, queueByte X.padSwitch.queue i =
      if i < 168 ∧ i < X.cfg.rate / 8 then stateByte X.padSwitch.lanes i else 0 := fun i => by
    rw [padSwitch, queueByte_extract, extract_lanes]
    show (if i < 168 ∧ i < X.padded.cfg.rate / 8 then _ else queueByte queueZero i) = _
    rw [padded_cfg, queueByte_queueZero]
  exact {
    row := by rw [padSwitch_cfg]; exact h.row
    rate := by rw [padSwitch_cfg]; exact variantTable_rateLegal _ h.row
    absorbing := fun hp => by cases hp
    squeezing := fun _ => by
      have := variantTable_rateLegal _ h.row
      rw [h.padSwitch_bas, padSwitch_cfg]
      exact ⟨rfl, by omega, le_refl _⟩
    queueTop := fun i hi => by
      rw [padSwitch_cfg] at hi
      rw [hq, if_neg (by omega)]
    extracted := fun _ i hi => by
      rw [padSwitch_cfg] at hi
      rw [hq, if_pos (by omega)] }

end Context.PadReady

/-! ## Squeezing (R156) -/

/-- A context ready to output: the suffix injected if it was Absorbing, and Squeezing. -/
theorem Context.Legal.toSqueezing {X : Context} (h : X.Legal) : X.injectSuffix.toSqueezing.Legal := by
  by_cases hp : X.phase = .absorbing
  · rw [Context.toSqueezing, if_pos (by rw [injectSuffix_phase]; exact hp)]
    exact (h.padReady hp).padSwitch_legal
  · have hs : X.phase = .squeezing := by cases hx : X.phase with
      | absorbing => exact absurd hx hp
      | squeezing => rfl
    rw [injectSuffix_squeezing X hs, toSqueezing_of_squeezing X hs]
    exact h

theorem Context.Legal.refill {X : Context} (h : X.Legal) (hs : X.phase = .squeezing) : X.refill.Legal := by
  have hb := h.bounds
  have hr := h.rate_mod
  rw [Context.refill]
  split
  · exact {
      row := h.row
      rate := h.rate
      absorbing := fun hp => by have hp : X.phase = .absorbing := hp; rw [hs] at hp; cases hp
      squeezing := fun _ => ⟨(h.squeezing hs).1, by rw [extract_bas]; show X.cfg.rate % 8 = 0; omega,
        by rw [extract_bas]; exact le_refl _⟩
      queueTop := fun i hi => by
        have hi : X.cfg.rate / 8 ≤ i := hi
        rw [queueByte_extract, if_neg (by show ¬ (i < 168 ∧ i < X.cfg.rate / 8); omega)]
        exact h.queueTop i hi
      extracted := fun _ i hi => by
        have hi : i < X.cfg.rate / 8 := hi
        rw [queueByte_extract, if_pos (by show i < 168 ∧ i < X.cfg.rate / 8; omega)]
        rfl }
  · exact h

theorem Context.Legal.withBas {X : Context} (h : X.Legal) (hs : X.phase = .squeezing) {b : Nat} (hb : b % 8 = 0)
    (hle : b ≤ X.bas) : { X with bas := b : Context }.Legal where
  row := h.row
  rate := h.rate
  absorbing := fun hp => by have hp : X.phase = .absorbing := hp; rw [hs] at hp; cases hp
  squeezing := fun _ => ⟨(h.squeezing hs).1, hb, le_trans hle (h.squeezing hs).2.2⟩
  queueTop := h.queueTop
  extracted := h.extracted

theorem Context.refill_bas_pos {X : Context} (h : X.Legal) (hs : X.phase = .squeezing) :
    8 ≤ X.refill.bas ∧ X.refill.bas % 8 = 0 ∧ X.refill.bas ≤ X.cfg.rate := by
  have hb := h.bounds
  have hr := h.rate_mod
  have hx := h.squeezing hs
  rw [refill]
  split
  · rw [extract_bas]
    show 8 ≤ X.cfg.rate ∧ X.cfg.rate % 8 = 0 ∧ X.cfg.rate ≤ X.cfg.rate
    omega
  · omega

@[simp] theorem Context.squeezeOne_valid (X : Context) : X.squeezeOne.1.valid = X.valid := refill_valid X
@[simp] theorem Context.squeezeOne_cfg (X : Context) : X.squeezeOne.1.cfg = X.cfg := refill_cfg X
@[simp] theorem Context.squeezeOne_phase (X : Context) : X.squeezeOne.1.phase = X.phase := refill_phase X

theorem Context.Legal.squeezeOne {X : Context} (h : X.Legal) (hs : X.phase = .squeezing) : X.squeezeOne.1.Legal := by
  have hb := refill_bas_pos h hs
  exact (h.refill hs).withBas ((refill_phase X).trans hs) (by omega) (by omega)

@[simp] theorem Context.squeezeBytes_valid (n : Nat) : ∀ X : Context, (Context.squeezeBytes n X).1.valid = X.valid := by
  induction n with
  | zero => exact fun _ => rfl
  | succ n ih => intro X; exact (ih _).trans (squeezeOne_valid X)

@[simp] theorem Context.squeezeBytes_cfg (n : Nat) : ∀ X : Context, (Context.squeezeBytes n X).1.cfg = X.cfg := by
  induction n with
  | zero => exact fun _ => rfl
  | succ n ih => intro X; exact (ih _).trans (squeezeOne_cfg X)

@[simp] theorem Context.squeezeBytes_phase (n : Nat) : ∀ X : Context, (Context.squeezeBytes n X).1.phase = X.phase := by
  induction n with
  | zero => exact fun _ => rfl
  | succ n ih => intro X; exact (ih _).trans (squeezeOne_phase X)

theorem Context.Legal.squeezeBytes (n : Nat) : ∀ {X : Context}, X.Legal → X.phase = .squeezing →
    (Context.squeezeBytes n X).1.Legal := by
  induction n with
  | zero => exact fun h _ => h
  | succ n ih =>
    intro X h hs
    exact ih (h.squeezeOne hs) ((squeezeOne_phase X).trans hs)

/-- Squeeze on a legal context outputs the bytes one at a time. -/
theorem Context.Legal.squeeze_eq {X : Context} (h : X.Legal) (n : Nat) :
    X.injectSuffix.squeeze (8 * n) = .ok (Context.squeezeBytes n X.injectSuffix.toSqueezing) := by
  have hl := h.toSqueezing
  have hs : X.injectSuffix.toSqueezing.phase = .squeezing := toSqueezing_phase _
  have hx := hl.squeezing hs
  have hb := hl.bounds
  have hr := hl.rate_mod
  rw [squeeze_ok _ (by omega), squeezeLoop_eq_squeezeBytes _ _ n (le_refl _) (by omega) (by omega) hx.2.1 hx.2.2]

/-! ## The output stream -/

theorem blockStream_next (A : Lanes) {rate : Nat} (h : 0 < rate / 8) (p : Nat) :
    blockStream A rate (rate / 8 + p) = blockStream (keccakF A) rate p := by
  rw [blockStream, blockStream, Nat.add_div_left _ h, Nat.add_mod_left, Function.iterate_succ_apply]

theorem blockStream_first (A : Lanes) {rate p : Nat} (h : p < rate / 8) : blockStream A rate p = stateByte A p := by
  rw [blockStream, Nat.div_eq_of_lt h, Nat.mod_eq_of_lt h]
  rfl

theorem Context.squeezeOne_stream {X : Context} (h : X.Legal) (hs : X.phase = .squeezing) :
    X.squeezeOne.2 = X.streamByte 0 ∧ ∀ i, X.squeezeOne.1.streamByte i = X.streamByte (i + 1) := by
  have hb := h.bounds
  have hr := h.rate_mod
  obtain ⟨-, hx8, hxr⟩ := h.squeezing hs
  by_cases h0 : X.bas = 0
  · have href : X.refill = { X with lanes := keccakF X.lanes : Context }.extract := if_pos h0
    have hbas : X.refill.bas = X.cfg.rate := by rw [href, extract_bas]
    have hlan : X.refill.lanes = keccakF X.lanes := by rw [href]; rfl
    constructor
    · show queueByte X.refill.queue ((X.cfg.rate - X.refill.bas) / 8) = _
      rw [hbas, Nat.sub_self, (h.refill hs).extracted ((refill_phase X).trans hs) _ (by rw [refill_cfg]; omega), hlan,
        streamByte, h0, Nat.sub_zero, Nat.add_zero]
      have := blockStream_next X.lanes (rate := X.cfg.rate) (by omega) 0
      rw [Nat.add_zero] at this
      rw [this, blockStream_first _ (by omega)]
    · intro i
      show blockStream X.refill.lanes X.refill.cfg.rate ((X.refill.cfg.rate - (X.refill.bas - 8)) / 8 + i) = _
      rw [refill_cfg, hbas, hlan, streamByte, h0, Nat.sub_zero, blockStream_next _ (by omega)]
      congr 1
      omega
  · have href : X.refill = X := refill_of_pos X h0
    constructor
    · show queueByte X.refill.queue ((X.cfg.rate - X.refill.bas) / 8) = _
      rw [href, h.extracted hs _ (by omega), streamByte, Nat.add_zero, blockStream_first _ (by omega)]
    · intro i
      show blockStream X.refill.lanes X.refill.cfg.rate ((X.refill.cfg.rate - (X.refill.bas - 8)) / 8 + i) = _
      rw [href, streamByte]
      congr 1
      omega

/-- A squeezing context outputs its stream in order, and goes on where it stopped (R156, R165). -/
theorem Context.squeezeBytes_stream (n : Nat) : ∀ {X : Context}, X.Legal → X.phase = .squeezing →
    (Context.squeezeBytes n X).2 = (List.range n).map X.streamByte ∧
      ∀ i, (Context.squeezeBytes n X).1.streamByte i = X.streamByte (n + i) := by
  induction n with
  | zero => intro X _ _; exact ⟨rfl, fun i => by rw [Nat.zero_add]; rfl⟩
  | succ n ih =>
    intro X h hs
    have h1 := squeezeOne_stream h hs
    have h2 := ih (h.squeezeOne hs) ((squeezeOne_phase X).trans hs)
    constructor
    · show X.squeezeOne.2 :: (Context.squeezeBytes n X.squeezeOne.1).2 = _
      rw [h2.1, h1.1, List.range_succ_eq_map, List.map_cons, List.map_map]
      congr 1
      apply List.map_congr_left
      intro i _
      exact h1.2 i
    · intro i
      show (Context.squeezeBytes n X.squeezeOne.1).1.streamByte i = _
      rw [h2.2, h1.2, show n + i + 1 = n + 1 + i by omega]

end Sys2Proof.Machine
end

