-- ==== Sys2Proof/Laws/Exec.lean ====
section
/-! SUPPORT. Every command as Finish over a body, what each body does, and what no body changes (spec/60_exceptions.md R261, R262; spec/42_commands_control.md; spec/43_commands_data.md). -/

namespace Sys2Proof.Machine

/-! ## Contexts of a state -/

@[simp] theorem State.ctx_setCtx_same (s : State) (c : CtxId) (X : Context) : (s.setCtx c X).ctx c = X := by
  simp [State.ctx, State.setCtx]

theorem State.ctx_setCtx_other (s : State) {c d : CtxId} (X : Context) (h : d ≠ c) :
    (s.setCtx c X).ctx d = s.ctx d := by
  have : c.toNat ≠ d.toNat := fun h' => h (BitVec.eq_of_toNat_eq h'.symm)
  simp [State.ctx, State.setCtx, this]

theorem State.ctx_setCtx (s : State) (c d : CtxId) (X : Context) :
    (s.setCtx c X).ctx d = if d = c then X else s.ctx d := by
  split
  · next h => rw [h, State.ctx_setCtx_same]
  · next h => exact State.ctx_setCtx_other s X h

/-- The context file is what its accessor reads. -/
theorem State.ctxs_ext {s t : State} (h : ∀ c, s.ctx c = t.ctx c) : s.ctxs = t.ctxs := by
  apply Vector.ext
  intro i hi
  have := h (BitVec.ofNat 4 i)
  simp only [State.ctx, BitVec.toNat_ofNat] at this
  simpa [Nat.mod_eq_of_lt hi] using this

@[simp] theorem State.setCtx_setCtx (s : State) (c : CtxId) (X Y : Context) :
    (s.setCtx c X).setCtx c Y = s.setCtx c Y := by
  simp [State.setCtx]

@[simp] theorem State.setCtx_ctx (s : State) (c : CtxId) : s.setCtx c (s.ctx c) = s := by
  simp [State.setCtx, State.ctx]

theorem State.setCtx_memWrite (s : State) (c : CtxId) (X : Context) (a : Nat) (v : List Byte) :
    (s.memWrite a v).setCtx c X = (s.setCtx c X).memWrite a v := rfl

/-! ## Checks -/

theorem require_true {b : Bool} (e : ErrKind) (h : b = true) : require b e = .ok () := by rw [require, if_pos h]

theorem require_false {b : Bool} (e : ErrKind) (h : b = false) : require b e = .error e := by
  rw [require, if_neg (by simp [h])]

/-- A check before a body: the body if it holds, else the check's error. -/
theorem require_bind {α : Type} (b : Bool) (e : ErrKind) (f : Unit → Except ErrKind α) :
    (require b e >>= f) = if b then f () else .error e := by
  cases b <;> rfl

theorem Except.bind_eq_ok {ε α β : Type} {x : Except ε α} {f : α → Except ε β} {b : β} :
    (x >>= f) = .ok b ↔ ∃ a, x = .ok a ∧ f a = .ok b := by
  cases x with
  | error e => simp [bind, Except.bind]
  | ok a => simp [bind, Except.bind]

/-! ## Finish -/

theorem complete_ok (i : Instr) (s : State) {r : Except ErrKind State} {t : State} (h : r = .ok t) :
    complete i s r = .next (t.finish (opOf i) (ctxOf i) none) := by
  rw [h]; rfl

theorem complete_error (i : Instr) (s : State) {r : Except ErrKind State} {e : ErrKind} (h : r = .error e) :
    complete i s r = .next (s.finish (opOf i) (ctxOf i) (some e)) := by
  rw [h]; rfl

/-- The body of each command: what it does before Finish. -/
def bodyOf : Instr → State → Except ErrKind State
  | .config c v n => configBody c v n
  | .reset c => resetBody c
  | .updateByte c b => updateByteBody c b
  | .update c off len => updateBody c off len
  | .doFinal c off => doFinalBody c off
  | .doFinalXof c off len => doFinalXofBody c off len
  | .doOutput c off len => doOutputBody c off len
  | .copy d c => copyBody d c
  | .getDigestSize c => queryBody c fun X => X.cfg.dsize
  | .getByteLength c => queryBody c fun X => X.cfg.rate / 8

theorem exec_eq_complete (i : Instr) (s : State) : exec i s = complete i s (bodyOf i s) := by
  cases i <;> rfl

/-- Every command ends in a next state: Finish(OK) over its body's state, or Finish(e) over the state it was
issued in. -/
theorem exec_cases {i : Instr} {s t : State} (h : exec i s = .next t) :
    (∃ u, bodyOf i s = .ok u ∧ t = u.finish (opOf i) (ctxOf i) none) ∨
    (∃ e, bodyOf i s = .error e ∧ t = s.finish (opOf i) (ctxOf i) (some e)) := by
  rw [exec_eq_complete] at h
  cases hb : bodyOf i s with
  | ok u =>
    rw [complete_ok i s hb] at h
    injection h with h
    exact .inl ⟨u, rfl, h.symm⟩
  | error e =>
    rw [complete_error i s hb] at h
    injection h with h
    exact .inr ⟨e, rfl, h.symm⟩

theorem exec_ok {i : Instr} {s u : State} (h : bodyOf i s = .ok u) :
    exec i s = .next (u.finish (opOf i) (ctxOf i) none) := by
  rw [exec_eq_complete, complete_ok i s h]

theorem exec_error {i : Instr} {s : State} {e : ErrKind} (h : bodyOf i s = .error e) :
    exec i s = .next (s.finish (opOf i) (ctxOf i) (some e)) := by
  rw [exec_eq_complete, complete_error i s h]

/-! ## What each body does -/

theorem configRow_ok {v : Byte} {n : Half} {row : Cfg} :
    configRow v n = .ok row ↔ ∃ var, variantOfCode v = some var ∧ variantRow var n.toNat = some row := by
  rw [configRow]
  cases variantOfCode v with
  | none => simp
  | some var =>
    cases h : variantRow var n.toNat with
    | none => simp [h]
    | some r => simp [h]

theorem configRow_error {v : Byte} {n : Half} {e : ErrKind} (h : configRow v n = .error e) :
    e = .configurationError := by
  rw [configRow] at h
  cases hv : variantOfCode v with
  | none => rw [hv] at h; exact (Except.error.inj h).symm
  | some var =>
    rw [hv] at h
    simp only at h
    cases hr : variantRow var n.toNat with
    | none => rw [hr] at h; exact (Except.error.inj h).symm
    | some r => rw [hr] at h; cases h

/-- The context CONFIG installs (R190). -/
def configured (X : Context) (row : Cfg) : Context := { X.cleared with valid := true, cfg := row }

theorem configBody_ok (s : State) (c : CtxId) {v : Byte} {n : Half} {row : Cfg} (h : configRow v n = .ok row) :
    configBody c v n s = .ok (s.setCtx c (configured (s.ctx c) row)) := by
  obtain ⟨var, -, hr⟩ := configRow_ok.1 h
  rw [configBody, h]
  show (Context.init _ _ _ >>= _) = _
  rw [Context.init_ok _ (variantTable_rateLegal _ (variantRow_mem hr))]
  rfl

theorem configBody_error (s : State) (c : CtxId) {v : Byte} {n : Half} {e : ErrKind} (h : configRow v n = .error e) :
    configBody c v n s = .error .configurationError := by
  rw [configBody, h, configRow_error h]
  rfl

theorem resetBody_eq (s : State) (c : CtxId) : resetBody c s =
    if (s.ctx c).valid then (do let X ← (s.ctx c).resetSponge; .ok (s.setCtx c X)) else .error .stateError := by
  rw [resetBody, State.requireConfigured, require_bind]

theorem resetBody_ok (s : State) {c : CtxId} (hv : (s.ctx c).valid = true) (hl : (s.ctx c).Legal) :
    resetBody c s = .ok (s.setCtx c (s.ctx c).cleared) := by
  rw [resetBody_eq, if_pos hv, Context.resetSponge_ok _ hl.rate]
  rfl

theorem copyBody_eq (s : State) (d c : CtxId) :
    copyBody d c s = if (s.ctx c).valid then .ok (s.setCtx d (s.ctx c)) else .error .stateError := by
  rw [copyBody, State.requireConfigured, require_bind]

theorem queryBody_eq (s : State) (c : CtxId) (f : Context → Nat) : queryBody c f s =
    if (s.ctx c).valid then .ok (s.setResult (BitVec.ofNat 32 (f (s.ctx c)))) else .error .stateError := by
  rw [queryBody, State.requireConfigured, require_bind]

theorem updateByteBody_eq (s : State) (c : CtxId) (b : Byte) : updateByteBody c b s =
    if (s.ctx c).valid then
      if decide ((s.ctx c).phase = .absorbing) then .ok (s.setCtx c ((s.ctx c).absorbByte b)) else .error .stateError
    else .error .stateError := by
  rw [updateByteBody, State.requireConfigured, require_bind, State.requireAbsorbing, require_bind]

theorem updateBody_eq (s : State) (c : CtxId) (off len : Half) : updateBody c off len s =
    if (s.ctx c).valid then
      if decide ((s.ctx c).phase = .absorbing) then
        if decide (regionLegal s.build off len.toNat) then
          .ok (s.setCtx c ((s.ctx c).absorbBytes (s.source off len)))
        else .error .bufferError
      else .error .stateError
    else .error .stateError := by
  rw [updateBody, State.requireConfigured, require_bind, State.requireAbsorbing, require_bind, State.requireRegion,
    require_bind]

theorem doFinalBody_eq (s : State) (c : CtxId) (off : Half) : doFinalBody c off s =
    if (s.ctx c).valid then
      if decide (regionLegal s.build off (s.ctx c).cfg.dsize) then
        (do let t ← s.output c off (s.ctx c).cfg.dsize; t.resetAfter c)
      else .error .bufferError
    else .error .stateError := by
  rw [doFinalBody, State.requireConfigured, require_bind, State.requireRegion, require_bind]

theorem doFinalXofBody_eq (s : State) (c : CtxId) (off len : Half) : doFinalXofBody c off len s =
    if (s.ctx c).valid then
      if (s.ctx c).cfg.xof then
        if decide (regionLegal s.build off len.toNat) then
          (do let t ← s.output c off len.toNat; t.resetAfter c)
        else .error .bufferError
      else .error .illegalCommand
    else .error .stateError := by
  rw [doFinalXofBody, State.requireConfigured, require_bind, State.requireXof, require_bind, State.requireRegion,
    require_bind]

theorem doOutputBody_eq (s : State) (c : CtxId) (off len : Half) : doOutputBody c off len s =
    if (s.ctx c).valid then
      if (s.ctx c).cfg.xof then
        if decide (regionLegal s.build off len.toNat) then s.output c off len.toNat
        else .error .bufferError
      else .error .illegalCommand
    else .error .stateError := by
  rw [doOutputBody, State.requireConfigured, require_bind, State.requireXof, require_bind, State.requireRegion,
    require_bind]

/-- Output on any context: Squeeze's length check cannot fail on whole bytes (R161). -/
theorem State.output_ok (s : State) (c : CtxId) (off : Half) (n : Nat) : s.output c off n =
    .ok ((s.setCtx c (Context.squeezeLoop (8 * n) (s.ctx c).injectSuffix.toSqueezing (8 * n)).1).memWrite off.toNat
      (Context.squeezeLoop (8 * n) (s.ctx c).injectSuffix.toSqueezing (8 * n)).2) := by
  rw [State.output, Context.squeeze_ok _ (by omega)]
  rfl

/-- Output on a legal context: it writes the next n bytes of the stream (R156, R71). -/
theorem State.output_legal (s : State) {c : CtxId} (h : (s.ctx c).Legal) (off : Half) (n : Nat) : s.output c off n =
    .ok ((s.setCtx c (Context.squeezeBytes n (s.ctx c).injectSuffix.toSqueezing).1).memWrite off.toNat
      ((List.range n).map (s.ctx c).outputByte)) := by
  rw [State.output, h.squeeze_eq]
  show Except.ok _ = _
  rw [(Context.squeezeBytes_stream n h.toSqueezing (Context.toSqueezing_phase _)).1]
  rfl

/-- The Reset that ends DO_FINAL and DO_FINAL_XOF (R159). -/
theorem State.resetAfter_ok (s : State) {c : CtxId} (h : rateLegal (s.ctx c).cfg.rate (s.ctx c).cfg.capacity) :
    s.resetAfter c = .ok (s.setCtx c (s.ctx c).cleared) := by
  rw [State.resetAfter, Context.resetSponge_ok _ h]
  rfl

/-- Two contexts of one configuration are equal once cleared. -/
theorem Context.cleared_congr {X Y : Context} (hv : X.valid = Y.valid) (hc : X.cfg = Y.cfg) : X.cleared = Y.cleared := by
  simp only [Context.cleared, hv, hc]

/-- Output then Reset on a legal context: the stream's bytes are written and the context is cleared (R222, R223). -/
theorem State.output_reset (s : State) {c : CtxId} (h : (s.ctx c).Legal) (off : Half) (n : Nat) :
    (do let t ← s.output c off n; t.resetAfter c) =
    .ok ((s.setCtx c (s.ctx c).cleared).memWrite off.toNat ((List.range n).map (s.ctx c).outputByte)) := by
  rw [s.output_legal h]
  show State.resetAfter _ c = _
  have hcfg : (Context.squeezeBytes n (s.ctx c).injectSuffix.toSqueezing).1.cfg = (s.ctx c).cfg := by simp
  have hval : (Context.squeezeBytes n (s.ctx c).injectSuffix.toSqueezing).1.valid = (s.ctx c).valid := by simp
  rw [State.resetAfter_ok _ (by rw [State.memWrite_ctx, State.ctx_setCtx_same, hcfg]; exact h.rate)]
  rw [State.memWrite_ctx, State.ctx_setCtx_same, State.setCtx_memWrite, State.setCtx_setCtx,
    Context.cleared_congr hval hcfg]

theorem doFinalBody_ok (s : State) {c : CtxId} {off : Half} (hv : (s.ctx c).valid = true) (hl : (s.ctx c).Legal)
    (hr : regionLegal s.build off (s.ctx c).cfg.dsize) : doFinalBody c off s =
    .ok ((s.setCtx c (s.ctx c).cleared).memWrite off.toNat
      ((List.range (s.ctx c).cfg.dsize).map (s.ctx c).outputByte)) := by
  rw [doFinalBody_eq, if_pos hv, if_pos (decide_eq_true hr), s.output_reset hl]

theorem doFinalXofBody_ok (s : State) {c : CtxId} {off len : Half} (hv : (s.ctx c).valid = true) (hl : (s.ctx c).Legal)
    (hx : (s.ctx c).cfg.xof = true) (hr : regionLegal s.build off len.toNat) : doFinalXofBody c off len s =
    .ok ((s.setCtx c (s.ctx c).cleared).memWrite off.toNat ((List.range len.toNat).map (s.ctx c).outputByte)) := by
  rw [doFinalXofBody_eq, if_pos hv, if_pos hx, if_pos (decide_eq_true hr), s.output_reset hl]

theorem doOutputBody_ok (s : State) {c : CtxId} {off len : Half} (hv : (s.ctx c).valid = true) (hl : (s.ctx c).Legal)
    (hx : (s.ctx c).cfg.xof = true) (hr : regionLegal s.build off len.toNat) : doOutputBody c off len s =
    .ok ((s.setCtx c (Context.squeezeBytes len.toNat (s.ctx c).injectSuffix.toSqueezing).1).memWrite off.toNat
      ((List.range len.toNat).map (s.ctx c).outputByte)) := by
  rw [doOutputBody_eq, if_pos hv, if_pos hx, if_pos (decide_eq_true hr), s.output_legal hl]

/-! ## What no body changes -/

/-- A body changes at most one context, RESULT and the buffer memory. -/
structure BodyFrame (c : CtxId) (s t : State) : Prop where
  build : t.build = s.build
  arg : t.arg = s.arg
  status : t.status = s.status
  inFlight : t.inFlight = s.inFlight
  inReset : t.inReset = s.inReset
  powerOns : t.powerOns = s.powerOns
  host : t.host = s.host
  ctxs : ∀ d, d ≠ c → t.ctx d = s.ctx d

theorem BodyFrame.setCtx (s : State) (c : CtxId) (X : Context) : BodyFrame c s (s.setCtx c X) :=
  ⟨rfl, rfl, rfl, rfl, rfl, rfl, rfl, fun _ h => State.ctx_setCtx_other s X h⟩

theorem BodyFrame.memWrite {c : CtxId} {s t : State} (h : BodyFrame c s t) (a : Nat) (v : List Byte) :
    BodyFrame c s (t.memWrite a v) :=
  ⟨h.build, h.arg, h.status, h.inFlight, h.inReset, h.powerOns, h.host, h.ctxs⟩

theorem BodyFrame.setResult (s : State) (c : CtxId) (v : Reg) : BodyFrame c s (s.setResult v) :=
  ⟨rfl, rfl, rfl, rfl, rfl, rfl, rfl, fun _ _ => rfl⟩

theorem BodyFrame.trans {c : CtxId} {s t u : State} (h : BodyFrame c s t) (g : BodyFrame c t u) : BodyFrame c s u :=
  ⟨g.build.trans h.build, g.arg.trans h.arg, g.status.trans h.status, g.inFlight.trans h.inFlight,
    g.inReset.trans h.inReset, g.powerOns.trans h.powerOns, g.host.trans h.host,
    fun d hd => (g.ctxs d hd).trans (h.ctxs d hd)⟩

theorem resetAfter_frame {s t : State} {c : CtxId} (h : s.resetAfter c = .ok t) : BodyFrame c s t := by
  obtain ⟨X, -, hX⟩ := Except.bind_eq_ok.1 h
  rw [← Except.ok.inj hX]
  exact BodyFrame.setCtx s c X

theorem output_frame {s t : State} {c : CtxId} {off : Half} {n : Nat} (h : s.output c off n = .ok t) :
    BodyFrame c s t := by
  rw [s.output_ok] at h
  rw [← Except.ok.inj h]
  exact (BodyFrame.setCtx s c _).memWrite _ _

theorem output_reset_frame {s t : State} {c : CtxId} {off : Half} {n : Nat}
    (h : (do let u ← s.output c off n; u.resetAfter c) = .ok t) : BodyFrame c s t := by
  obtain ⟨u, hu, ht⟩ := Except.bind_eq_ok.1 h
  exact (output_frame hu).trans (resetAfter_frame ht)

/-- The frame of every command's body. -/
theorem body_frame {i : Instr} {s t : State} (h : bodyOf i s = .ok t) : BodyFrame (ctxOf i) s t := by
  cases i with
  | config c v n =>
    change configBody c v n s = .ok t at h
    cases hr : configRow v n with
    | error e => rw [configBody_error s c hr] at h; cases h
    | ok row =>
      rw [configBody_ok s c hr] at h
      rw [← Except.ok.inj h]
      exact BodyFrame.setCtx s c _
  | reset c =>
    change resetBody c s = .ok t at h
    rw [resetBody_eq] at h
    split at h
    · exact resetAfter_frame h
    · cases h
  | updateByte c b =>
    change updateByteBody c b s = .ok t at h
    rw [updateByteBody_eq] at h
    split at h
    · split at h
      · rw [← Except.ok.inj h]; exact BodyFrame.setCtx s c _
      · cases h
    · cases h
  | update c off len =>
    change updateBody c off len s = .ok t at h
    rw [updateBody_eq] at h
    split at h
    · split at h
      · split at h
        · rw [← Except.ok.inj h]; exact BodyFrame.setCtx s c _
        · cases h
      · cases h
    · cases h
  | doFinal c off =>
    change doFinalBody c off s = .ok t at h
    rw [doFinalBody_eq] at h
    split at h
    · split at h
      · exact output_reset_frame h
      · cases h
    · cases h
  | doFinalXof c off len =>
    change doFinalXofBody c off len s = .ok t at h
    rw [doFinalXofBody_eq] at h
    split at h
    · split at h
      · split at h
        · exact output_reset_frame h
        · cases h
      · cases h
    · cases h
  | doOutput c off len =>
    change doOutputBody c off len s = .ok t at h
    rw [doOutputBody_eq] at h
    split at h
    · split at h
      · split at h
        · exact output_frame h
        · cases h
      · cases h
    · cases h
  | copy d c =>
    change copyBody d c s = .ok t at h
    rw [copyBody_eq] at h
    split at h
    · rw [← Except.ok.inj h]; exact BodyFrame.setCtx s d _
    · cases h
  | getDigestSize c =>
    change queryBody c (fun X => X.cfg.dsize) s = .ok t at h
    rw [queryBody_eq] at h
    split at h
    · rw [← Except.ok.inj h]; exact BodyFrame.setResult s _ _
    · cases h
  | getByteLength c =>
    change queryBody c (fun X => X.cfg.rate / 8) s = .ok t at h
    rw [queryBody_eq] at h
    split at h
    · rw [← Except.ok.inj h]; exact BodyFrame.setResult s _ _
    · cases h

end Sys2Proof.Machine
end

