-- ==== Sys2Proof/Laws/Command.lean ====
section
/-! SUPPORT. What Finish leaves, when CONFIG's checks pass, when the body of the finalize commands succeeds, and what no command reads. -/

namespace Sys2Proof.Machine

/-! ## Finish (R262) -/

/-- Finish over the state a command was issued in. -/
theorem finish_finished (s : State) (op : Byte) (c : CtxId) (e : Option ErrKind) : Finished s (s.finish op c e) op c e :=
  ⟨rfl, rfl, rfl, rfl, rfl, rfl, rfl, rfl, rfl, rfl, rfl⟩

/-- Finish(OK) over the state a command's body left. -/
theorem BodyFrame.finished {k : CtxId} {s t : State} (h : BodyFrame k s t) (op : Byte) (c : CtxId) :
    Finished s (t.finish op c none) op c none where
  err := rfl
  lastOp := rfl
  lastCtx := rfl
  sticky := by rw [State.finish_status, h.status]; rfl
  idle := rfl
  ovr := by rw [State.finish_status, h.status]; rfl
  arg := h.arg
  build := h.build
  inReset := h.inReset
  powerOns := h.powerOns
  host := h.host

/-- A command whose body succeeds ends in the body's state but for what Finish writes. -/
theorem exec_of_ok {i : Instr} {s u : State} (h : bodyOf i s = .ok u) :
    ∃ t, exec i s = .next t ∧ Finished s t (opOf i) (ctxOf i) none ∧
      t.ctxs = u.ctxs ∧ t.result = u.result ∧ t.mem = u.mem ∧ t.powerOns = u.powerOns :=
  ⟨_, exec_ok h, (body_frame h).finished _ _, rfl, rfl, rfl, rfl⟩

/-- A command whose body raises an error ends with nothing but STATUS written. -/
theorem exec_of_error {i : Instr} {s : State} {e : ErrKind} (h : bodyOf i s = .error e) :
    ∃ t, exec i s = .next t ∧ Finished s t (opOf i) (ctxOf i) (some e) ∧ Unmutated s t :=
  ⟨_, exec_error h, finish_finished _ _ _ _, rfl, rfl, fun _ => rfl⟩

/-- No command stops the machine. -/
theorem exec_next (i : Instr) (s : State) : ∃ t, exec i s = .next t := by
  cases h : bodyOf i s with
  | ok u => exact ⟨_, exec_ok h⟩
  | error e => exact ⟨_, exec_error h⟩

/-! ## CONFIG's operands (R160, R190) -/

theorem variantRow_exists (v : Variant) (n : Nat) :
    (∃ r, variantRow v n = some r) ↔ n ∈ (variantTable.filter fun r => r.variant = v).map Cfg.bitlen := by
  rw [← Option.isSome_iff_exists, variantRow, List.find?_isSome]
  simp only [List.mem_map, List.mem_filter, decide_eq_true_eq]
  constructor
  · rintro ⟨r, hr, hv, hn⟩
    exact ⟨r, ⟨hr, hv⟩, hn⟩
  · rintro ⟨r, ⟨hr, hv⟩, hn⟩
    exact ⟨r, hr, hv, hn⟩

theorem variantOfCode_none {v : Byte} (h0 : v ≠ 0) (h1 : v ≠ 1) (h2 : v ≠ 2) : variantOfCode v = none := by
  have h0 : v.toNat ≠ 0 := fun h => h0 (BitVec.eq_of_toNat_eq h)
  have h1 : v.toNat ≠ 1 := fun h => h1 (BitVec.eq_of_toNat_eq h)
  have h2 : v.toNat ≠ 2 := fun h => h2 (BitVec.eq_of_toNat_eq h)
  unfold variantOfCode
  split <;> first | rfl | contradiction

/-- CONFIG's check P3 passes exactly on the bit lengths of R190. -/
theorem configRow_exists (v : Byte) (n : Half) : (∃ r, configRow v n = .ok r) ↔ n.toNat ∈ bitLengths v := by
  have split : (∃ r, configRow v n = .ok r) ↔
      ∃ var, variantOfCode v = some var ∧ ∃ r, variantRow var n.toNat = some r := by
    simp only [configRow_ok]
    exact ⟨fun ⟨r, var, h, g⟩ => ⟨var, h, r, g⟩, fun ⟨var, h, r, g⟩ => ⟨r, var, h, g⟩⟩
  rw [split]
  simp only [variantRow_exists]
  have row : ∀ {code : Byte} {var : Variant}, variantOfCode code = some var →
      bitLengths code = (variantTable.filter fun r => r.variant = var).map Cfg.bitlen →
      ((∃ w, variantOfCode code = some w ∧ n.toNat ∈ (variantTable.filter fun r => r.variant = w).map Cfg.bitlen) ↔
        n.toNat ∈ bitLengths code) := by
    intro code var h g
    rw [h, g]
    simp only [Option.some.injEq, exists_eq_left']
  by_cases h0 : v = 0
  · subst h0
    exact row (var := .keccak) rfl (by decide)
  by_cases h1 : v = 1
  · subst h1
    exact row (var := .sha3) rfl (by decide)
  by_cases h2 : v = 2
  · subst h2
    exact row (var := .shake) rfl (by decide)
  rw [variantOfCode_none h0 h1 h2, bitLengths, if_neg h0, if_neg h1, if_neg h2]
  simp

/-! ## The body the finalize commands share -/

@[simp] theorem Context.squeezeLoop_cfg (fuel : Nat) : ∀ (X : Context) (left : Nat),
    (Context.squeezeLoop fuel X left).1.cfg = X.cfg := by
  induction fuel with
  | zero => intro _ _; rfl
  | succ fuel ih =>
    intro X left
    unfold Context.squeezeLoop
    split
    · rfl
    · simp only [ih, Context.refill_cfg]

/-- Output and then Reset succeed on every context whose rate and capacity Init accepts. -/
theorem State.output_reset_ok (s : State) (c : CtxId) (off : Half) (n : Nat)
    (h : rateLegal (s.ctx c).cfg.rate (s.ctx c).cfg.capacity) :
    ∃ u, (do let t ← s.output c off n; t.resetAfter c) = .ok u := by
  rw [s.output_ok]
  refine ⟨_, State.resetAfter_ok _ ?_⟩
  rw [State.memWrite_ctx, State.ctx_setCtx_same, Context.squeezeLoop_cfg, Context.toSqueezing_cfg,
    Context.injectSuffix_cfg]
  exact h

/-- A write-back of one context does not move the buffer memory. -/
theorem State.memByte_setCtx_memWrite (s : State) (c : CtxId) (X : Context) (a : Nat) (vs : List Byte) (b : Nat) :
    ((s.setCtx c X).memWrite a vs).memByte b = (s.memWrite a vs).memByte b := rfl

/-! ## The invariant, context by context (R32) -/

/-- A configured context keeps its invariants if it is legal and Squeezing only as SHAKE. -/
theorem Context.Legal.inv {X : Context} (hl : X.Legal) (hv : X.valid = true)
    (hp : X.cfg.xof = false → X.phase = .absorbing) : X.Inv :=
  ⟨fun _ => hl, hp, fun h => absurd (h.symm.trans hv) Bool.false_ne_true⟩

theorem Context.powerOn_inv : Context.powerOn.Inv :=
  ⟨fun h => absurd h Bool.false_ne_true, fun _ => rfl, fun _ => rfl⟩

/-- A context the build has may be replaced by any that keeps its invariants. -/
theorem State.Inv.setCtx {s : State} (h : s.Inv) {c : CtxId} (hc : ctxInRange s.build c) {X : Context} (hX : X.Inv) :
    (s.setCtx c X).Inv where
  build := h.build
  memWf := h.memWf
  memBelow := h.memBelow
  ctxs := fun d => by
    rw [State.ctx_setCtx]
    split
    · exact hX
    · exact h.ctxs d
  absent := fun d hd => by
    rw [State.ctx_setCtx, if_neg (by rintro rfl; exact hd hc)]
    exact h.absent d hd
  resetIdle := h.resetIdle

/-- Bytes written within the buffer memory keep them. -/
theorem State.Inv.memWrite {s : State} (h : s.Inv) {a : Nat} {vs : List Byte} (hle : a + vs.length ≤ s.build.memsz) :
    (s.memWrite a vs).Inv :=
  ⟨h.build, Memory.wf_writeBytes vs a h.memWf, Memory.below_writeBytes vs h.memBelow hle, h.ctxs, h.absent, h.resetIdle⟩

/-- Finish keeps them. -/
theorem State.Inv.finish {s : State} (h : s.Inv) (op : Byte) (c : CtxId) (e : Option ErrKind) : (s.finish op c e).Inv :=
  ⟨h.build, h.memWf, h.memBelow, h.ctxs, h.absent, fun _ => rfl⟩

/-! ## What no command reads -/

/-- The state with another value in each field that is the Host's or the issue's own. -/
def State.withIssue (s : State) (g : HostSide) (a : Reg) (r : Bool) (w : Option CmdWord) : State :=
  { s with host := g, arg := a, inReset := r, inFlight := w }

theorem State.withIssue_ctx (s : State) (g : HostSide) (a : Reg) (r : Bool) (w : Option CmdWord) (c : CtxId) :
    (s.withIssue g a r w).ctx c = s.ctx c := rfl

theorem output_withIssue (s : State) (g : HostSide) (a : Reg) (r : Bool) (w : Option CmdWord) (c : CtxId) (off : Half)
    (n : Nat) : (s.withIssue g a r w).output c off n = (s.output c off n).map fun u => State.withIssue u g a r w := by
  rw [State.output_ok, State.output_ok]
  rfl

theorem resetAfter_withIssue (s : State) (g : HostSide) (a : Reg) (r : Bool) (w : Option CmdWord) (c : CtxId) :
    (s.withIssue g a r w).resetAfter c = (s.resetAfter c).map fun u => State.withIssue u g a r w := by
  unfold State.resetAfter
  rw [State.withIssue_ctx]
  cases (s.ctx c).resetSponge <;> rfl

theorem output_reset_withIssue (s : State) (g : HostSide) (a : Reg) (r : Bool) (w : Option CmdWord) (c : CtxId)
    (off : Half) (n : Nat) :
    (do let t ← (s.withIssue g a r w).output c off n; t.resetAfter c) =
      (do let t ← s.output c off n; t.resetAfter c).map fun u => State.withIssue u g a r w := by
  rw [output_withIssue, s.output_ok]
  exact resetAfter_withIssue _ g a r w c

/-- A body reads none of those fields. -/
theorem body_withIssue (i : Instr) (s : State) (g : HostSide) (a : Reg) (r : Bool) (w : Option CmdWord) :
    bodyOf i (s.withIssue g a r w) = (bodyOf i s).map fun u => State.withIssue u g a r w := by
  cases i with
  | config c v n =>
    show configBody c v n _ = (configBody c v n s).map _
    cases h : configRow v n with
    | error e => rw [configBody_error _ c h, configBody_error _ c h]; rfl
    | ok row => rw [configBody_ok _ c h, configBody_ok _ c h]; rfl
  | reset c =>
    show resetBody c _ = (resetBody c s).map _
    rw [resetBody_eq, resetBody_eq, State.withIssue_ctx]
    split
    · exact resetAfter_withIssue s g a r w c
    · rfl
  | updateByte c b =>
    show updateByteBody c b _ = (updateByteBody c b s).map _
    rw [updateByteBody_eq, updateByteBody_eq, State.withIssue_ctx]
    split_ifs <;> rfl
  | update c off len =>
    show updateBody c off len _ = (updateBody c off len s).map _
    rw [updateBody_eq, updateBody_eq, State.withIssue_ctx, show (s.withIssue g a r w).build = s.build from rfl]
    split_ifs <;> rfl
  | doFinal c off =>
    show doFinalBody c off _ = (doFinalBody c off s).map _
    rw [doFinalBody_eq, doFinalBody_eq, State.withIssue_ctx, show (s.withIssue g a r w).build = s.build from rfl]
    split_ifs
    · exact output_reset_withIssue s g a r w c off _
    all_goals rfl
  | doFinalXof c off len =>
    show doFinalXofBody c off len _ = (doFinalXofBody c off len s).map _
    rw [doFinalXofBody_eq, doFinalXofBody_eq, State.withIssue_ctx, show (s.withIssue g a r w).build = s.build from rfl]
    split_ifs
    · exact output_reset_withIssue s g a r w c off _
    all_goals rfl
  | doOutput c off len =>
    show doOutputBody c off len _ = (doOutputBody c off len s).map _
    rw [doOutputBody_eq, doOutputBody_eq, State.withIssue_ctx, show (s.withIssue g a r w).build = s.build from rfl]
    split_ifs
    · exact output_withIssue s g a r w c off _
    all_goals rfl
  | copy d c =>
    show copyBody d c _ = (copyBody d c s).map _
    rw [copyBody_eq, copyBody_eq, State.withIssue_ctx]
    split_ifs <;> rfl
  | getDigestSize c =>
    show queryBody c (fun X => X.cfg.dsize) _ = (queryBody c (fun X => X.cfg.dsize) s).map _
    rw [queryBody_eq, queryBody_eq, State.withIssue_ctx]
    split_ifs <;> rfl
  | getByteLength c =>
    show queryBody c (fun X => X.cfg.rate / 8) _ = (queryBody c (fun X => X.cfg.rate / 8) s).map _
    rw [queryBody_eq, queryBody_eq, State.withIssue_ctx]
    split_ifs <;> rfl

/-- So a command does the same whatever they hold. -/
theorem exec_withIssue {i : Instr} {s t : State} (h : exec i s = .next t) (g : HostSide) (a : Reg) (r : Bool)
    (w : Option CmdWord) : exec i (s.withIssue g a r w) = .next (t.withIssue g a r none) := by
  rcases exec_cases h with ⟨u, hb, rfl⟩ | ⟨e, hb, rfl⟩
  · have hb' := body_withIssue i s g a r w
    rw [hb] at hb'
    exact exec_ok hb'
  · have hb' := body_withIssue i s g a r w
    rw [hb] at hb'
    exact exec_error hb'

end Sys2Proof.Machine
end

