-- ==== Sys2Proof/Laws/Decode.lean ====
section
/-! SUPPORT. The command word bit by bit, the fields of a packed word, and when the decoder accepts a word (spec/30_encoding.md R91, R97). -/

namespace Sys2Proof

/-- A placed field, bit by bit. -/
theorem getLsbD_placeField (n : Nat) {w : Nat} (lo : Nat) (v : BitVec w) {k : Nat} (hk : k < n) :
    (placeField n lo v).getLsbD k = (decide (lo ≤ k) && v.getLsbD (k - lo)) := by
  rw [placeField, BitVec.getLsbD_shiftLeft, BitVec.getLsbD_setWidth]
  by_cases h : lo ≤ k
  · have h1 : ¬ k < lo := by omega
    have h2 : k - lo < n := by omega
    simp [hk, h, h1, h2]
  · have h1 : k < lo := by omega
    simp [h, h1]

/-- A word whose `rsv` is 0, field by field (R91). -/
theorem getLsbD_packWord (op : Byte) (c c2 : CtxId) (imm : Byte) (off len : Half) {k : Nat} (hk : k < 64) :
    (packWord op c c2 imm off len).getLsbD k =
      if k < 8 then op.getLsbD k else if k < 12 then c.getLsbD (k - 8) else if k < 16 then c2.getLsbD (k - 12)
      else if k < 24 then imm.getLsbD (k - 16) else if k < 32 then false else if k < 48 then off.getLsbD (k - 32)
      else len.getLsbD (k - 48) := by
  have hge : ∀ {w : Nat} (v : BitVec w) (j : Nat), w ≤ j → v.getLsbD j = false := fun v j h => BitVec.getLsbD_of_ge v j h
  simp only [packWord, BitVec.getLsbD_or, getLsbD_placeField 64 _ _ hk]
  split_ifs with h8 h12 h16 h24 h32 h48
  · simp [show ¬ 8 ≤ k by omega, show ¬ 12 ≤ k by omega, show ¬ 16 ≤ k by omega, show ¬ 32 ≤ k by omega,
      show ¬ 48 ≤ k by omega]
  · simp [show 8 ≤ k by omega, show ¬ 12 ≤ k by omega, show ¬ 16 ≤ k by omega,
      show ¬ 32 ≤ k by omega, show ¬ 48 ≤ k by omega]
  · simp [hge op k (by omega), hge c (k - 8) (by omega), show 12 ≤ k by omega, show ¬ 16 ≤ k by omega,
      show ¬ 32 ≤ k by omega, show ¬ 48 ≤ k by omega]
  · simp [hge op k (by omega), hge c (k - 8) (by omega), hge c2 (k - 12) (by omega), show 16 ≤ k by omega,
      show ¬ 32 ≤ k by omega, show ¬ 48 ≤ k by omega]
  · simp [hge op k (by omega), hge c (k - 8) (by omega), hge c2 (k - 12) (by omega), hge imm (k - 16) (by omega),
      show ¬ 32 ≤ k by omega, show ¬ 48 ≤ k by omega]
  · simp [hge op k (by omega), hge c (k - 8) (by omega), hge c2 (k - 12) (by omega), hge imm (k - 16) (by omega),
      show 32 ≤ k by omega, show ¬ 48 ≤ k by omega]
  · simp [hge op k (by omega), hge c (k - 8) (by omega), hge c2 (k - 12) (by omega), hge imm (k - 16) (by omega),
      hge off (k - 32) (by omega), show 48 ≤ k by omega]

/-- {ARG, CMD} bit by bit. -/
theorem getLsbD_joinWord (a v : Reg) {k : Nat} (hk : k < 64) :
    (joinWord a v).getLsbD k = if k < 32 then v.getLsbD k else a.getLsbD (k - 32) := by
  simp only [joinWord, BitVec.getLsbD_or, getLsbD_placeField 64 _ _ hk]
  split_ifs with h
  · simp [show ¬ 32 ≤ k by omega]
  · simp [show 32 ≤ k by omega]

/-- Joining the halves of a word gives it back. -/
theorem joinWord_halves (w : CmdWord) : joinWord (w.extractLsb' 32 32) (w.extractLsb' 0 32) = w := by
  apply BitVec.eq_of_getLsbD_eq
  intro k hk
  rw [getLsbD_joinWord _ _ hk]
  split_ifs with h
  · simp [h]
  · simp [show k - 32 < 32 by omega, show 32 + (k - 32) = k by omega]

variable (op : Byte) (c c2 : CtxId) (imm : Byte) (off len : Half)

@[simp] theorem fieldOp_packWord : fieldOp (packWord op c c2 imm off len) = op := by
  apply BitVec.eq_of_getLsbD_eq
  intro k hk
  rw [fieldOp, BitVec.getLsbD_extractLsb', getLsbD_packWord _ _ _ _ _ _ (by omega)]
  simp [hk]

@[simp] theorem fieldCtx_packWord : fieldCtx (packWord op c c2 imm off len) = c := by
  apply BitVec.eq_of_getLsbD_eq
  intro k hk
  rw [fieldCtx, BitVec.getLsbD_extractLsb', getLsbD_packWord _ _ _ _ _ _ (by omega), if_neg (by omega), if_pos (by omega), Nat.add_sub_cancel_left]
  simp [hk]

@[simp] theorem fieldCtx2_packWord : fieldCtx2 (packWord op c c2 imm off len) = c2 := by
  apply BitVec.eq_of_getLsbD_eq
  intro k hk
  rw [fieldCtx2, BitVec.getLsbD_extractLsb', getLsbD_packWord _ _ _ _ _ _ (by omega), if_neg (by omega), if_neg (by omega), if_pos (by omega),
    Nat.add_sub_cancel_left]
  simp [hk]

@[simp] theorem fieldImm8_packWord : fieldImm8 (packWord op c c2 imm off len) = imm := by
  apply BitVec.eq_of_getLsbD_eq
  intro k hk
  rw [fieldImm8, BitVec.getLsbD_extractLsb', getLsbD_packWord _ _ _ _ _ _ (by omega), if_neg (by omega), if_neg (by omega), if_neg (by omega),
    if_pos (by omega), Nat.add_sub_cancel_left]
  simp [hk]

@[simp] theorem fieldRsv_packWord : fieldRsv (packWord op c c2 imm off len) = 0 := by
  apply BitVec.eq_of_getLsbD_eq
  intro k hk
  rw [fieldRsv, BitVec.getLsbD_extractLsb', getLsbD_packWord _ _ _ _ _ _ (by omega), if_neg (by omega), if_neg (by omega), if_neg (by omega),
    if_neg (by omega), if_pos (by omega)]
  simp

@[simp] theorem fieldOff_packWord : fieldOff (packWord op c c2 imm off len) = off := by
  apply BitVec.eq_of_getLsbD_eq
  intro k hk
  rw [fieldOff, BitVec.getLsbD_extractLsb', getLsbD_packWord _ _ _ _ _ _ (by omega), if_neg (by omega), if_neg (by omega), if_neg (by omega),
    if_neg (by omega), if_neg (by omega), if_pos (by omega), Nat.add_sub_cancel_left]
  simp [hk]

@[simp] theorem fieldLen_packWord : fieldLen (packWord op c c2 imm off len) = len := by
  apply BitVec.eq_of_getLsbD_eq
  intro k hk
  rw [fieldLen, BitVec.getLsbD_extractLsb', getLsbD_packWord _ _ _ _ _ _ (by omega), if_neg (by omega), if_neg (by omega), if_neg (by omega),
    if_neg (by omega), if_neg (by omega), if_neg (by omega), Nat.add_sub_cancel_left]
  simp [hk]

/-- A word whose `rsv` is 0 is its fields. -/
theorem packWord_fields {w : CmdWord} (h : fieldRsv w = 0) :
    packWord (fieldOp w) (fieldCtx w) (fieldCtx2 w) (fieldImm8 w) (fieldOff w) (fieldLen w) = w := by
  apply BitVec.eq_of_getLsbD_eq
  intro k hk
  rw [getLsbD_packWord _ _ _ _ _ _ hk]
  simp only [fieldOp, fieldCtx, fieldCtx2, fieldImm8, fieldOff, fieldLen, BitVec.getLsbD_extractLsb']
  split_ifs with h8 h12 h16 h24 h32 h48
  · simp [h8]
  · simp [show k - 8 < 4 by omega, show 8 + (k - 8) = k by omega]
  · simp [show k - 12 < 4 by omega, show 12 + (k - 12) = k by omega]
  · simp [show k - 16 < 8 by omega, show 16 + (k - 16) = k by omega]
  · have := congrArg (fun r : Byte => r.getLsbD (k - 24)) h
    simp only [fieldRsv, BitVec.getLsbD_extractLsb', show k - 24 < 8 by omega, show 24 + (k - 24) = k by omega] at this
    simpa using this.symm
  · simp [show k - 32 < 16 by omega, show 32 + (k - 32) = k by omega]
  · simp [show k - 48 < 16 by omega, show 48 + (k - 48) = k by omega]

/-! ## When the decoder accepts a word -/

theorem fieldOp_eq_iff (w : CmdWord) {k : Nat} (hk : k < 256) : (fieldOp w).toNat = k ↔ fieldOp w = BitVec.ofNat 8 k := by
  constructor
  · intro h
    apply BitVec.eq_of_toNat_eq
    rw [h, BitVec.toNat_ofNat, Nat.mod_eq_of_lt hk]
  · intro h
    rw [h, BitVec.toNat_ofNat, Nat.mod_eq_of_lt hk]

theorem commandOf_some {w : CmdWord} {i : Instr} (h : commandOf w = some i) :
    (1 ≤ (fieldOp w).toNat ∧ (fieldOp w).toNat ≤ 10) ∧ opOf i = fieldOp w ∧ ctxOf i = fieldCtx w := by
  unfold commandOf at h
  split at h <;> simp only [Option.some.injEq, reduceCtorEq] at h <;> subst h <;> rename_i h1 <;>
    refine ⟨by omega, ?_, rfl⟩ <;> apply BitVec.eq_of_toNat_eq <;> rw [h1] <;> rfl

theorem commandOf_none {w : CmdWord} (h : commandOf w = none) : ¬ (1 ≤ (fieldOp w).toNat ∧ (fieldOp w).toNat ≤ 10) := by
  unfold commandOf at h
  split at h
  all_goals first
    | (simp only [reduceCtorEq] at h; done)
    | (simp only [imp_false] at *; omega)

/-- The decoder gives command i exactly when `op` names it and no line of R97 rejects the word. -/
theorem decode_eq_ok {b : Build} {w : CmdWord} {i : Instr} : decode b w = .ok i ↔
    commandOf w = some i ∧ fieldRsv w = 0 ∧ (fieldOp w ≠ 0x08 → fieldCtx2 w = 0) ∧
    (fieldOp w ≠ 0x01 → fieldOp w ≠ 0x03 → fieldImm8 w = 0) ∧ ctxInRange b (fieldCtx w) ∧
    (fieldOp w = 0x08 → ctxInRange b (fieldCtx2 w)) := by
  unfold decode
  cases commandOf w with
  | none => simp
  | some j =>
    simp only [Option.some.injEq]
    split_ifs with h1 h2 h3 h4 h5
    all_goals first
      | (simp only [false_iff]; tauto)
      | (simp only [Except.ok.injEq]; tauto)

end Sys2Proof
end

