-- ==== Sys2Proof/Laws/PerInstr.lean ====
section
/-! SUPPORT. Statements made command by command. EncodeFields: a command's word holds its op and ctx, rsv is 0, and so are ctx2 and imm8 where spec/30_encoding.md R93 says zero. -/

namespace Sys2Proof.Laws.EncodeFields

/-- The fields of a command's word that every command shares (R91, R93). -/
def Statement (i : Instr) : Prop :=
  fieldOp (encode i) = opOf i ∧ fieldCtx (encode i) = ctxOf i ∧ fieldRsv (encode i) = 0 ∧
  (opOf i ≠ 0x08 → fieldCtx2 (encode i) = 0) ∧ (opOf i ≠ 0x01 → opOf i ≠ 0x03 → fieldImm8 (encode i) = 0)

/-- The same of a word packed from its fields. -/
theorem of_packWord {i : Instr} {op : Byte} {c c2 : CtxId} {imm8 : Byte} {off len : Half}
    (h : encode i = packWord op c c2 imm8 off len) (hop : opOf i = op) (hc : ctxOf i = c)
    (h2 : op ≠ 0x08 → c2 = 0) (h8 : op ≠ 0x01 → op ≠ 0x03 → imm8 = 0) : Statement i := by
  rw [Statement, h, hop, hc]
  exact ⟨fieldOp_packWord .., fieldCtx_packWord .., fieldRsv_packWord ..,
    fun h => (fieldCtx2_packWord ..).trans (h2 h), fun h g => (fieldImm8_packWord ..).trans (h8 h g)⟩

theorem config (c : CtxId) (v : Byte) (n : Half) : Statement (.config c v n) :=
  of_packWord rfl rfl rfl (fun _ => rfl) (fun h _ => absurd rfl h)

theorem reset (c : CtxId) : Statement (.reset c) :=
  of_packWord rfl rfl rfl (fun _ => rfl) (fun _ _ => rfl)

theorem updateByte (c : CtxId) (b : Byte) : Statement (.updateByte c b) :=
  of_packWord rfl rfl rfl (fun _ => rfl) (fun _ h => absurd rfl h)

theorem update (c : CtxId) (off : Half) (len : Half) : Statement (.update c off len) :=
  of_packWord rfl rfl rfl (fun _ => rfl) (fun _ _ => rfl)

theorem doFinal (c : CtxId) (off : Half) : Statement (.doFinal c off) :=
  of_packWord rfl rfl rfl (fun _ => rfl) (fun _ _ => rfl)

theorem doFinalXof (c : CtxId) (off : Half) (len : Half) : Statement (.doFinalXof c off len) :=
  of_packWord rfl rfl rfl (fun _ => rfl) (fun _ _ => rfl)

theorem doOutput (c : CtxId) (off : Half) (len : Half) : Statement (.doOutput c off len) :=
  of_packWord rfl rfl rfl (fun _ => rfl) (fun _ _ => rfl)

theorem copy (d : CtxId) (c : CtxId) : Statement (.copy d c) :=
  of_packWord rfl rfl rfl (fun h => absurd rfl h) (fun _ _ => rfl)

theorem getDigestSize (c : CtxId) : Statement (.getDigestSize c) :=
  of_packWord rfl rfl rfl (fun _ => rfl) (fun _ _ => rfl)

theorem getByteLength (c : CtxId) : Statement (.getByteLength c) :=
  of_packWord rfl rfl rfl (fun _ => rfl) (fun _ _ => rfl)

end Sys2Proof.Laws.EncodeFields
end

