-- ==== Sys2Proof/Laws/Work.lean ====
section
/-! SUPPORT. The counted engine operations: the value of each is the operation's own, and what each counts. -/

namespace Sys2Proof.Machine

@[simp] theorem Counted.free_fst {α : Type} (a : α) : (Counted.free a).1 = a := rfl
@[simp] theorem Counted.free_snd {α : Type} (a : α) : (Counted.free a).2 = 0 := rfl
@[simp] theorem Counted.andThen_fst {α β : Type} (p : Counted α) (f : α → Counted β) : (p.andThen f).1 = (f p.1).1 := rfl
@[simp] theorem Counted.andThen_snd {α β : Type} (p : Counted α) (f : α → Counted β) :
    (p.andThen f).2 = p.2 + (f p.1).2 := rfl
@[simp] theorem countedKeccakF_fst (A : Lanes) : (countedKeccakF A).1 = keccakF A := rfl
@[simp] theorem countedKeccakF_snd (A : Lanes) : (countedKeccakF A).2 = 1 := rfl

/-- The value of a choice between counted computations. -/
theorem Counted.ite_fst {α : Type} (p : Prop) [Decidable p] (a b : Counted α) :
    (if p then a else b).1 = if p then a.1 else b.1 := by split <;> rfl

/-- The count of a choice between counted computations. -/
theorem Counted.ite_snd {α : Type} (p : Prop) [Decidable p] (a b : Counted α) :
    (if p then a else b).2 = if p then a.2 else b.2 := by split <;> rfl

@[simp] theorem Context.absorbBlockCounted_fst (X : Context) : X.absorbBlockCounted.1 = X.absorbBlock := rfl
@[simp] theorem Context.absorbBlockCounted_snd (X : Context) : X.absorbBlockCounted.2 = 1 := rfl

@[simp] theorem Context.absorbIfFullCounted_fst (X : Context) : X.absorbIfFullCounted.1 = X.absorbIfFull :=
  Counted.ite_fst _ _ _

theorem Context.absorbIfFullCounted_snd (X : Context) :
    X.absorbIfFullCounted.2 = if X.biq = X.cfg.rate then 1 else 0 := Counted.ite_snd _ _ _

@[simp] theorem Context.absorbByteCounted_fst (X : Context) (b : Byte) : (X.absorbByteCounted b).1 = X.absorbByte b :=
  Context.absorbIfFullCounted_fst _

theorem Context.absorbByteCounted_snd (X : Context) (b : Byte) :
    (X.absorbByteCounted b).2 = if X.biq + 8 = X.cfg.rate then 1 else 0 := Context.absorbIfFullCounted_snd _

@[simp] theorem Context.absorbBytesCounted_fst (bs : List Byte) : ∀ X : Context,
    (X.absorbBytesCounted bs).1 = X.absorbBytes bs := by
  induction bs with
  | nil => exact fun _ => rfl
  | cons b bs ih =>
    intro X
    rw [Context.absorbBytesCounted, Counted.andThen_fst, Context.absorbByteCounted_fst, ih]
    rfl

theorem Context.absorbBytesCounted_cons_snd (X : Context) (b : Byte) (bs : List Byte) :
    (X.absorbBytesCounted (b :: bs)).2 =
      (if X.biq + 8 = X.cfg.rate then 1 else 0) + ((X.absorbByte b).absorbBytesCounted bs).2 := by
  rw [Context.absorbBytesCounted, Counted.andThen_snd, Context.absorbByteCounted_snd, Context.absorbByteCounted_fst]

@[simp] theorem Context.absorbBitsCounted_fst (X : Context) (v : Byte) (n : Nat) :
    (X.absorbBitsCounted v n).1 = X.absorbBits v n := by
  unfold Context.absorbBitsCounted Context.absorbBits
  split
  · rfl
  · exact Context.absorbIfFullCounted_fst _

@[simp] theorem Context.injectSuffixCounted_fst (X : Context) : X.injectSuffixCounted.1 = X.injectSuffix := by
  rw [Context.injectSuffixCounted, Counted.ite_fst, Context.absorbBitsCounted_fst]
  rfl

theorem Context.injectSuffixCounted_snd (X : Context) : X.injectSuffixCounted.2 =
    if X.phase = .absorbing ∧ X.cfg.sfxLen ≠ 0 ∧ X.biq + X.cfg.sfxLen = X.cfg.rate then 1 else 0 := by
  unfold Context.injectSuffixCounted Context.absorbBitsCounted
  by_cases hp : X.phase = .absorbing <;> by_cases hs : X.cfg.sfxLen = 0 <;>
    simp [hp, hs, Context.absorbIfFullCounted_snd]

@[simp] theorem Context.padSwitchCounted_fst (X : Context) : X.padSwitchCounted.1 = X.padSwitch := by
  unfold Context.padSwitchCounted Context.padSwitch Context.padded
  simp only [Counted.andThen_fst, Counted.free_fst, Counted.ite_fst, Context.absorbBlockCounted_fst]

theorem Context.padSwitchCounted_snd (X : Context) :
    X.padSwitchCounted.2 = if X.biq + 1 = X.cfg.rate then 2 else 1 := by
  unfold Context.padSwitchCounted
  simp only [Counted.andThen_snd, Counted.free_snd, Counted.ite_snd, Context.absorbBlockCounted_snd]
  split <;> rfl

@[simp] theorem Context.toSqueezingCounted_fst (X : Context) : X.toSqueezingCounted.1 = X.toSqueezing := by
  rw [Context.toSqueezingCounted, Counted.ite_fst, Context.padSwitchCounted_fst]
  rfl

theorem Context.toSqueezingCounted_snd (X : Context) : X.toSqueezingCounted.2 =
    if X.phase = .absorbing then (if X.biq + 1 = X.cfg.rate then 2 else 1) else 0 := by
  rw [Context.toSqueezingCounted, Counted.ite_snd, Context.padSwitchCounted_snd]
  rfl

@[simp] theorem Context.refillCounted_fst (X : Context) : X.refillCounted.1 = X.refill := by
  rw [Context.refillCounted, Counted.ite_fst]
  rfl

theorem Context.refillCounted_snd (X : Context) : X.refillCounted.2 = if X.bas = 0 then 1 else 0 := by
  rw [Context.refillCounted, Counted.ite_snd]
  rfl

@[simp] theorem Context.squeezeLoopCounted_fst (fuel : Nat) : ∀ (X : Context) (left : Nat),
    (Context.squeezeLoopCounted fuel X left).1 = Context.squeezeLoop fuel X left := by
  induction fuel with
  | zero => exact fun _ _ => rfl
  | succ fuel ih =>
    intro X left
    unfold Context.squeezeLoopCounted Context.squeezeLoop
    simp only [Counted.ite_fst, Counted.andThen_fst, Counted.free_fst, Context.refillCounted_fst, ih]

theorem Context.squeezeLoopCounted_succ_snd (fuel : Nat) (X : Context) (left : Nat) :
    (Context.squeezeLoopCounted (fuel + 1) X left).2 =
      if left = 0 then 0
      else (if X.bas = 0 then 1 else 0) +
        (Context.squeezeLoopCounted fuel { X.refill with bas := X.refill.bas - min X.refill.bas left }
          (left - min X.refill.bas left)).2 := by
  rw [Context.squeezeLoopCounted, Counted.ite_snd, Counted.andThen_snd, Context.refillCounted_snd,
    Context.refillCounted_fst]
  rfl

@[simp] theorem Context.outputCounted_fst (X : Context) (n : Nat) :
    (X.outputCounted n).1 = Context.squeezeLoop (8 * n) X.injectSuffix.toSqueezing (8 * n) := by
  simp only [Context.outputCounted, Counted.andThen_fst, Context.injectSuffixCounted_fst,
    Context.toSqueezingCounted_fst, Context.squeezeLoopCounted_fst]

theorem Context.outputCounted_snd (X : Context) (n : Nat) : (X.outputCounted n).2 =
    X.injectSuffixCounted.2 + (X.injectSuffix.toSqueezingCounted.2 +
      (Context.squeezeLoopCounted (8 * n) X.injectSuffix.toSqueezing (8 * n)).2) := by
  simp only [Context.outputCounted, Counted.andThen_snd, Context.injectSuffixCounted_fst, Context.toSqueezingCounted_fst]

end Sys2Proof.Machine
end

