-- ==== Sys2Proof/Tests/Slice0.lean ====
section
/-! SUPPORT. Checks of our own: ill-formed commands, words written out from the encoding, one step per command against spec/95_test_vectors.md, and for each statement with hypotheses a state and operands that meet them. -/

-- One theorem at a time: elaborated side by side, each takes a thread and its stack.
set_option Elab.async false

namespace Sys2Proof.Tests

open Sys2Proof.Machine

/-! ## WellFormed: the context number of each command (R92), NCTX = 4 -/

theorem test_wf_rejects_config : wellFormed Config.defaultBuild (.config 4 1 256) = false := by decide
theorem test_wf_rejects_reset : wellFormed Config.defaultBuild (.reset 4) = false := by decide
theorem test_wf_rejects_updateByte : wellFormed Config.defaultBuild (.updateByte 15 0) = false := by decide
theorem test_wf_rejects_update : wellFormed Config.defaultBuild (.update 4 0 0) = false := by decide
theorem test_wf_rejects_doFinal : wellFormed Config.defaultBuild (.doFinal 4 0) = false := by decide
theorem test_wf_rejects_doFinalXof : wellFormed Config.defaultBuild (.doFinalXof 8 0 0) = false := by decide
theorem test_wf_rejects_doOutput : wellFormed Config.defaultBuild (.doOutput 5 0 0) = false := by decide
theorem test_wf_rejects_copy_dst : wellFormed Config.defaultBuild (.copy 4 0) = false := by decide
theorem test_wf_rejects_copy_src : wellFormed Config.defaultBuild (.copy 0 4) = false := by decide
theorem test_wf_rejects_getDigestSize : wellFormed Config.defaultBuild (.getDigestSize 4) = false := by decide
theorem test_wf_rejects_getByteLength : wellFormed Config.defaultBuild (.getByteLength 4) = false := by decide
theorem test_wf_accepts_last_context : wellFormed Config.defaultBuild (.copy 3 3) = true := by decide

/-! ## Words written out field by field from R91 and R95: LEN, OFF, rsv, imm8, ctx2, ctx, op -/

theorem test_bits_config : decode Config.defaultBuild
    (0b0000000100000000#16 ++ 0b0000000000000000#16 ++ 0b00000000#8 ++ 0b00000001#8 ++ 0b0000#4 ++ 0b0010#4 ++
      0b00000001#8) = .ok (.config 2 1 256) := by decide
theorem test_bits_reset : decode Config.defaultBuild
    (0b0000000000000000#16 ++ 0b0000000000000000#16 ++ 0b00000000#8 ++ 0b00000000#8 ++ 0b0000#4 ++ 0b0011#4 ++
      0b00000010#8) = .ok (.reset 3) := by decide
theorem test_bits_updateByte : decode Config.defaultBuild
    (0b0000000000000000#16 ++ 0b0000000000000000#16 ++ 0b00000000#8 ++ 0b01100001#8 ++ 0b0000#4 ++ 0b0001#4 ++
      0b00000011#8) = .ok (.updateByte 1 0x61) := by decide
theorem test_bits_update : decode Config.defaultBuild
    (0b0000000000000100#16 ++ 0b0000000000010000#16 ++ 0b00000000#8 ++ 0b00000000#8 ++ 0b0000#4 ++ 0b0000#4 ++
      0b00000100#8) = .ok (.update 0 0x10 4) := by decide
theorem test_bits_doFinal : decode Config.defaultBuild
    (0b0000000000000000#16 ++ 0b0000000100000000#16 ++ 0b00000000#8 ++ 0b00000000#8 ++ 0b0000#4 ++ 0b0001#4 ++
      0b00000101#8) = .ok (.doFinal 1 0x100) := by decide
theorem test_bits_doFinalXof : decode Config.defaultBuild
    (0b0000000001000000#16 ++ 0b0000001000000000#16 ++ 0b00000000#8 ++ 0b00000000#8 ++ 0b0000#4 ++ 0b0001#4 ++
      0b00000110#8) = .ok (.doFinalXof 1 0x200 64) := by decide
theorem test_bits_doOutput : decode Config.defaultBuild
    (0b0000000000001010#16 ++ 0b0000001000000000#16 ++ 0b00000000#8 ++ 0b00000000#8 ++ 0b0000#4 ++ 0b0001#4 ++
      0b00000111#8) = .ok (.doOutput 1 0x200 10) := by decide
theorem test_bits_copy : decode Config.defaultBuild
    (0b0000000000000000#16 ++ 0b0000000000000000#16 ++ 0b00000000#8 ++ 0b00000000#8 ++ 0b0011#4 ++ 0b0000#4 ++
      0b00001000#8) = .ok (.copy 0 3) := by decide
theorem test_bits_getDigestSize : decode Config.defaultBuild
    (0b0000000000000000#16 ++ 0b0000000000000000#16 ++ 0b00000000#8 ++ 0b00000000#8 ++ 0b0000#4 ++ 0b0000#4 ++
      0b00001001#8) = .ok (.getDigestSize 0) := by decide
theorem test_bits_getByteLength : decode Config.defaultBuild
    (0b0000000000000000#16 ++ 0b0000000000000000#16 ++ 0b00000000#8 ++ 0b00000000#8 ++ 0b0000#4 ++ 0b0011#4 ++
      0b00001010#8) = .ok (.getByteLength 3) := by decide

/-- V18: ignored OFF and LEN; then a word for each line of R97 that rejects. -/
theorem test_decode_ignores : decode Config.defaultBuild 0x1234567800000009 = .ok (.getDigestSize 0) := by decide
theorem test_decode_op_zero : decode Config.defaultBuild 0 = .error .undefinedOp := by decide
theorem test_decode_op_0B : decode Config.defaultBuild 0x0B = .error .undefinedOp := by decide
theorem test_decode_rsv : decode Config.defaultBuild 0x01000009 = .error .rsvNonzero := by decide
theorem test_decode_imm8 : decode Config.defaultBuild 0x00010002 = .error .imm8Nonzero := by decide
theorem test_decode_ctx2 : decode Config.defaultBuild 0x1004 = .error .ctx2Nonzero := by decide
theorem test_decode_ctx : decode Config.defaultBuild 0x040A = .error .ctxOutOfRange := by decide
theorem test_decode_copy_src : decode Config.defaultBuild 0x4008 = .error .ctx2OutOfRange := by decide
theorem test_decode_sixteen_contexts :
    decode { nctx := 16, memLog := 12, base := 0 } 0x040A = .ok (.getByteLength 4) := by decide
theorem test_decodeTableWord : decodeTableWord 32 0x3008 = some (.copy 0 3) := by decide

/-! ## The permutation (V13, V14, V12) -/

theorem test_rotl_wraps : rotl 0x8000000000000000 1 = 1 ∧ rotl 0x0123456789ABCDEF 64 = 0x0123456789ABCDEF ∧
    rotl 0x0123456789ABCDEF 8 = 0x23456789ABCDEF01 := by decide
theorem test_tables : roundConstant 1 = 0x8082 ∧ roundConstant 23 = 0x8000000080008008 ∧ rhoOffset 1 0 = 1 ∧
    rhoOffset 1 3 = 45 := by decide

/-- V12: the padded block of the empty SHA3-256 message in a zero state. -/
def block : Lanes := (lanesZero.set 0 0x6).set 16 0x8000000000000000

theorem test_theta : laneK (theta block) 16 = 0x8000000000000006 ∧ laneK (theta block) 4 = 0xC := by decide +kernel
theorem test_round_zero : laneK (rnd block 0) 0 = 0x0000040000000006 ∧ laneK (rnd block 0) 4 = 0x0000600000030000 ∧
    laneK (rnd block 0) 20 = 0x2000060000000000 := by decide +kernel

/-! ## One step per command -/

/-- A context just configured with row `r` of R160. -/
def fresh (r : Cfg) : Context := Context.cleared { Context.powerOn with valid := true, cfg := r }

def sha : Cfg := variantTable.getD 7 Cfg.zero
def shake : Cfg := variantTable.getD 10 Cfg.zero

/-- c0 is SHA3-256 and c1 SHAKE128, both fresh; the rest is as after reset. -/
def demo : State := (State.reset.setCtx 0 (fresh sha)).setCtx 1 (fresh shake)

/-- STATUS after the word w has run in s. -/
def statusAfter (s : State) (w : Nat) : Option Reg :=
  match step (s.withFetchWord 64 w) with
  | .next t => some t.statusWord
  | _ => none

/-- What `f` reads after a command. -/
def after {α : Type} (i : Instr) (s : State) (f : State → α) : Option α :=
  match exec i s with
  | .next t => some (f t)
  | _ => none

/-- V30, V3. -/
theorem test_config : statusAfter State.reset 0x0100000000010001 = some 0x100 := by decide +kernel
theorem test_config_error : statusAfter State.reset 0x00C8000000010001 = some 0x112 := by decide +kernel

/-- V31: RESET in the middle of absorption gives the fresh context back. -/
theorem test_reset : after (.reset 0) (demo.setCtx 0 ((fresh sha).absorbBytes [0, 1, 2])) (fun t => t.ctx 0) =
    some (fresh sha) := by decide +kernel
theorem test_reset_error : statusAfter demo 0x0202 = some 0x00020214 := by decide +kernel

/-- V40. -/
theorem test_updateByte : after (.updateByte 0 0x61) demo
    (fun t => (queueByte (t.ctx 0).queue 0, (t.ctx 0).biq)) = some (0x61, 8) := by decide +kernel
theorem test_updateByte_error : statusAfter demo 0x00610203 = some 0x00020314 := by decide +kernel

/-- Program P1 after its UPDATE; V50. -/
theorem test_update : after (.update 0 0x10 4) (demo.memWrite 0x10 [9, 1, 2, 3])
    (fun t => (queueByte (t.ctx 0).queue 0, queueByte (t.ctx 0).queue 3, (t.ctx 0).biq)) = some (9, 3, 32) := by
  decide +kernel
theorem test_update_error : statusAfter demo 0x00020FFF00000004 = some 0x0416 := by decide +kernel

/-- V20: the digest of the empty message; V50. -/
theorem test_doFinal : after (.doFinal 0 0x100) demo (fun t => (List.range 32).map fun i => t.mem.read? (0x100 + i)) =
    some ([0xa7, 0xff, 0xc6, 0xf8, 0xbf, 0x1e, 0xd7, 0x66, 0x51, 0xc1, 0x47, 0x56, 0xa0, 0x61, 0xd6, 0x62, 0xf5, 0x80,
      0xff, 0x4d, 0xe4, 0x3b, 0x49, 0xfa, 0x82, 0xd8, 0x0a, 0x4b, 0x80, 0xf8, 0x43, 0x4a].map some) := by decide +kernel
theorem test_doFinal_error : statusAfter demo 0x00000FE100000005 = some 0x0516 := by decide +kernel

/-- V42. -/
theorem test_doFinalXof_not_shake : statusAfter demo 0x0010000000000006 = some 0x0618 := by decide +kernel
theorem test_doFinalXof_error : statusAfter demo 0x00020FFF00000106 = some 0x00010616 := by decide +kernel

/-- V43: DO_OUTPUT c1, 0, 0 pads, permutes and extracts without writing; V50. -/
theorem test_doOutput : after (.doOutput 1 0 0) demo (fun t => ((t.ctx 1).bas, (t.ctx 1).phase,
    (List.range 4).map (queueByte (t.ctx 1).queue), t.mem)) =
    some (1344, .squeezing, [0x7F, 0x9C, 0x2B, 0xA4], []) := by decide +kernel
theorem test_doOutput_error : statusAfter demo 0x00C80FA000000007 = some 0x0718 := by decide +kernel

/-- V33. -/
theorem test_copy : after (.copy 3 0) demo (fun t => (t.ctx 3, t.statusWord)) = some (fresh sha, 0x00030800) := by
  decide +kernel
theorem test_copy_error : statusAfter demo 0x2008 = some 0x0814 := by decide +kernel

/-- V2, V34. -/
theorem test_getDigestSize : after (.getDigestSize 0) demo State.result = some 32 := by decide +kernel
theorem test_getDigestSize_error : statusAfter State.reset 0x0009 = some 0x0914 := by decide +kernel
theorem test_getByteLength : after (.getByteLength 1) demo State.result = some 168 := by decide +kernel
theorem test_getByteLength_error : statusAfter demo 0x020A = some 0x00020A14 := by decide +kernel

/-! ## The window (V15, V16, V17, V51, V52) -/

theorem test_id_words : idWord Config.defaultBuild = 0x0001434B ∧ idWord ⟨1, 8, 0⟩ = 0x0001004B ∧
    idWord ⟨2, 10, 0⟩ = 0x0001214B ∧ idWord ⟨16, 16, 0⟩ = 0x00018F4B := by decide
theorem test_stateByte : stateByte (lanesZero.set 0 0x7D828FE8A42B9C7F) 1 = 0x9C := by decide

/-- The answer to an access. -/
def answer (s : State) (a : BusAccess) : Option BusResponse :=
  match hostAccess a s with
  | .next t => t.host.response
  | _ => none

/-- STATUS after an access. -/
def statusAfterAccess (s : State) (a : BusAccess) : Option Reg :=
  match hostAccess a s with
  | .next t => some t.statusWord
  | _ => none

theorem test_little_endian : answer (demo.memWrite 0x100 [0x33, 0xBA, 0xD5, 0x43]) (.read .word 0x10100) =
    some (.data 0x43D5BA33) := by decide +kernel
theorem test_half_read : answer (demo.memWrite 0x100 [0x33, 0xBA, 0xD5, 0x43]) (.read .half 0x10102) =
    some (.data 0x43D5) := by decide +kernel
theorem test_byte_read_of_status : answer demo (.read .byte 0x008) = some .busError := by decide
theorem test_misaligned_read : answer demo (.read .word 0x10002) = some .busError := by decide
theorem test_reserved_read : answer demo (.read .byte 0x11000) = some (.data 0) := by decide
theorem test_write_clears_sticky : statusAfterAccess
    { demo with status := { Status.powerOn with sticky := true, lastOp := 4 } } (.write .word 0x008 0x10) =
      some 0x0400 := by decide
theorem test_dropped_command : statusAfterAccess
    { demo with status := { Status.powerOn with lastOp := 5 }, inFlight := some 4 } (.write .word 0x000 9) =
      some 0x0521 := by decide

/-! ## Witnesses: a state and operands that meet the hypotheses of each statement -/

theorem after_next {α : Type} {i : Instr} {s : State} {f : State → α} {x : α} (h : after i s f = some x) :
    ∃ t, exec i s = .next t ∧ f t = x := by
  obtain ⟨t, ht⟩ := exec_next i s
  rw [after, ht] at h
  exact ⟨t, ht, Option.some.inj h⟩

theorem sha_row : sha ∈ variantTable := by decide
theorem shake_row : shake ∈ variantTable := by decide

theorem fresh_legal {r : Cfg} (h : r ∈ variantTable) : (fresh r).Legal := Context.Legal.of_cleared h

/-- A SHAKE128 context that is Squeezing. -/
def squeezing : Context := (fresh shake).injectSuffix.toSqueezing

theorem squeezing_legal : squeezing.Legal := (fresh_legal shake_row).toSqueezing
theorem squeezing_phase : squeezing.phase = .squeezing := Context.toSqueezing_phase _
theorem squeezing_valid : squeezing.valid = true := (Context.toSqueezing_valid _).trans (Context.injectSuffix_valid _)
theorem squeezing_cfg : squeezing.cfg = shake := (Context.toSqueezing_cfg _).trans (Context.injectSuffix_cfg _)

theorem reset_ctx (c : CtxId) : State.reset.ctx c = Context.powerOn := by simp [State.ctx, State.reset, State.powerOn]

theorem demo_ctx (c : CtxId) :
    demo.ctx c = if c = 1 then fresh shake else if c = 0 then fresh sha else Context.powerOn := by
  rw [demo, State.ctx_setCtx, State.ctx_setCtx, reset_ctx]

theorem demo_inv : demo.Inv where
  build := by decide
  memWf := List.Pairwise.nil
  memBelow := fun e h => absurd h List.not_mem_nil
  ctxs := fun c => by
    rw [demo_ctx]
    split
    · exact (fresh_legal shake_row).inv rfl fun _ => rfl
    · split
      · exact (fresh_legal sha_row).inv rfl fun _ => rfl
      · exact Context.powerOn_inv
  absent := fun c hc => by
    rw [demo_ctx, if_neg (by rintro rfl; exact hc (by decide)), if_neg (by rintro rfl; exact hc (by decide))]
    rfl
  resetIdle := fun _ => rfl

theorem demo_sha : demo.ctx 0 = fresh sha := demo_ctx 0
theorem demo_shake : demo.ctx 1 = fresh shake := demo_ctx 1

/-- demo with c2 Squeezing. -/
def demoS : State := demo.setCtx 2 squeezing

theorem demoS_inv : demoS.Inv :=
  demo_inv.setCtx (by decide) (squeezing_legal.inv squeezing_valid fun h => by rw [squeezing_cfg] at h; cases h)

theorem demoS_ctx : demoS.ctx 2 = squeezing := State.ctx_setCtx_same demo 2 squeezing

/-- demo with a word in flight. -/
def busyWith (w : CmdWord) : State := { demo with inFlight := some w }

/-- demo with events to come. -/
def coming (es : List Event) : State := { demo with host := { demo.host with pending := es } }

theorem witness_DecodeOfEncodeIsTheCommand :
    wellFormed Config.defaultBuild (.copy 3 0) = true ∧ wellFormed ⟨16, 16, 0⟩ (.config 15 0xFF 0xFFFF) = true := by
  decide

/-- A word for each `op`. -/
theorem witness_DecoderAcceptsExactlyLegalWords :
    decode Config.defaultBuild 0x0000000000FF0001 = .ok (.config 0 0xFF 0) ∧
    decode Config.defaultBuild 0x0302 = .ok (.reset 3) ∧
    decode Config.defaultBuild 0xFF0003 = .ok (.updateByte 0 0xFF) ∧
    decode Config.defaultBuild 0xFFFF000000000004 = .ok (.update 0 0 0xFFFF) ∧
    decode Config.defaultBuild 0x0000FFFF00000005 = .ok (.doFinal 0 0xFFFF) ∧
    decode Config.defaultBuild 0x0001000000000106 = .ok (.doFinalXof 1 0 1) ∧
    decode Config.defaultBuild 0x0001000000000107 = .ok (.doOutput 1 0 1) ∧
    decode Config.defaultBuild 0x3008 = .ok (.copy 0 3) ∧ decode Config.defaultBuild 0x0009 = .ok (.getDigestSize 0) ∧
    decode Config.defaultBuild 0x000A = .ok (.getByteLength 0) := by decide

theorem witness_DecodedCommandHoldsTheOperandBits :
    decode Config.defaultBuild 0x1234567800000009 = .ok (.getDigestSize 0) ∧
    decode Config.defaultBuild 0x12345678000F0001 = .ok (.config 0 0x0F 0x1234) ∧
    decode Config.defaultBuild 0x1234567800000305 = .ok (.doFinal 3 0x5678) ∧
    decode Config.defaultBuild 0xFFFFFFFF00000304 = .ok (.update 3 0xFFFF 0xFFFF) := by decide

theorem witness_StepRunsTheDecodedCommand :
    ((busyWith 4).inFlight = some 4 ∧ decode (busyWith 4).build 4 = .ok (.update 0 0 0) ∧
      (busyWith 4).host.pending = []) ∧
    { coming [.core] with inFlight := some 4 }.host.pending = .core :: [] := by decide

theorem witness_PlacedWordRunsNext : decode demo.build (BitVec.ofNat 64 (0x3008 % 2 ^ 32)) = .ok (.copy 0 3) := by
  decide

theorem witness_RejectedWordOnlyWritesStatus :
    (busyWith 0x0B).inFlight = some 0x0B ∧ (busyWith 0x0B).host.pending = [] ∧
      decode (busyWith 0x0B).build 0x0B = .error .undefinedOp := by decide

theorem witness_IdleTimeChangesNothing :
    (demo.busy = false ∧ demo.host.pending = []) ∧
    ((coming [.core]).busy = false ∧ (coming [.core]).host.pending = .core :: []) := by decide

theorem witness_FirstFailingCheckDecidesTheError :
    (∀ c, (demo.ctx c).valid = true → rateLegal (demo.ctx c).cfg.rate (demo.ctx c).cfg.capacity) ∧
    ∃ t, runWord 0x0302 demo = .next t ∧ t.status.err = some .stateError :=
  ⟨fun c h => ((demo_inv.ctxs c).configured h).rate,
    by rw [runWord_ok (i := .reset 3) (by decide)]; exact after_next (by decide +kernel)⟩

theorem witness_EveryCommandEndsWithFinish : ∃ t, runWord 0 demo = .next t ∧ t.status.err ≠ none :=
  ⟨_, runWord_error (e := .undefinedOp) (by decide), by decide⟩

/-- For each command the errors R263 lists for it after P1, and so a next state with ERR not 0. -/
theorem witness_ErrorKindsOfEachCommand :
    after (.config 0 1 200) demo (fun t => t.status.err) = some (some .configurationError) ∧
    after (.reset 3) demo (fun t => t.status.err) = some (some .stateError) ∧
    after (.updateByte 3 0) demo (fun t => t.status.err) = some (some .stateError) ∧
    after (.update 3 0 0) demo (fun t => t.status.err) = some (some .stateError) ∧
    after (.update 0 0x1001 0) demo (fun t => t.status.err) = some (some .bufferError) ∧
    after (.doFinal 3 0) demo (fun t => t.status.err) = some (some .stateError) ∧
    after (.doFinal 0 0xFE1) demo (fun t => t.status.err) = some (some .bufferError) ∧
    after (.doFinalXof 3 0 0) demo (fun t => t.status.err) = some (some .stateError) ∧
    after (.doFinalXof 0 0 0) demo (fun t => t.status.err) = some (some .illegalCommand) ∧
    after (.doFinalXof 1 0xFFF 2) demo (fun t => t.status.err) = some (some .bufferError) ∧
    after (.doOutput 3 0 0) demo (fun t => t.status.err) = some (some .stateError) ∧
    after (.doOutput 0 0 0) demo (fun t => t.status.err) = some (some .illegalCommand) ∧
    after (.doOutput 1 0x1000 1) demo (fun t => t.status.err) = some (some .bufferError) ∧
    after (.copy 0 3) demo (fun t => t.status.err) = some (some .stateError) ∧
    after (.getDigestSize 3) demo (fun t => t.status.err) = some (some .stateError) ∧
    after (.getByteLength 3) demo (fun t => t.status.err) = some (some .stateError) := by decide +kernel

theorem witness_ConfigCommand :
    ((128 : Half).toNat ∈ bitLengths 0 ∧ (512 : Half).toNat ∈ bitLengths 1 ∧ (256 : Half).toNat ∈ bitLengths 2) ∧
    ((129 : Half).toNat ∉ bitLengths 0 ∧ (128 : Half).toNat ∉ bitLengths 1 ∧ (512 : Half).toNat ∉ bitLengths 2 ∧
      (256 : Half).toNat ∉ bitLengths 3) := by decide

theorem witness_ResetCommand :
    ((demo.ctx 0).valid = true ∧ rateLegal (demo.ctx 0).cfg.rate (demo.ctx 0).cfg.capacity) ∧
    (demo.ctx 2).valid = false := by decide +kernel

theorem witness_CopyCommand : (demo.ctx 0).valid = true ∧ (demo.ctx 3).valid = false := by decide +kernel

theorem witness_GetDigestSizeCommand : (demo.ctx 0).valid = true ∧ (demo.ctx 3).valid = false := by decide +kernel

theorem witness_GetByteLengthCommand :
    ((demo.ctx 0).valid = true ∧ (demo.ctx 0).cfg ∈ variantTable) ∧ (demo.ctx 3).valid = false := by decide +kernel

/-- An empty and an almost full queue; then each ground of the StateError. -/
theorem witness_UpdateByteCommand :
    ((demo.ctx 0).valid = true ∧ (demo.ctx 0).phase = .absorbing ∧ (demo.ctx 0).biq + 8 ≠ (demo.ctx 0).cfg.rate) ∧
    { fresh sha with biq := 1080 }.biq + 8 = { fresh sha with biq := 1080 }.cfg.rate ∧
    (demo.ctx 2).valid = false ∧ (demoS.ctx 2).phase = .squeezing :=
  ⟨by decide +kernel, by decide, by decide +kernel, by rw [demoS_ctx]; exact squeezing_phase⟩

/-- Regions that end at MEMSZ and one byte past it. -/
theorem witness_UpdateCommand :
    ((demo.ctx 0).valid = true ∧ (demo.ctx 0).phase = .absorbing ∧
      (0xFFF : Half).toNat + (1 : Half).toNat ≤ demo.build.memsz) ∧
    ((demo.ctx 2).valid = false ∧ (demoS.ctx 2).phase = .squeezing) ∧
    demo.build.memsz < (0x1001 : Half).toNat + (0 : Half).toNat :=
  ⟨by decide +kernel, ⟨by decide +kernel, by rw [demoS_ctx]; exact squeezing_phase⟩, by decide⟩

theorem witness_DoFinalCommand :
    ((demo.ctx 0).valid = true ∧ (demo.ctx 0).Legal ∧ (0xFE0 : Half).toNat + (demo.ctx 0).cfg.dsize ≤ demo.build.memsz) ∧
    (demo.ctx 2).valid = false ∧ demo.build.memsz < (0xFE1 : Half).toNat + (demo.ctx 0).cfg.dsize := by
  rw [demo_sha]
  exact ⟨⟨rfl, fresh_legal sha_row, by decide⟩, by decide +kernel, by decide⟩

theorem witness_DoFinalXofCommand :
    ((demo.ctx 1).valid = true ∧ (demo.ctx 1).Legal ∧ (demo.ctx 1).cfg.xof = true ∧
      (0xFFF : Half).toNat + (1 : Half).toNat ≤ demo.build.memsz) ∧
    (demo.ctx 2).valid = false ∧ ((demo.ctx 0).valid = true ∧ (demo.ctx 0).cfg.xof = false) ∧
    demo.build.memsz < (0xFFF : Half).toNat + (2 : Half).toNat := by
  rw [demo_shake, demo_sha]
  exact ⟨⟨rfl, fresh_legal shake_row, rfl, by decide⟩, by decide +kernel, ⟨rfl, rfl⟩, by decide⟩

/-- An Absorbing and a Squeezing SHAKE context. -/
theorem witness_DoOutputCommand :
    ((demo.ctx 1).valid = true ∧ (demo.ctx 1).Legal ∧ (demo.ctx 1).cfg.xof = true ∧
      (0x1000 : Half).toNat + (0 : Half).toNat ≤ demo.build.memsz) ∧
    ((demoS.ctx 2).valid = true ∧ (demoS.ctx 2).Legal ∧ (demoS.ctx 2).cfg.xof = true) ∧
    (demo.ctx 2).valid = false ∧ ((demo.ctx 0).valid = true ∧ (demo.ctx 0).cfg.xof = false) ∧
    demo.build.memsz < (0x1000 : Half).toNat + (1 : Half).toNat := by
  rw [demo_shake, demo_sha, demoS_ctx]
  exact ⟨⟨rfl, fresh_legal shake_row, rfl, by decide⟩,
    ⟨squeezing_valid, squeezing_legal, by rw [squeezing_cfg]; rfl⟩, by decide +kernel, ⟨rfl, rfl⟩, by decide⟩

theorem witness_AbsorbBlockXorsAndPermutes : (fresh shake).cfg.rate / 8 ≤ 168 ∧ 199 < 200 := by decide

theorem witness_FinalizeAbsorbsThePaddedBlock : (fresh sha).Legal ∧ (fresh sha).phase = .absorbing ∧
    0 < (fresh sha).cfg.rate / 8 := ⟨fresh_legal sha_row, rfl, by decide⟩

theorem witness_SuffixLeavesRoomForThePadding : (fresh shake).Legal ∧ (fresh shake).phase = .absorbing :=
  ⟨fresh_legal shake_row, rfl⟩

theorem witness_PaddingSpansTwoBlocksAtTheEdge :
    { fresh sha with biq := 1087 }.biq + 1 = { fresh sha with biq := 1087 }.cfg.rate := by decide

theorem witness_SqueezeOutputsTheStream : squeezing.Legal ∧ squeezing.phase = .squeezing :=
  ⟨squeezing_legal, squeezing_phase⟩

theorem witness_EngineFailuresComeBeforeAnyChange :
    ¬ (1088 + 500 = 1600 ∧ 1088 % 64 = 0 ∧ 0 < 1088 ∧ 1088 < 1600) ∧ sha ∈ variantTable ∧ 7 % 8 ≠ 0 := by decide

/-- Two neighbouring regions, an empty one after the last byte of the largest buffer memory, and one byte. -/
theorem witness_AbsorbingIsChunkIndependent :
    ((2 : Half).toNat + (1 : Half).toNat < 2 ^ 16 ∧ (0xFFD : Half).toNat + (2 : Half).toNat < 2 ^ 16 ∧
      ∃ t, exec (.update 0 0xFFD 2) demo = .next t ∧ t.status.err = none ∧
        ∃ u, exec (.update 0 (0xFFD + 2) 1) t = .next u ∧ u.status.err = none) ∧
    ((0xFFFE : Half).toNat + (2 : Half).toNat = 2 ^ 16 ∧
      ∃ t, exec (.update 0 0xFFFE 2) { demo with build := ⟨4, 16, 0⟩ } = .next t ∧ t.status.err = none ∧
        ∃ u, exec (.update 0 (0xFFFE + 2) 0) t = .next u ∧ u.status.err = none) ∧
    ∃ t, exec (.update 0 0 1) demo = .next t ∧ t.status.err = none := by
  have run : ∀ (s : State) (off len : Half), (s.ctx 0).valid = true → (s.ctx 0).phase = .absorbing →
      off.toNat + len.toNat ≤ s.build.memsz → bodyOf (.update 0 off len) s =
        .ok (s.setCtx 0 ((s.ctx 0).absorbBytes (s.source off len))) := fun s off len hv hp hr => by
    show updateBody 0 off len s = _
    rw [updateBody_eq, if_pos hv, if_pos (decide_eq_true hp), if_pos (decide_eq_true hr)]
  have hv : (demo.ctx 0).valid = true := by rw [demo_sha]; rfl
  have hp : (demo.ctx 0).phase = .absorbing := by rw [demo_sha]; rfl
  have h1 := run demo 0xFFD 2 hv hp (by decide)
  have h2 := run ((demo.setCtx 0 ((demo.ctx 0).absorbBytes (demo.source 0xFFD 2))).finish 0x04 0 none) (0xFFD + 2) 1
    (by simpa using hv) (by simpa using hp) (by rw [State.finish_build, State.setCtx_build]; decide)
  have g1 := run { demo with build := ⟨4, 16, 0⟩ } 0xFFFE 2 hv hp (by decide)
  have g2 := run (({ demo with build := ⟨4, 16, 0⟩ }.setCtx 0
      ((demo.ctx 0).absorbBytes ({ demo with build := ⟨4, 16, 0⟩ }.source 0xFFFE 2))).finish 0x04 0 none) (0xFFFE + 2) 0
    (by simpa using hv) (by simpa using hp) (by rw [State.finish_build, State.setCtx_build]; decide)
  exact ⟨⟨by decide, by decide, _, exec_ok h1, rfl, _, exec_ok h2, rfl⟩,
    ⟨by decide, _, exec_ok g1, rfl, _, exec_ok g2, rfl⟩, _, exec_ok (run demo 0 1 hv hp (by decide)), rfl⟩

theorem witness_OutputIsStreamingConsistent :
    demo.Inv ∧ (10 : Half).toNat + (22 : Half).toNat < 2 ^ 16 ∧ (0x200 : Half).toNat + (10 : Half).toNat < 2 ^ 16 ∧
      ∃ t, exec (.doOutput 1 0x200 10) demo = .next t ∧ t.status.err = none ∧
        ∃ u, exec (.doOutput 1 (0x200 + 10) 22) t = .next u ∧ u.status.err = none := by
  have hv : (demo.ctx 1).valid = true := by rw [demo_shake]; rfl
  have hx : (demo.ctx 1).cfg.xof = true := by rw [demo_shake]; rfl
  have hl : (demo.ctx 1).Legal := by rw [demo_shake]; exact fresh_legal shake_row
  have h1 : bodyOf (.doOutput 1 0x200 10) demo = .ok _ := doOutputBody_ok demo hv hl hx (by decide)
  refine ⟨demo_inv, by decide, by decide, _, exec_ok h1, rfl, ?_⟩
  have h2 := doOutputBody_ok (c := 1) (off := 0x200 + 10) (len := 22)
    (((demo.setCtx 1 (Context.squeezeBytes (10 : Half).toNat (demo.ctx 1).injectSuffix.toSqueezing).1).memWrite
      (0x200 : Half).toNat ((List.range (10 : Half).toNat).map (demo.ctx 1).outputByte)).finish 0x07 1 none)
    (by simpa using hv) (by
      rw [State.finish_ctx, State.memWrite_ctx, State.ctx_setCtx_same]
      exact hl.toSqueezing.squeezeBytes _ (Context.toSqueezing_phase _)) (by simpa using hx)
    (by rw [State.finish_build, State.memWrite_build, State.setCtx_build]; decide)
  exact ⟨_, exec_ok (i := .doOutput 1 (0x200 + 10) 22) h2, rfl⟩

theorem witness_ResetEqualsFreshConfig :
    (demo.ctx 0).valid = true ∧ (demo.ctx 0).Legal ∧ ∃ t, exec (.reset 0) demo = .next t := by
  rw [demo_sha]
  exact ⟨rfl, fresh_legal sha_row, exec_next _ _⟩

/-- A success of each kind of command the phase rule names. -/
theorem witness_PhaseController :
    demo.Inv ∧
    after (.config 3 2 128) demo (fun t => t.status.err) = some none ∧
    after (.reset 0) demo (fun t => t.status.err) = some none ∧
    after (.updateByte 0 0) demo (fun t => t.status.err) = some none ∧
    after (.update 0 0 0) demo (fun t => t.status.err) = some none ∧
    after (.copy 3 0) demo (fun t => t.status.err) = some none ∧
    after (.getDigestSize 0) demo (fun t => t.status.err) = some none ∧
    after (.getByteLength 0) demo (fun t => t.status.err) = some none ∧
    (∃ t, exec (.doFinal 0 0) demo = .next t ∧ t.status.err = none) ∧
    (∃ t, exec (.doFinalXof 1 0 0) demo = .next t ∧ t.status.err = none) ∧
    ∃ t, exec (.doOutput 1 0 0) demo = .next t ∧ t.status.err = none := by
  have hs : (demo.ctx 0).Legal := by rw [demo_sha]; exact fresh_legal sha_row
  have hl : (demo.ctx 1).Legal := by rw [demo_shake]; exact fresh_legal shake_row
  have hv0 : (demo.ctx 0).valid = true := by rw [demo_sha]; rfl
  have hv : (demo.ctx 1).valid = true := by rw [demo_shake]; rfl
  have hx : (demo.ctx 1).cfg.xof = true := by rw [demo_shake]; rfl
  exact ⟨demo_inv, by decide +kernel, by decide +kernel, by decide +kernel, by decide +kernel, by decide +kernel,
    by decide +kernel, by decide +kernel,
    ⟨_, exec_ok (i := .doFinal 0 0) (doFinalBody_ok demo hv0 hs (by rw [demo_sha]; decide)), rfl⟩,
    ⟨_, exec_ok (i := .doFinalXof 1 0 0) (doFinalXofBody_ok demo hv hl hx (by decide)), rfl⟩,
    ⟨_, exec_ok (i := .doOutput 1 0 0) (doOutputBody_ok demo hv hl hx (by decide)), rfl⟩⟩

theorem witness_PermutationCounts :
    demoS.Inv ∧ ((demoS.ctx 0).valid = true ∧ (demoS.ctx 0).phase = .absorbing) ∧
      ((demoS.ctx 2).valid = true ∧ (demoS.ctx 2).phase = .squeezing) := by
  rw [demoS_ctx, demoS, State.ctx_setCtx_other _ _ (by decide), demo_sha]
  exact ⟨demoS_inv, ⟨rfl, rfl⟩, squeezing_valid, squeezing_phase⟩

theorem witness_ThetaRhoPiLaneByLane : 4 < 5 ∧ (2 * 4 + 3 * 4) % 5 < 5 := by decide

theorem witness_ChiIotaLaneByLane : 4 < 5 ∧ 1 ≤ 24 ∧ 24 ≤ 24 := by decide

/-- The last word of the register block, and each register. -/
theorem witness_RegisterReads : demo.inReset = false ∧ 0xFFC < 0x1000 ∧ 0xFFC % 4 = 0 ∧ 0x010 % 4 = 0 := by decide

theorem witness_IdRegister : Config.defaultBuild.Legal ∧ Build.Legal ⟨1, 8, 0x20000⟩ ∧ Build.Legal ⟨16, 16, 0⟩ ∧
    demo.inReset = false := by decide

theorem witness_RegisterWrites :
    demo.inReset = false ∧ 0x004 < 0x1000 ∧ 0x004 % 4 = 0 ∧ 0x004 ≠ 0 ∧ 0xFFC < 0x1000 ∧ 0xFFC % 4 = 0 ∧ 0xFFC ≠ 0 := by
  decide

theorem witness_CmdWriteIssuesTheWord : demo.inReset = false ∧ demo.busy = false := by decide

theorem witness_CmdWriteWhileBusyIsDropped : (busyWith 4).inReset = false ∧ (busyWith 4).busy = true := by decide

/-- Accesses of both kinds at the edges of the window and of the register block. -/
theorem witness_BusErrors :
    demo.inReset = false ∧ (BusAccess.read .byte 0xFFF).addr = demo.build.base + 0xFFF ∧
    ¬ (0xFFF % Width.byte.bytes = 0 ∧ (0xFFF < 0x1000 → Width.byte = .word)) ∧
    ¬ (0x1FFFF % Width.half.bytes = 0 ∧ (0x1FFFF < 0x1000 → Width.half = .word)) ∧
    (0x1000 % Width.byte.bytes = 0 ∧ (0x1000 < 0x1000 → Width.byte = .word)) ∧
    ∃ t, hostAccess (.read .byte 0x1FFFF) demo = .next t := by
  refine ⟨by decide, by decide, by decide, by decide, by decide, _, hostAccess_allowed (off := 0x1FFFF) rfl ?_ ?_ ?_ ?_⟩ <;>
    decide

/-- The four ends of the two reserved ranges. -/
theorem witness_ReservedRanges :
    demo.inReset = false ∧ 0x1000 % Width.word.bytes = 0 ∧ 0xFFFF % Width.byte.bytes = 0 ∧
    (0x1000 ≤ 0xFFFF ∧ 0xFFFF < 0x10000) ∧
    (0x10000 + demo.build.memsz ≤ 0x11000 ∧ 0x10000 + demo.build.memsz ≤ 0x1FFFC ∧ 0x1FFFC < 0x20000) := by decide

theorem witness_BufferAccessesAreLittleEndian :
    demo.Inv ∧ demo.inReset = false ∧ demo.busy = false ∧ 0xFFC % Width.word.bytes = 0 ∧ 0xFFC < demo.build.memsz :=
  ⟨demo_inv, by decide, by decide, by decide, by decide⟩

theorem witness_BufferAccessWhileBusyIsRefused :
    (busyWith 4).inReset = false ∧ (busyWith 4).busy = true ∧ 0xFFF < (busyWith 4).build.memsz ∧
    (busyWith 4).build.memsz ≤ 0x10000 ∧
    (BusAccess.read .byte 0x10FFF).addr = (busyWith 4).build.base + 0x10000 + 0xFFF ∧
    0xFFF % (BusAccess.read .byte 0x10FFF).width.bytes = 0 ∧
    (assertReset demo).inReset = true ∧ (assertReset demo).build.base ≤ (BusAccess.read .half 0x1FFFF).addr ∧
    (BusAccess.read .half 0x1FFFF).addr < (assertReset demo).build.base + 0x20000 := by decide

theorem witness_ReadsHaveNoSideEffects : ∃ t, hostAccess (.read .word 0x010) demo = .next t :=
  ⟨_, hostAccess_regRead (s := demo) (off := 0x010) rfl (by decide) (by decide)⟩

/-- A write that changes the buffer memory. -/
theorem witness_HostReachesNoContext : ∃ t, hostAccess (.write .byte 0x10000 0x61) demo = .next t ∧ t.mem ≠ demo.mem :=
  ⟨_, hostAccess_allowed (off := 0x10000) rfl rfl (by decide) (by decide) (by decide), by decide⟩

/-- The addresses just below and just above a window. -/
theorem witness_AccessOutsideTheWindowFaults :
    (BusAccess.read .word 0x1FFFC).addr < { demo with build := ⟨4, 12, 0x20000⟩ }.build.base ∧
    demo.build.base + 0x20000 ≤ (BusAccess.read .byte 0x20000).addr := by decide

theorem witness_CommandsKeepOtherContexts : ∃ t, exec (.copy 3 0) demo = .next t := exec_next _ _

/-- Two states that differ in a context COPY does not name. -/
theorem witness_CommandsReadNoOtherContext :
    demo.build = demoS.build ∧ demo.result = demoS.result ∧ (∀ a, demo.memByte a = demoS.memByte a) ∧
    demo.ctx (ctxOf (.copy 3 0)) = demoS.ctx (ctxOf (.copy 3 0)) ∧
    demo.ctx (checkedCtx (.copy 3 0)) = demoS.ctx (checkedCtx (.copy 3 0)) ∧ demo.ctx 2 ≠ demoS.ctx 2 ∧
    (∃ t, exec (.copy 3 0) demo = .next t) ∧ ∃ t, exec (.copy 3 0) demoS = .next t := by
  refine ⟨rfl, rfl, fun _ => rfl, ?_, ?_, ?_, exec_next _ _, exec_next _ _⟩
  · exact (State.ctx_setCtx_other demo squeezing (by decide)).symm
  · exact (State.ctx_setCtx_other demo squeezing (by decide)).symm
  · rw [demoS_ctx]
    intro h
    have := congrArg Context.valid h
    rw [squeezing_valid] at this
    exact absurd this (by decide +kernel)

theorem witness_WhichCommandsWriteResultAndMemory :
    (∃ t, exec (.getDigestSize 0) demo = .next t ∧ t.result ≠ demo.result) ∧
    ∃ t, exec (.doOutput 1 0 1) demo = .next t ∧ t.mem ≠ demo.mem := by
  have hl : (demo.ctx 1).Legal := by rw [demo_shake]; exact fresh_legal shake_row
  have hv : (demo.ctx 1).valid = true := by rw [demo_shake]; rfl
  have hx : (demo.ctx 1).cfg.xof = true := by rw [demo_shake]; rfl
  refine ⟨?_, _, exec_ok (i := .doOutput 1 0 1) (doOutputBody_ok demo hv hl hx (by decide)), ?_⟩
  · obtain ⟨t, ht, h⟩ := after_next test_getDigestSize
    exact ⟨t, ht, by rw [h]; decide⟩
  · intro h
    cases congrArg List.length h

theorem witness_StepKeepsTheInvariant : demo.Inv ∧ step demo = .next demo :=
  ⟨demo_inv, (step_nil rfl).trans (coreTurn_idle rfl)⟩

theorem witness_PowerOnReset :
    (coming [.resetAssert, .resetRelease]).host.pending = .resetAssert :: .resetRelease :: [] := rfl

theorem witness_SettingStickyWins :
    let s := { coming [.hostCore (.write .word 0x008 0x10)] with inFlight := some 0x0B }
    s.inReset = false ∧ s.inFlight = some 0x0B ∧
      s.host.pending = .hostCore (.write .word (s.build.base + 0x008) 0x10) :: [] ∧
      ∃ t, runWord 0x0B s = .next t ∧ t.status.err ≠ none :=
  ⟨rfl, rfl, rfl, _, runWord_error (e := .undefinedOp) (by decide), by decide⟩

theorem witness_AtomicViewEqualsSplitView : demo.inReset = false ∧ demo.busy = false := by decide

theorem witness_IssueProtocolCompletes :
    let s := coming (issueEvents demo.build 3 (encode (.copy 3 0)))
    s.inReset = false ∧ s.busy = false ∧ wellFormed s.build (.copy 3 0) = true ∧
      s.host.pending = issueEvents s.build 3 (encode (.copy 3 0)) ++ [] :=
  ⟨rfl, rfl, by decide, by simp [coming]⟩

end Sys2Proof.Tests
end

section
/-! PROOFS. The ID register (spec/10_state.md R35): the fields of a word made of placed fields, the fields of ID, and
the Host's accesses of ID. -/

namespace Sys2Proof

/-! ## Reading back a placed field -/

/-- The range a field was placed at holds the field. -/
theorem extractLsb'_placeField_same {n w lo : Nat} (v : BitVec w) (h : lo + w ≤ n) :
    (placeField n lo v).extractLsb' lo w = v := by
  apply BitVec.eq_of_getLsbD_eq
  intro k hk
  rw [BitVec.getLsbD_extractLsb', getLsbD_placeField n lo v (by omega)]
  simp [hk]

/-- A range beside a placed field holds 0. -/
theorem extractLsb'_placeField_disjoint {n w lo i len : Nat} (v : BitVec w) (hn : i + len ≤ n)
    (h : i + len ≤ lo ∨ lo + w ≤ i) : (placeField n lo v).extractLsb' i len = 0#len := by
  apply BitVec.eq_of_getLsbD_eq
  intro k hk
  rw [BitVec.getLsbD_extractLsb', getLsbD_placeField n lo v (by omega)]
  obtain h | h := h
  · simp [show ¬ lo ≤ i + k by omega]
  · simp [BitVec.getLsbD_of_ge v (i + k - lo) (by omega)]

namespace Machine

/-! ## The fields of ID (R35) -/

theorem idWord_marker (b : Build) : (idWord b).extractLsb' 0 8 = 0x4B := by
  simp (disch := omega) only [idWord, BitVec.extractLsb'_or, extractLsb'_placeField_same,
    extractLsb'_placeField_disjoint, BitVec.or_zero]

theorem idWord_nctx (b : Build) : (idWord b).extractLsb' 8 4 = BitVec.ofNat 4 (b.nctx - 1) := by
  simp (disch := omega) only [idWord, BitVec.extractLsb'_or, extractLsb'_placeField_same,
    extractLsb'_placeField_disjoint, BitVec.or_zero, BitVec.zero_or]

theorem idWord_memLog (b : Build) : (idWord b).extractLsb' 12 4 = BitVec.ofNat 4 (b.memLog - 8) := by
  simp (disch := omega) only [idWord, BitVec.extractLsb'_or, extractLsb'_placeField_same,
    extractLsb'_placeField_disjoint, BitVec.or_zero, BitVec.zero_or]

theorem idWord_version (b : Build) : (idWord b).extractLsb' 16 8 = 0x01 := by
  simp (disch := omega) only [idWord, BitVec.extractLsb'_or, extractLsb'_placeField_same,
    extractLsb'_placeField_disjoint, BitVec.zero_or]

theorem idWord_top (b : Build) : (idWord b).extractLsb' 24 8 = 0x00 := by
  simp (disch := omega) only [idWord, BitVec.extractLsb'_or, extractLsb'_placeField_disjoint, BitVec.or_zero,
    BitVec.ofNat_eq_ofNat]

/-- NCTX - 1 fits its field: NCTX is at most 16 (R10). -/
theorem idWord_nctx_toNat {b : Build} (h : b.Legal) : ((idWord b).extractLsb' 8 4).toNat = b.nctx - 1 := by
  obtain ⟨⟨_, hmax⟩, _, _⟩ := h
  rw [idWord_nctx, BitVec.toNat_ofNat]
  omega

/-- log2(MEMSZ) - 8 fits its field and is at most 8: MEMSZ is at most 65536 (R10). -/
theorem idWord_memsz_toNat {b : Build} (h : b.Legal) {k : Nat} (hk : b.memsz = 2 ^ k) :
    ((idWord b).extractLsb' 12 4).toNat = k - 8 ∧ k - 8 ≤ 8 := by
  obtain ⟨_, ⟨_, hmax⟩, _⟩ := h
  have hlog : b.memLog = k := Nat.pow_right_injective le_rfl hk
  rw [idWord_memLog, BitVec.toNat_ofNat]
  omega

/-! ## The Host's accesses of ID -/

theorem State.regRead_id (s : State) : s.regRead 0x010 = idWord s.build := rfl

theorem State.regWrite_id (s : State) (v : Reg) : s.regWrite 0x010 v = s := rfl

/-- Settles O41: field by field from the placed fields of ID, and the accesses by the rule of the register block. -/
theorem idRegister : Obligations.IdRegister := by
  refine ⟨fun b hb => ⟨idWord_marker b, idWord_nctx_toNat hb, fun _ => idWord_memsz_toNat hb, idWord_version b,
    idWord_top b⟩, rfl, rfl, by decide, fun s v hr => ⟨?_, ?_⟩⟩
  · rw [hostAccess_regRead hr (by decide) (by decide), State.regRead_id]
    rfl
  · rw [hostAccess_regWrite hr (by decide) (by decide), State.regWrite_id]
    rfl

end Machine
end Sys2Proof
end

section
/-! PROOFS. The decoder over all words (spec/30_encoding.md R91, R95 to R97) and the worked encodings of R102. -/

namespace Sys2Proof

/-! ## The command `op` names -/

/-- `op` names a command exactly when it is 0x01 to 0x0A (R95, R96). -/
theorem commandOf_defined_iff (w : CmdWord) :
    (∃ i, commandOf w = some i) ↔ 1 ≤ (fieldOp w).toNat ∧ (fieldOp w).toNat ≤ 0x0A := by
  constructor
  · rintro ⟨i, h⟩
    exact (commandOf_some h).1
  · intro h
    cases hc : commandOf w with
    | none => exact absurd h (commandOf_none hc)
    | some i => exact ⟨i, rfl⟩

/-- Each `op` names its command, with the operands R93 gives it. -/
theorem commandOf_operands {w : CmdWord} {i : Instr} (h : commandOf w = some i) :
    let op := (fieldOp w).toNat
    let ctx := fieldCtx w
    (op = 0x01 → i = .config ctx (fieldImm8 w) (fieldLen w)) ∧ (op = 0x02 → i = .reset ctx) ∧
    (op = 0x03 → i = .updateByte ctx (fieldImm8 w)) ∧ (op = 0x04 → i = .update ctx (fieldOff w) (fieldLen w)) ∧
    (op = 0x05 → i = .doFinal ctx (fieldOff w)) ∧ (op = 0x06 → i = .doFinalXof ctx (fieldOff w) (fieldLen w)) ∧
    (op = 0x07 → i = .doOutput ctx (fieldOff w) (fieldLen w)) ∧ (op = 0x08 → i = .copy ctx (fieldCtx2 w)) ∧
    (op = 0x09 → i = .getDigestSize ctx) ∧ (op = 0x0A → i = .getByteLength ctx) := by
  have named {j : Instr} (hj : commandOf w = some j) : i = j := Option.some.inj (h.symm.trans hj)
  refine ⟨?_, ?_, ?_, ?_, ?_, ?_, ?_, ?_, ?_, ?_⟩ <;> exact fun hop => named (by simp only [commandOf, hop])

/-! ## The words the decoder accepts -/

/-- R97: a word is some command exactly when no line of the decoder rejects it. -/
theorem decode_accepts_iff (b : Build) (w : CmdWord) :
    let op := (fieldOp w).toNat
    (∃ i, decode b w = .ok i) ↔
      (1 ≤ op ∧ op ≤ 0x0A) ∧ fieldRsv w = 0 ∧ (op ≠ 0x08 → fieldCtx2 w = 0) ∧
      (op ≠ 0x01 → op ≠ 0x03 → fieldImm8 w = 0) ∧ ctxInRange b (fieldCtx w) ∧
      (op = 0x08 → ctxInRange b (fieldCtx2 w)) := by
  have h1 := fieldOp_eq_iff w (k := 0x01) (by decide)
  have h3 := fieldOp_eq_iff w (k := 0x03) (by decide)
  have h8 := fieldOp_eq_iff w (k := 0x08) (by decide)
  simp only [decode_eq_ok, exists_and_right, commandOf_defined_iff, ne_eq, h1, h3, h8, BitVec.ofNat_eq_ofNat]

/-- R96: the all-zero word is rejected in every build. -/
theorem decode_zero (b : Build) : decode b 0 = .error .undefinedOp := rfl

/-- Settles O3: acceptance and operands by the rules above, each field being its bit range by definition. -/
theorem decoderAcceptsExactlyLegalWords : Obligations.DecoderAcceptsExactlyLegalWords := by
  refine ⟨fun b w => ⟨decode_accepts_iff b w, fun i h => ?_⟩, fun b i h => ?_⟩
  · obtain ⟨hcmd, _⟩ := decode_eq_ok.mp h
    exact commandOf_operands hcmd
  · rw [decode_zero] at h
    cases h

/-! ## The worked encodings -/

/-- Settles O1: the twelve rows hold closed terms only, and the assembler, the encoder and the decoder compute on them. -/
theorem workedEncodings : Obligations.WorkedEncodings := by
  unfold Obligations.WorkedEncodings
  decide

end Sys2Proof
end

section
/-! PROOFS. The end of every word (spec/60_exceptions.md R262): Finish in every outcome, and nothing but STATUS changed
by an error. -/

namespace Sys2Proof.Machine

/-- An accepted command ends with Finish on its body's state, or on the state it was issued in when it errs. -/
theorem exec_ends_with_finish (i : Instr) (s : State) :
    ∃ t e, exec i s = .next t ∧ Finished s t (opOf i) (ctxOf i) e ∧
      (e ≠ none → t.ctxs = s.ctxs ∧ t.result = s.result ∧ t.mem = s.mem) := by
  cases hb : bodyOf i s with
  | ok u => exact ⟨_, none, exec_ok hb, (body_frame hb).finished _ _, fun h => absurd rfl h⟩
  | error e => exact ⟨_, some e, exec_error hb, finish_finished _ _ _ _, fun _ => ⟨rfl, rfl, rfl⟩⟩

/-- Settles O10: a decoded word ends as its command does, with the word's own op and ctx; a rejected one by Finish. -/
theorem everyCommandEndsWithFinish : Obligations.EveryCommandEndsWithFinish := by
  intro s w
  cases hd : decode s.build w with
  | ok i =>
    obtain ⟨hcmd, _⟩ := decode_eq_ok.mp hd
    obtain ⟨_, hop, hctx⟩ := commandOf_some hcmd
    rw [runWord_ok hd, ← hop, ← hctx]
    exact exec_ends_with_finish i s
  | error _ =>
    exact ⟨_, some .illegalCommand, runWord_error hd, finish_finished _ _ _ _, fun _ => ⟨rfl, rfl, rfl⟩⟩

end Sys2Proof.Machine
end

section
/-! PROOFS. A CMD write while a word is in flight (spec/70_reset_and_hazards.md R311). -/

namespace Sys2Proof.Machine

theorem State.regWrite_cmd (s : State) (v : Reg) : s.regWrite 0x000 v = s.writeCmd v := rfl

theorem State.writeCmd_of_busy {s : State} (h : s.busy = true) (v : Reg) :
    s.writeCmd v = { s with status := s.status.setOvr } := if_pos h

/-- A 32-bit write at the base of the window is a write of CMD, at offset 0 (R33). -/
theorem hostAccess_cmdWrite {s : State} (hr : s.inReset = false) (v : Reg) :
    hostAccess (.write .word s.build.base v) s = .next ((s.writeCmd v).respond .ack) := by
  rw [← State.regWrite_cmd]
  exact hostAccess_regWrite (off := 0x000) hr (by decide) (by decide)

/-- Settles O44: the access is a write of CMD, which with BUSY = 1 sets OVR only; the bus acknowledges it. -/
theorem cmdWriteWhileBusyIsDropped : Obligations.CmdWriteWhileBusyIsDropped := by
  intro s v hr hb
  rw [hostAccess_cmdWrite hr, State.writeCmd_of_busy hb]
  rfl

end Sys2Proof.Machine
end

section
/-! PROOFS. Commands and their words, both ways (spec/30_encoding.md R91, R93, R95, R97), and lines the assembler
reads (R99 to R101). -/

namespace Sys2Proof

/-! ## From a command to its word and back -/

/-- The fields every command's word shares (R91, R93). -/
theorem encode_fields (i : Instr) : Laws.EncodeFields.Statement i := by
  cases i with
  | config c v n => exact Laws.EncodeFields.config c v n
  | reset c => exact Laws.EncodeFields.reset c
  | updateByte c b => exact Laws.EncodeFields.updateByte c b
  | update c off len => exact Laws.EncodeFields.update c off len
  | doFinal c off => exact Laws.EncodeFields.doFinal c off
  | doFinalXof c off len => exact Laws.EncodeFields.doFinalXof c off len
  | doOutput c off len => exact Laws.EncodeFields.doOutput c off len
  | copy d c => exact Laws.EncodeFields.copy d c
  | getDigestSize c => exact Laws.EncodeFields.getDigestSize c
  | getByteLength c => exact Laws.EncodeFields.getByteLength c

/-- The op and the operands of a command's word name the command (R95). -/
theorem commandOf_encode (i : Instr) : commandOf (encode i) = some i := by
  cases i <;> simp [commandOf, encode]

/-- A well-formed command names contexts the build has: the operated one, and COPY's source (R92). -/
theorem wellFormed_iff (b : Build) (i : Instr) : wellFormed b i = true ↔
    ctxInRange b (ctxOf i) ∧ (opOf i = 0x08 → ctxInRange b (fieldCtx2 (encode i))) := by
  cases i with
  | copy d c => simp [wellFormed, ctxOf, opOf, encode]
  | _ => simp [wellFormed, ctxOf, opOf]

/-- Settles O2: the word's op names the command, and no line of the decoder rejects its fields. -/
theorem decodeOfEncodeIsTheCommand : Obligations.DecodeOfEncodeIsTheCommand := by
  intro b i hwf
  obtain ⟨hop, hctx, hrsv, hctx2, himm⟩ := encode_fields i
  obtain ⟨hc, hc2⟩ := (wellFormed_iff b i).1 hwf
  rw [decode_eq_ok, hop, hctx]
  exact ⟨commandOf_encode i, hrsv, hctx2, himm, hc, hc2⟩

/-! ## From a word to its command and back -/

/-- The bits of a word's CMD half, and of its OFF and LEN fields or not. -/
def fieldMask (keepOff keepLen : Bool) : CmdWord :=
  0x00000000FFFFFFFF ||| (if keepOff then 0x0000FFFF00000000 else 0) ||| (if keepLen then 0xFFFF000000000000 else 0)

theorem getLsbD_fieldMask : ∀ (keepOff keepLen : Bool), ∀ k < 64,
    (fieldMask keepOff keepLen).getLsbD k = if k < 32 then true else if k < 48 then keepOff else keepLen := by
  decide

/-- The masks of the four shapes of commands. -/
theorem fieldMask_values :
    fieldMask true true = 0xFFFFFFFFFFFFFFFF ∧ fieldMask true false = 0x0000FFFFFFFFFFFF ∧
    fieldMask false true = 0xFFFF0000FFFFFFFF ∧ fieldMask false false = 0x00000000FFFFFFFF := by decide

/-- Masking a word clears the OFF and LEN fields it does not keep, and nothing else. -/
theorem packWord_and_fieldMask (keepOff keepLen : Bool) (op : Byte) (c c2 : CtxId) (imm : Byte) (off len : Half) :
    packWord op c c2 imm off len &&& fieldMask keepOff keepLen =
      packWord op c c2 imm (if keepOff then off else 0) (if keepLen then len else 0) := by
  apply BitVec.eq_of_getLsbD_eq
  intro k hk
  rw [BitVec.getLsbD_and, getLsbD_fieldMask _ _ k hk, getLsbD_packWord _ _ _ _ _ _ hk, getLsbD_packWord _ _ _ _ _ _ hk]
  by_cases h32 : k < 32
  · simp [h32]
  · have h24 : ¬ k < 24 := by omega
    have h16 : ¬ k < 16 := by omega
    have h12 : ¬ k < 12 := by omega
    have h8 : ¬ k < 8 := by omega
    by_cases h48 : k < 48
    · cases keepOff <;> simp [h8, h12, h16, h24, h32, h48]
    · cases keepLen <;> simp [h8, h12, h16, h24, h32, h48]

/-- OFF is an operand of the command (R93). -/
def usesOff : Instr → Bool
  | .update _ _ _ | .doFinal _ _ | .doFinalXof _ _ _ | .doOutput _ _ _ => true
  | _ => false

/-- LEN is an operand of the command (R93). -/
def usesLen : Instr → Bool
  | .config _ _ _ | .update _ _ _ | .doFinalXof _ _ _ | .doOutput _ _ _ => true
  | _ => false

/-- A decoded command's own word: OFF and LEN are its operands or 0, every other field is the word's. -/
theorem encode_of_decode {b : Build} {w : CmdWord} {i : Instr} (h : decode b w = .ok i) :
    encode i = packWord (fieldOp w) (fieldCtx w) (fieldCtx2 w) (fieldImm8 w)
      (if usesOff i then fieldOff w else 0) (if usesLen i then fieldLen w else 0) := by
  obtain ⟨hcmd, -, hctx2, himm, -, -⟩ := decode_eq_ok.1 h
  have hop := (commandOf_some hcmd).2.1
  have hops := commandOf_operands hcmd
  simp only [← hop] at hctx2 himm hops ⊢
  cases i <;> simp [opOf] at hctx2 himm hops <;> simp [encode, usesOff, usesLen, opOf, *]

/-- A decoded command is well-formed: the decoder checked its context numbers. -/
theorem wellFormed_of_decode {b : Build} {w : CmdWord} {i : Instr} (h : decode b w = .ok i) :
    wellFormed b i = true := by
  obtain ⟨hcmd, -, -, -, hc, hc2⟩ := decode_eq_ok.1 h
  obtain ⟨-, hop, hctx⟩ := commandOf_some hcmd
  rw [wellFormed_iff, hop, hctx, encode_of_decode h, fieldCtx2_packWord]
  exact ⟨hc, hc2⟩

/-- Settles O4: the command's own word is the word with the fields it does not use cleared, and so is the masked word. -/
theorem decodedCommandHoldsTheOperandBits : Obligations.DecodedCommandHoldsTheOperandBits := by
  intro b w i h
  obtain ⟨hcmd, hrsv, -⟩ := decode_eq_ok.1 h
  obtain ⟨-, hop, hctx⟩ := commandOf_some hcmd
  refine ⟨wellFormed_of_decode h, hop, hctx, ?_⟩
  have masked : encode i = w &&& fieldMask (usesOff i) (usesLen i) := by
    rw [encode_of_decode h, ← packWord_and_fieldMask, packWord_fields hrsv]
  obtain ⟨hboth, hoff, hlen, hnone⟩ := fieldMask_values
  cases i <;> simpa only [usesOff, usesLen, hboth, hoff, hlen, hnone] using masked

/-! ## The assembler -/

/-- Settles O5: the seven lines are closed terms, and the assembler computes on them. -/
theorem assemblerLines : Obligations.AssemblerLines := by
  unfold Obligations.AssemblerLines
  decide

end Sys2Proof
end

section
/-! PROOFS. When each command's body succeeds, and what it then leaves: the checks of spec/60_exceptions.md R261 read
backwards. The commands that Reset or Squeeze a context are read on legal contexts. -/

namespace Sys2Proof.Machine

variable {s t : State} {c d : CtxId}

theorem configBody_ok_iff {v : Byte} {n : Half} : configBody c v n s = .ok t ↔
    ∃ row, configRow v n = .ok row ∧ s.setCtx c (configured (s.ctx c) row) = t := by
  cases h : configRow v n with
  | error e => simp [configBody_error s c h]
  | ok row => simp [configBody_ok s c h]

theorem copyBody_ok_iff : copyBody d c s = .ok t ↔ (s.ctx c).valid = true ∧ s.setCtx d (s.ctx c) = t := by
  rw [copyBody_eq]
  split_ifs with hv <;> simp [hv]

theorem queryBody_ok_iff {f : Context → Nat} : queryBody c f s = .ok t ↔
    (s.ctx c).valid = true ∧ s.setResult (BitVec.ofNat 32 (f (s.ctx c))) = t := by
  rw [queryBody_eq]
  split_ifs with hv <;> simp [hv]

theorem updateByteBody_ok_iff {b : Byte} : updateByteBody c b s = .ok t ↔
    (s.ctx c).valid = true ∧ (s.ctx c).phase = .absorbing ∧ s.setCtx c ((s.ctx c).absorbByte b) = t := by
  rw [updateByteBody_eq]
  split_ifs with hv hp <;> simp_all

theorem updateBody_ok_iff {off len : Half} : updateBody c off len s = .ok t ↔
    (s.ctx c).valid = true ∧ (s.ctx c).phase = .absorbing ∧ regionLegal s.build off len.toNat ∧
      s.setCtx c ((s.ctx c).absorbBytes (s.source off len)) = t := by
  rw [updateBody_eq]
  split_ifs with hv hp hr <;> simp_all

theorem resetBody_ok_iff (hl : (s.ctx c).valid = true → (s.ctx c).Legal) :
    resetBody c s = .ok t ↔ (s.ctx c).valid = true ∧ s.setCtx c (s.ctx c).cleared = t := by
  by_cases hv : (s.ctx c).valid = true
  · rw [resetBody_ok s hv (hl hv), Except.ok.injEq, and_iff_right hv]
  · simp [resetBody_eq, hv]

/-- What DO_FINAL and DO_FINAL_XOF leave: n bytes of the context's output in memory, and the context reset. -/
def State.finalized (s : State) (c : CtxId) (off : Half) (n : Nat) : State :=
  (s.setCtx c (s.ctx c).cleared).memWrite off.toNat ((List.range n).map (s.ctx c).outputByte)

/-- What DO_OUTPUT leaves: n bytes of the context's output in memory, and the context after them. -/
def State.streamed (s : State) (c : CtxId) (off : Half) (n : Nat) : State :=
  (s.setCtx c (Context.squeezeBytes n (s.ctx c).injectSuffix.toSqueezing).1).memWrite off.toNat
    ((List.range n).map (s.ctx c).outputByte)

theorem doFinalBody_ok_iff {off : Half} (hl : (s.ctx c).valid = true → (s.ctx c).Legal) : doFinalBody c off s = .ok t ↔
    (s.ctx c).valid = true ∧ regionLegal s.build off (s.ctx c).cfg.dsize ∧
      s.finalized c off (s.ctx c).cfg.dsize = t := by
  rw [doFinalBody_eq]
  split_ifs with hv hr
  · rw [s.output_reset (hl hv), Except.ok.injEq, and_iff_right hv, and_iff_right (of_decide_eq_true hr)]
    rfl
  · simp_all
  · simp [hv]

theorem doFinalXofBody_ok_iff {off len : Half} (hl : (s.ctx c).valid = true → (s.ctx c).Legal) :
    doFinalXofBody c off len s = .ok t ↔
      (s.ctx c).valid = true ∧ (s.ctx c).cfg.xof = true ∧ regionLegal s.build off len.toNat ∧
        s.finalized c off len.toNat = t := by
  rw [doFinalXofBody_eq]
  split_ifs with hv hx hr
  · rw [s.output_reset (hl hv), Except.ok.injEq, and_iff_right hv, and_iff_right hx,
      and_iff_right (of_decide_eq_true hr)]
    rfl
  · simp_all
  · simp [hx]
  · simp [hv]

theorem doOutputBody_ok_iff {off len : Half} (hl : (s.ctx c).valid = true → (s.ctx c).Legal) :
    doOutputBody c off len s = .ok t ↔
      (s.ctx c).valid = true ∧ (s.ctx c).cfg.xof = true ∧ regionLegal s.build off len.toNat ∧
        s.streamed c off len.toNat = t := by
  rw [doOutputBody_eq]
  split_ifs with hv hx hr
  · rw [s.output_legal (hl hv), Except.ok.injEq, and_iff_right hv, and_iff_right hx,
      and_iff_right (of_decide_eq_true hr)]
    rfl
  · simp_all
  · simp [hx]
  · simp [hv]

/-- A command that ended without an error is its body's state, finished. -/
theorem exec_success {i : Instr} (h : exec i s = .next t) (he : t.status.err = none) :
    ∃ u, bodyOf i s = .ok u ∧ t = u.finish (opOf i) (ctxOf i) none := by
  obtain hok | ⟨e, -, rfl⟩ := exec_cases h
  · exact hok
  · cases he

end Sys2Proof.Machine
end

section
/-! PROOFS. The invariants hold at reset and every step keeps them (spec/10_state.md R32, R24; spec/20_memory.md R64;
spec/70_reset_and_hazards.md R300): through the bodies of the commands, the Host's accesses and the reset events. -/

namespace Sys2Proof.Machine

/-! ## The commands -/

theorem State.Inv.legal {s : State} (h : s.Inv) (c : CtxId) (hv : (s.ctx c).valid = true) : (s.ctx c).Legal :=
  (h.ctxs c).configured hv

theorem State.Inv.setResult {s : State} (h : s.Inv) (v : Reg) : (s.setResult v).Inv :=
  ⟨h.build, h.memWf, h.memBelow, h.ctxs, h.absent, h.resetIdle⟩

/-- CONFIG's context is legal: its configuration is a row of R160. -/
theorem configured_inv (X : Context) {v : Byte} {n : Half} {row : Cfg} (h : configRow v n = .ok row) :
    (configured X row).Inv := by
  obtain ⟨_, -, hrow⟩ := configRow_ok.1 h
  have legal : (configured X row).Legal :=
    Context.Legal.of_cleared (X := { X with valid := true, cfg := row }) (variantRow_mem hrow)
  exact legal.inv rfl fun _ => rfl

theorem Context.Legal.cleared_inv {X : Context} (h : X.Legal) (hv : X.valid = true) : X.cleared.Inv :=
  (Context.Legal.of_cleared h.row).inv hv fun _ => rfl

theorem State.Inv.finalized {s : State} (h : s.Inv) {c : CtxId} (hc : ctxInRange s.build c) {off : Half} {n : Nat}
    (hv : (s.ctx c).valid = true) (hr : regionLegal s.build off n) : (s.finalized c off n).Inv :=
  (h.setCtx hc ((h.legal c hv).cleared_inv hv)).memWrite (by simpa using hr)

theorem State.Inv.streamed {s : State} (h : s.Inv) {c : CtxId} (hc : ctxInRange s.build c) {off : Half} {n : Nat}
    (hv : (s.ctx c).valid = true) (hx : (s.ctx c).cfg.xof = true) (hr : regionLegal s.build off n) :
    (s.streamed c off n).Inv := by
  have legal := (h.legal c hv).toSqueezing.squeezeBytes n (Context.toSqueezing_phase _)
  exact (h.setCtx hc (legal.inv (by simpa using hv) (by simp [hx]))).memWrite (by simpa using hr)

/-- The body of a well-formed command keeps the invariants. -/
theorem body_inv {i : Instr} {s t : State} (hs : s.Inv) (hwf : wellFormed s.build i = true) (h : bodyOf i s = .ok t) :
    t.Inv := by
  have hc : ctxInRange s.build (ctxOf i) := ((wellFormed_iff _ _).1 hwf).1
  cases i with
  | config c v n =>
    obtain ⟨row, hrow, rfl⟩ := configBody_ok_iff.1 h
    exact hs.setCtx hc (configured_inv _ hrow)
  | reset c =>
    obtain ⟨hv, rfl⟩ := (resetBody_ok_iff (hs.legal c)).1 h
    exact hs.setCtx hc ((hs.legal c hv).cleared_inv hv)
  | updateByte c b =>
    obtain ⟨hv, hp, rfl⟩ := updateByteBody_ok_iff.1 h
    exact hs.setCtx hc ((Context.absorbByte_legal (hs.legal c hv) hp b).inv (by simpa using hv) (by simp [hp]))
  | update c off len =>
    obtain ⟨hv, hp, -, rfl⟩ := updateBody_ok_iff.1 h
    exact hs.setCtx hc ((Context.absorbBytes_legal _ (hs.legal c hv) hp).inv (by simpa using hv) (by simp [hp]))
  | doFinal c off =>
    obtain ⟨hv, hr, rfl⟩ := (doFinalBody_ok_iff (hs.legal c)).1 h
    exact hs.finalized hc hv hr
  | doFinalXof c off len =>
    obtain ⟨hv, -, hr, rfl⟩ := (doFinalXofBody_ok_iff (hs.legal c)).1 h
    exact hs.finalized hc hv hr
  | doOutput c off len =>
    obtain ⟨hv, hx, hr, rfl⟩ := (doOutputBody_ok_iff (hs.legal c)).1 h
    exact hs.streamed hc hv hx hr
  | copy d c =>
    obtain ⟨-, rfl⟩ := copyBody_ok_iff.1 h
    exact hs.setCtx hc (hs.ctxs c)
  | getDigestSize c =>
    obtain ⟨-, rfl⟩ := (queryBody_ok_iff (f := fun X => X.cfg.dsize)).1 h
    exact hs.setResult _
  | getByteLength c =>
    obtain ⟨-, rfl⟩ := (queryBody_ok_iff (f := fun X => X.cfg.rate / 8)).1 h
    exact hs.setResult _

/-- So does the whole command, and an error changes STATUS only. -/
theorem exec_inv {i : Instr} {s t : State} (hs : s.Inv) (hwf : wellFormed s.build i = true) (h : exec i s = .next t) :
    t.Inv := by
  obtain ⟨u, hu, rfl⟩ | ⟨e, -, rfl⟩ := exec_cases h
  · exact (body_inv hs hwf hu).finish _ _ _
  · exact hs.finish _ _ _

theorem runWord_inv {w : CmdWord} {s t : State} (hs : s.Inv) (h : runWord w s = .next t) : t.Inv := by
  cases hd : decode s.build w with
  | ok i =>
    rw [runWord_ok hd] at h
    exact exec_inv hs (wellFormed_of_decode hd) h
  | error e =>
    rw [runWord_error hd, rejectWord, Host.Outcome.next.injEq] at h
    exact h ▸ hs.finish _ _ _

theorem coreTurn_inv {s t : State} (hs : s.Inv) (h : coreTurn s = .next t) : t.Inv := by
  cases hw : s.inFlight with
  | none =>
    rw [coreTurn_idle hw, Host.Outcome.next.injEq] at h
    exact h ▸ hs
  | some w =>
    rw [coreTurn_inFlight hw] at h
    exact runWord_inv hs h

/-! ## The Host's accesses -/

/-- An access its region accepts does one of three things: it only answers, it writes a register, or it writes the
buffer memory while BUSY = 0. -/
theorem access_cases {a : BusAccess} {off : Nat} {s t : State} (h : s.access a off = .next t) :
    (∃ r, r ≠ .busError ∧ t = s.respond r) ∨
    (∃ w addr v, a = .write w addr v ∧ regionOf s.build off = .registers ∧ t = (s.regWrite off v).respond .ack) ∨
    ∃ w addr v, a = .write w addr v ∧ regionOf s.build off = .buffer ∧ s.busy = false ∧
      t = (s.bufWrite w (off - 0x10000) v).respond .ack := by
  unfold State.access at h
  split at h
  case h_1 | h_3 | h_4 => exact .inl ⟨_, by simp, (Host.Outcome.next.inj h).symm⟩
  case h_2 w addr v hreg => exact .inr (.inl ⟨w, addr, v, rfl, hreg, (Host.Outcome.next.inj h).symm⟩)
  case h_5 =>
    split_ifs at h
    exact .inl ⟨_, by simp, (Host.Outcome.next.inj h).symm⟩
  case h_6 w addr v hreg =>
    split_ifs at h with hb
    exact .inr (.inr ⟨w, addr, v, rfl, hreg, by simpa using hb, (Host.Outcome.next.inj h).symm⟩)

/-- An access that answers is in the window and out of reset; it gets the bus error, or its region accepts it. -/
theorem hostAccess_next {a : BusAccess} {s t : State} (h : hostAccess a s = .next t) :
    inWindow s.build a.addr ∧ s.inReset = false ∧
      (t = s.respond .busError ∨
        accessAllowed (regionOf s.build (a.addr - s.build.base)) a.width (a.addr - s.build.base) ∧
          s.access a (a.addr - s.build.base) = .next t) := by
  unfold hostAccess at h
  split_ifs at h with hwin hreset hal
  · exact ⟨hwin, by simpa using hreset, .inr ⟨hal, h⟩⟩
  · exact ⟨hwin, by simpa using hreset, .inl (Host.Outcome.next.inj h).symm⟩

theorem State.Inv.respond {s : State} (h : s.Inv) (r : BusResponse) : (s.respond r).Inv :=
  ⟨h.build, h.memWf, h.memBelow, h.ctxs, h.absent, h.resetIdle⟩

theorem State.Inv.popEvent {s : State} (h : s.Inv) : s.popEvent.Inv :=
  ⟨h.build, h.memWf, h.memBelow, h.ctxs, h.absent, h.resetIdle⟩

/-- Out of reset the status, ARG and the word in flight are free. -/
theorem State.Inv.regWrite {s : State} (h : s.Inv) (hr : s.inReset = false) (off : Nat) (v : Reg) :
    (s.regWrite off v).Inv := by
  unfold State.regWrite State.writeCmd
  split_ifs <;> exact ⟨h.build, h.memWf, h.memBelow, h.ctxs, h.absent, fun g => absurd (g.symm.trans hr) (by decide)⟩

/-- An aligned write that starts in the buffer memory ends in it, MEMSZ being a multiple of 4 (R10). -/
theorem State.Inv.bufWrite {s : State} (h : s.Inv) {w : Width} {a : Nat} (ha : a < s.build.memsz)
    (halign : a % w.bytes = 0) (v : Reg) : (s.bufWrite w a v).Inv := by
  have := memsz_bounds h.build
  refine h.memWrite ?_
  rw [length_leBytes]
  obtain hw | hw | hw := w.bytes_cases <;> rw [hw] at halign ⊢ <;> omega

theorem hostAccess_inv {a : BusAccess} {s t : State} (hs : s.Inv) (h : hostAccess a s = .next t) : t.Inv := by
  obtain ⟨-, hr, rfl | ⟨⟨halign, -⟩, hacc⟩⟩ := hostAccess_next h
  · exact hs.respond _
  · obtain ⟨r, -, rfl⟩ | ⟨w, addr, v, -, -, rfl⟩ | ⟨w, addr, v, rfl, hreg, -, rfl⟩ := access_cases hacc
    · exact hs.respond _
    · exact (hs.regWrite hr _ v).respond _
    · rw [regionOf_buffer] at hreg
      refine (hs.bufWrite (by omega) ?_ v).respond _
      have hw : w.bytes ∣ 0x10000 := by cases w <;> decide
      exact Nat.mod_eq_zero_of_dvd ((Nat.dvd_sub (Nat.dvd_of_mod_eq_zero halign) hw))

/-! ## The events -/

theorem State.powerOn_ctx (b : Build) (n : Nat) (c : CtxId) : (State.powerOn b n).ctx c = Context.powerOn := by
  simp [State.ctx, State.powerOn]

/-- A build fresh from power-on keeps the invariants. -/
theorem State.powerOn_inv {b : Build} (hb : b.Legal) (n : Nat) : (State.powerOn b n).Inv where
  build := hb
  memWf := Memory.wf_nil
  memBelow := fun _ he => absurd he List.not_mem_nil
  ctxs := fun c => by rw [State.powerOn_ctx]; exact Context.powerOn_inv
  absent := fun c _ => by rw [State.powerOn_ctx]; rfl
  resetIdle := fun _ => rfl

theorem assertReset_inv {s : State} (h : s.Inv) : (assertReset s).Inv :=
  have fresh := State.powerOn_inv h.build (s.powerOns + 1)
  ⟨fresh.build, fresh.memWf, fresh.memBelow, fresh.ctxs, fresh.absent, fun _ => rfl⟩

theorem releaseReset_inv {s : State} (h : s.Inv) : (releaseReset s).Inv :=
  ⟨h.build, h.memWf, h.memBelow, h.ctxs, h.absent, fun g => absurd g Bool.false_ne_true⟩

theorem handle_inv {e : Event} {s t : State} (hs : s.Inv) (h : handle e s = .next t) : t.Inv := by
  cases e with
  | host a => exact hostAccess_inv hs h
  | core => exact coreTurn_inv hs h
  | hostCore a =>
    change hostThenCore a s = .next t at h
    rw [hostThenCore] at h
    split at h
    next u hu => exact coreTurn_inv (hostAccess_inv hs hu) h
    all_goals cases h
  | resetAssert => exact Host.Outcome.next.inj h ▸ assertReset_inv hs
  | resetRelease => exact Host.Outcome.next.inj h ▸ releaseReset_inv hs

/-- Settles O55: reset is power-on of the default build. -/
theorem invariantHoldsAtReset : Obligations.InvariantHoldsAtReset := State.powerOn_inv (by decide) 0

/-- Settles O56: the core's turn and every event keep the invariants. -/
theorem stepKeepsTheInvariant : Obligations.StepKeepsTheInvariant := by
  intro s t hs h
  cases hp : s.host.pending with
  | nil =>
    rw [step_nil hp] at h
    exact coreTurn_inv hs h
  | cons e es =>
    rw [step, stepEvent, hp] at h
    exact handle_inv hs.popEvent h

end Sys2Proof.Machine
end

section
/-! PROOFS. The error of a command (spec/60_exceptions.md R261, R263): that of its first failing check, or Init's own
where a command resets a context whose rate and capacity Init does not accept. -/

namespace Sys2Proof.Machine

/-! ## The error a body raises -/

/-- The error of a body's result. -/
def errorOf : Except ErrKind State → Option ErrKind
  | .ok _ => none
  | .error e => some e

@[simp] theorem errorOf_ok (t : State) : errorOf (.ok t) = none := rfl
@[simp] theorem errorOf_error (e : ErrKind) : errorOf (.error e) = some e := rfl

theorem exec_err {i : Instr} {s t : State} (h : exec i s = .next t) : t.status.err = errorOf (bodyOf i s) := by
  obtain ⟨u, hu, rfl⟩ | ⟨e, he, rfl⟩ := exec_cases h
  · rw [hu]; rfl
  · rw [he]; rfl

/-- A check before the rest of a body: its error if it fails, else the rest's. -/
theorem errorOf_check (p : Prop) [Decidable p] (e : ErrKind) (r : Except ErrKind State) :
    errorOf (if p then r else .error e) = if ¬ p then some e else errorOf r := by
  split_ifs <;> rfl

/-- The error Init raises for a context's rate and capacity (R150). -/
def initError (X : Context) : Option ErrKind :=
  if rateLegal X.cfg.rate X.cfg.capacity then none else some .configurationError

theorem resetAfter_err (s : State) (c : CtxId) : errorOf (s.resetAfter c) = initError (s.ctx c) := by
  unfold initError
  split_ifs with h
  · rw [State.resetAfter_ok s h, errorOf_ok]
  · rw [State.resetAfter, Context.resetSponge, Context.init_error _ h]
    rfl

/-- Output keeps the configuration, so Reset after it fails as Reset before it would. -/
theorem output_reset_err (s : State) (c : CtxId) (off : Half) (n : Nat) :
    errorOf (do let t ← s.output c off n; t.resetAfter c) = initError (s.ctx c) := by
  rw [s.output_ok]
  refine (resetAfter_err _ c).trans ?_
  rw [initError, State.memWrite_ctx, State.ctx_setCtx_same, Context.squeezeLoop_cfg, Context.toSqueezing_cfg,
    Context.injectSuffix_cfg]
  rfl

theorem resetBody_eq_resetAfter (s : State) (c : CtxId) :
    resetBody c s = if (s.ctx c).valid then s.resetAfter c else .error .stateError := resetBody_eq s c

theorem output_err (s : State) (c : CtxId) (off : Half) (n : Nat) : errorOf (s.output c off n) = none := by
  rw [s.output_ok, errorOf_ok]

/-- CONFIG's one check, P3, is that of its row. -/
theorem configBody_err (s : State) (c : CtxId) (v : Byte) (n : Half) :
    errorOf (configBody c v n s) = if n.toNat ∉ bitLengths v then some .configurationError else none := by
  have hrow := configRow_exists v n
  cases h : configRow v n with
  | ok row => rw [configBody_ok s c h, if_neg (not_not.2 (hrow.1 ⟨row, h⟩)), errorOf_ok]
  | error e => rw [configBody_error s c h, if_pos (by simp [← hrow, h]), errorOf_error]

/-! ## Against the table of checks -/

/-- The commands that end with Reset (R191, R222, R223). -/
def resetsContext : Instr → Bool
  | .reset _ | .doFinal _ _ | .doFinalXof _ _ _ => true
  | _ => false

theorem Phase.ne_absorbing (p : Phase) : ¬ p = .absorbing ↔ p = .squeezing := by cases p <;> decide

theorem or_of_check (p : Prop) [Decidable p] (e : ErrKind) (x y : Option ErrKind) :
    (if p then some e else x).or y = if p then some e else x.or y := by
  split_ifs <;> rfl

/-- The error of a body is that of the first failing check, and if none fails Init's: the checks of each body stand in
the order of the table. -/
theorem body_err (i : Instr) (s : State) :
    errorOf (bodyOf i s) = (firstError i s).or (if resetsContext i then initError (s.ctx (ctxOf i)) else none) := by
  simp only [firstError, or_of_check]
  unfold failsP2 failsP3 failsP4 failsP5 failsP6
  cases i with
  | config c v n => simp [bodyOf, configBody_err, resetsContext]
  | reset c =>
    simp [bodyOf, resetBody_eq_resetAfter, errorOf_check, resetAfter_err, checkedCtx, ctxOf, resetsContext]
  | updateByte c b =>
    simp [bodyOf, updateByteBody_eq, errorOf_check, Phase.ne_absorbing, checkedCtx, ctxOf, resetsContext]
  | update c off len =>
    simp [bodyOf, updateBody_eq, errorOf_check, Phase.ne_absorbing, checkedCtx, ctxOf, resetsContext]
  | doFinal c off =>
    simp [bodyOf, doFinalBody_eq, errorOf_check, output_reset_err, checkedCtx, ctxOf, resetsContext]
  | doFinalXof c off len =>
    simp [bodyOf, doFinalXofBody_eq, errorOf_check, output_reset_err, checkedCtx, ctxOf, resetsContext]
  | doOutput c off len =>
    simp [bodyOf, doOutputBody_eq, errorOf_check, output_err, checkedCtx, ctxOf, resetsContext]
  | copy d c => simp [bodyOf, copyBody_eq, errorOf_check, checkedCtx, resetsContext]
  | getDigestSize c => simp [bodyOf, queryBody_eq, errorOf_check, checkedCtx, ctxOf, resetsContext]
  | getByteLength c => simp [bodyOf, queryBody_eq, errorOf_check, checkedCtx, ctxOf, resetsContext]

/-- A command that resets an unconfigured context fails P2. -/
theorem firstError_reset_unconfigured {i : Instr} {s : State} (hi : resetsContext i = true)
    (hv : (s.ctx (ctxOf i)).valid = false) : firstError i s = some .stateError := by
  cases i with
  | reset c | doFinal c off | doFinalXof c off len =>
    rw [ctxOf] at hv
    simp [firstError, failsP2, checkedCtx, ctxOf, hv]
  | _ => cases hi

/-- Settles O11: I1 leaves Init nothing to reject in a configured context. -/
theorem firstFailingCheckDecidesTheError : Obligations.FirstFailingCheckDecidesTheError := by
  intro s t w hI1 h
  cases hd : decode s.build w with
  | error e =>
    rw [runWord_error hd, rejectWord, Host.Outcome.next.injEq] at h
    rw [← h]
    rfl
  | ok i =>
    rw [runWord_ok hd] at h
    rw [exec_err h, body_err]
    cases hi : resetsContext i with
    | false => simp
    | true =>
      cases hv : (s.ctx (ctxOf i)).valid with
      | false => simp [firstError_reset_unconfigured hi hv]
      | true => rw [if_pos rfl, initError, if_pos (hI1 _ hv), Option.or_none]

/-- The errors the table of checks gives each command (R263). -/
theorem firstError_kinds {i : Instr} {s : State} {e : ErrKind} (h : firstError i s = some e) :
    match i with
    | .config _ _ _ => e = .configurationError
    | .copy _ _ | .getDigestSize _ | .getByteLength _ | .updateByte _ _ | .reset _ => e = .stateError
    | .update _ _ _ | .doFinal _ _ => e = .stateError ∨ e = .bufferError
    | .doFinalXof _ _ _ | .doOutput _ _ _ => e = .stateError ∨ e = .illegalCommand ∨ e = .bufferError := by
  unfold firstError at h
  cases i <;> simp only [failsP3, failsP4, failsP5, failsP6] at h <;> split_ifs at h <;> simp_all [failsP2]

/-- Settles O12: an error is the table's, or Init's, which only a command that resets a context can raise, and no legal
context makes Init raise. -/
theorem errorKindsOfEachCommand : Obligations.ErrorKindsOfEachCommand := by
  intro i s t e h he
  rw [exec_err h, body_err] at he
  cases hf : firstError i s with
  | some e' =>
    rw [hf, Option.some_or, Option.some.injEq] at he
    subst he
    have kinds := firstError_kinds hf
    cases i <;> simp only at kinds ⊢ <;> tauto
  | none =>
    rw [hf, Option.none_or] at he
    obtain ⟨hi, hinit⟩ : resetsContext i = true ∧ initError (s.ctx (ctxOf i)) = some e := by
      split_ifs at he with hi
      exact ⟨hi, he⟩
    have illegal : e = .configurationError ∧ ¬ (s.ctx (ctxOf i)).Legal := by
      unfold initError at hinit
      split_ifs at hinit with hrate
      exact ⟨(Option.some.inj hinit).symm, fun hl => hrate hl.rate⟩
    cases i <;> simp only [resetsContext, Bool.false_eq_true] at hi <;> simp only <;> tauto

end Sys2Proof.Machine
end

section
/-! PROOFS. The configuration and control commands, each by its body (spec/42_commands_control.md R190 to R194). -/

namespace Sys2Proof.Machine

/-! ## How the body's end is the command's -/

/-- A command whose body succeeds ends in the body's state but for STATUS and BUSY. -/
theorem exec_success_of_body {i : Instr} {s u : State} (h : bodyOf i s = .ok u) :
    exec i s = .next (u.finish (opOf i) (ctxOf i) none) ∧
    Finished s (u.finish (opOf i) (ctxOf i) none) (opOf i) (ctxOf i) none ∧
    OtherContextsKept s (u.finish (opOf i) (ctxOf i) none) (ctxOf i) :=
  ⟨exec_ok h, (body_frame h).finished _ _, (body_frame h).ctxs⟩

/-! ## CONFIG -/

/-- What a bit length fixes in a row of R160, and what the variant does. -/
theorem variantTable_fields : ∀ r ∈ variantTable,
    r.rate = 1600 - 2 * r.bitlen ∧ r.capacity = 2 * r.bitlen ∧ r.dsize = r.bitlen / 8 ∧
    r.sfxVal = (if r.variant.code = 0 then 0x0 else if r.variant.code = 1 then 0x2 else 0xF) ∧
    r.sfxLen = (if r.variant.code = 0 then 0 else if r.variant.code = 1 then 2 else 4) ∧
    r.xof = decide (r.variant.code = 2) := by decide

theorem variantOfCode_code {v : Byte} {var : Variant} (h : variantOfCode v = some var) : var.code = v := by
  unfold variantOfCode at h
  split at h
  case h_4 => cases h
  all_goals
    next hv =>
    cases h
    exact (BitVec.eq_of_toNat_eq hv).symm

/-- CONFIG's row is that of its operands. -/
theorem configRow_operands {v : Byte} {n : Half} {row : Cfg} (h : configRow v n = .ok row) :
    row ∈ variantTable ∧ row.variant.code = v ∧ row.bitlen = n.toNat := by
  obtain ⟨var, hvar, hrow⟩ := configRow_ok.1 h
  obtain ⟨rfl, hlen⟩ := variantRow_fields hrow
  exact ⟨variantRow_mem hrow, variantOfCode_code hvar, hlen⟩

/-- Settles O13: on its bit lengths CONFIG finds a row, whose fields its operands fix; else it has no row. -/
theorem configCommand : Obligations.ConfigCommand := by
  intro c v n s
  refine ⟨fun hn => ?_, fun hn => ?_⟩
  · obtain ⟨row, hrow⟩ := (configRow_exists v n).2 hn
    obtain ⟨hmem, rfl, hlen⟩ := configRow_operands hrow
    obtain ⟨hrate, hcap, hdsize, hval, hsfxLen, hxof⟩ := variantTable_fields row hmem
    rw [hlen] at hrate hcap hdsize
    obtain ⟨hexec, hfin, hother⟩ := exec_success_of_body (i := .config c _ n) (configBody_ok s c hrow)
    refine ⟨_, hexec, hfin, ?_⟩
    rw [State.finish_ctx, State.ctx_setCtx_same]
    exact ⟨rfl, rfl, hlen, hrate, hcap, hdsize, hval, hsfxLen, hxof, rfl, rfl, rfl, rfl, rfl, hother, rfl,
      fun _ => rfl⟩
  · cases hrow : configRow v n with
    | ok row => exact absurd ((configRow_exists v n).1 ⟨row, hrow⟩) hn
    | error e => exact exec_of_error (i := .config c v n) (configBody_error s c hrow)

/-! ## RESET, COPY and the queries -/

/-- Settles O14: a configured context whose rate Init accepts is cleared; P2 stops the other. -/
theorem resetCommand : Obligations.ResetCommand := by
  intro c s
  refine ⟨fun hv hrate => ?_, fun hv => ?_⟩
  · have hb : bodyOf (.reset c) s = .ok (s.setCtx c (s.ctx c).cleared) := by
      rw [bodyOf, resetBody_eq_resetAfter, if_pos hv, State.resetAfter_ok s hrate]
    obtain ⟨hexec, hfin, hother⟩ := exec_success_of_body hb
    exact ⟨_, hexec, hfin, State.ctx_setCtx_same s c _, hother, rfl, fun _ => rfl⟩
  · exact exec_of_error (i := .reset c) (by simp [bodyOf, resetBody_eq, hv])

/-- Settles O15: the body writes the source over the destination; over itself it writes what stands there. -/
theorem copyCommand : Obligations.CopyCommand := by
  intro d c s
  refine ⟨fun hv => ?_, fun hv => ?_⟩
  · have hb : bodyOf (.copy d c) s = .ok (s.setCtx d (s.ctx c)) := copyBody_ok_iff.2 ⟨hv, rfl⟩
    obtain ⟨hexec, hfin, hother⟩ := exec_success_of_body hb
    refine ⟨_, hexec, hfin, State.ctx_setCtx_same s d _, hother, ?_, rfl, fun _ => rfl⟩
    rintro rfl
    rw [State.setCtx_ctx]
    rfl
  · exact exec_of_error (i := .copy d c) (by simp [bodyOf, copyBody_eq, hv])

/-- Settles O16: the query's body sets RESULT to the count and nothing else. -/
theorem getDigestSizeCommand : Obligations.GetDigestSizeCommand := by
  intro c s
  refine ⟨fun hv => ?_, fun hv => ?_⟩
  · have hb : bodyOf (.getDigestSize c) s = .ok _ := (queryBody_ok_iff (f := fun X => X.cfg.dsize)).2 ⟨hv, rfl⟩
    obtain ⟨hexec, hfin, -⟩ := exec_success_of_body hb
    exact ⟨_, hexec, hfin, rfl, rfl, fun _ => rfl⟩
  · exact exec_of_error (i := .getDigestSize c) (by simp [bodyOf, queryBody_eq, hv])

/-- The rates of R160 in bytes. -/
theorem variantTable_rate_bytes : ∀ r ∈ variantTable,
    (BitVec.ofNat 32 (r.rate / 8)).toNat ∈ [168, 144, 136, 128, 104, 72] := by decide

/-- Settles O17: as for the digest size, with the rate in bytes, which the rows of R160 list. -/
theorem getByteLengthCommand : Obligations.GetByteLengthCommand := by
  intro c s
  refine ⟨fun hv => ?_, fun hv => ?_⟩
  · have hb : bodyOf (.getByteLength c) s = .ok _ := (queryBody_ok_iff (f := fun X => X.cfg.rate / 8)).2 ⟨hv, rfl⟩
    obtain ⟨hexec, hfin, -⟩ := exec_success_of_body hb
    exact ⟨_, hexec, hfin, rfl, variantTable_rate_bytes _, rfl, fun _ => rfl⟩
  · exact exec_of_error (i := .getByteLength c) (by simp [bodyOf, queryBody_eq, hv])

end Sys2Proof.Machine
end

section
/-! PROOFS. The data commands, each by its body (spec/43_commands_data.md R220 to R224): what the checks let through,
and the bytes and the context a finalize command leaves. -/

namespace Sys2Proof.Machine

/-! ## Absorbing -/

/-- Settles O18: AbsorbByte queues the byte, and at the end of the block absorbs it. -/
theorem updateByteCommand : Obligations.UpdateByteCommand := by
  intro c b s
  refine ⟨fun hv hp => ?_, fun hbad => ?_⟩
  · have hb : bodyOf (.updateByte c b) s = .ok _ := updateByteBody_ok_iff.2 ⟨hv, hp, rfl⟩
    obtain ⟨hexec, hfin, hother⟩ := exec_success_of_body hb
    refine ⟨_, hexec, hfin, fun hpart => ?_, fun hfull => ?_, hother, rfl, fun _ => rfl⟩
    · rw [State.finish_ctx, State.ctx_setCtx_same, Context.absorbByte_partial _ _ hpart]
    · rw [State.finish_ctx, State.ctx_setCtx_same, Context.absorbByte_full _ _ hfull]
      rfl
  · refine exec_of_error (i := .updateByte c b) ?_
    obtain hv | hp := hbad
    · simp [bodyOf, updateByteBody_eq, hv]
    · simp [bodyOf, updateByteBody_eq, hp]

/-- Absorbing a region is AbsorbByte over its addresses, lowest first (R71, R221). -/
theorem absorbBytes_source (X : Context) (s : State) (off len : Half) : X.absorbBytes (s.source off len) =
    (List.range len.toNat).foldl (fun X i => X.absorbByte (s.memByte (off.toNat + i))) X := by
  rw [Context.absorbBytes, State.source, State.memRead, List.foldl_map]

/-- Settles O19: the body absorbs the region the checks let through; the others stop at P2 or P5, or at P6. -/
theorem updateCommand : Obligations.UpdateCommand := by
  intro c off len s
  refine ⟨fun hv hp hr => ?_, fun hbad => ?_, fun hv hp hr => ?_⟩
  · have hb : bodyOf (.update c off len) s = .ok _ := updateBody_ok_iff.2 ⟨hv, hp, hr, rfl⟩
    obtain ⟨hexec, hfin, hother⟩ := exec_success_of_body hb
    refine ⟨_, hexec, hfin, ?_, ?_, hother, rfl, fun _ => rfl⟩
    · rw [State.finish_ctx, State.ctx_setCtx_same, absorbBytes_source]
    · rintro rfl
      have empty : s.source off 0 = [] := rfl
      rw [State.finish_ctxs, empty, Context.absorbBytes_nil, State.setCtx_ctx]
  · refine exec_of_error (i := .update c off len) ?_
    obtain hv | hp := hbad
    · simp [bodyOf, updateBody_eq, hv]
    · simp [bodyOf, updateBody_eq, hp]
  · exact exec_of_error (i := .update c off len) (by simp [bodyOf, updateBody_eq, hv, hp, hr])

/-! ## Output to memory -/

/-- Output of n bytes writes them and no other, whatever context is written back beside it (R71). -/
theorem output_memory (s : State) (c : CtxId) (X : Context) (a n : Nat) (f : Nat → Byte) :
    (∀ i, i < n → ((s.setCtx c X).memWrite a ((List.range n).map f)).memByte (a + i) = f i) ∧
      MemoryKeptOutside s ((s.setCtx c X).memWrite a ((List.range n).map f)) a n := by
  refine ⟨fun i hi => ?_, fun b hb => ?_⟩
  · rw [State.memByte_memWrite_at _ _ _ (by simpa using hi)]
    simp [hi]
  · rw [State.memByte_memWrite_outside _ _ _ (by simpa using hb), State.setCtx_memByte]

/-- Settles O20: on a legal context the body outputs dsize bytes and clears the context. -/
theorem doFinalCommand : Obligations.DoFinalCommand := by
  intro c off s
  refine ⟨fun hv hl hr => ?_, fun hv => ?_, fun hv hr => ?_⟩
  · have hb : bodyOf (.doFinal c off) s = .ok _ := doFinalBody_ok s hv hl hr
    obtain ⟨hexec, hfin, hother⟩ := exec_success_of_body hb
    obtain ⟨hbytes, hkept⟩ := output_memory s c (s.ctx c).cleared off.toNat (s.ctx c).cfg.dsize (s.ctx c).outputByte
    exact ⟨_, hexec, hfin, hbytes, hkept, State.ctx_setCtx_same s c _, hother, rfl⟩
  · exact exec_of_error (i := .doFinal c off) (by simp [bodyOf, doFinalBody_eq, hv])
  · exact exec_of_error (i := .doFinal c off) (by simp [bodyOf, doFinalBody_eq, hv, hr])

/-- Settles O21: as DO_FINAL with LEN bytes, after the check that the context is SHAKE. -/
theorem doFinalXofCommand : Obligations.DoFinalXofCommand := by
  intro c off len s
  refine ⟨fun hv hl hx hr => ?_, fun hv => ?_, fun hv hx => ?_, fun hv hx hr => ?_⟩
  · have hb : bodyOf (.doFinalXof c off len) s = .ok _ := doFinalXofBody_ok s hv hl hx hr
    obtain ⟨hexec, hfin, hother⟩ := exec_success_of_body hb
    obtain ⟨hbytes, hkept⟩ := output_memory s c (s.ctx c).cleared off.toNat len.toNat (s.ctx c).outputByte
    exact ⟨_, hexec, hfin, hbytes, hkept, State.ctx_setCtx_same s c _, hother, rfl⟩
  · exact exec_of_error (i := .doFinalXof c off len) (by simp [bodyOf, doFinalXofBody_eq, hv])
  · exact exec_of_error (i := .doFinalXof c off len) (by simp [bodyOf, doFinalXofBody_eq, hv, hx])
  · exact exec_of_error (i := .doFinalXof c off len) (by simp [bodyOf, doFinalXofBody_eq, hv, hx, hr])

/-- A Squeezing context outputs its stream. -/
theorem Context.outputByte_squeezing {X : Context} (h : X.phase = .squeezing) (i : Nat) :
    X.outputByte i = X.streamByte i := by
  rw [outputByte, injectSuffix_squeezing X h, toSqueezing_of_squeezing X h]

/-- After n bytes of output the context's output goes on with byte n (R165). -/
theorem Context.Legal.outputByte_squeezeBytes {X : Context} (h : X.Legal) (n i : Nat) :
    (Context.squeezeBytes n X.injectSuffix.toSqueezing).1.outputByte i = X.outputByte (n + i) := by
  rw [outputByte_squeezing (by rw [squeezeBytes_phase, toSqueezing_phase]),
    (squeezeBytes_stream n h.toSqueezing (toSqueezing_phase _)).2]
  rfl

/-- The context Squeeze's loop leaves is that of the bytes one at a time. -/
theorem Context.Legal.squeezeLoop_eq {X : Context} (h : X.Legal) (n : Nat) :
    Context.squeezeLoop (8 * n) X.injectSuffix.toSqueezing (8 * n) =
      Context.squeezeBytes n X.injectSuffix.toSqueezing := by
  have := h.squeeze_eq n
  rwa [squeeze_ok _ (by omega), Except.ok.injEq] at this

/-- Settles O22: on a legal context the body outputs LEN bytes and leaves the context after them. -/
theorem doOutputCommand : Obligations.DoOutputCommand := by
  intro c off len s
  refine ⟨fun hv hl hx hr => ?_, fun hv => ?_, fun hv hx => ?_, fun hv hx hr => ?_⟩
  · have hb : bodyOf (.doOutput c off len) s = .ok _ := doOutputBody_ok s hv hl hx hr
    obtain ⟨hexec, hfin, hother⟩ := exec_success_of_body hb
    obtain ⟨hbytes, hkept⟩ := output_memory s c
      (Context.squeezeBytes len.toNat (s.ctx c).injectSuffix.toSqueezing).1 off.toNat len.toNat (s.ctx c).outputByte
    refine ⟨_, hexec, hfin, hbytes, hkept, ?_⟩
    rw [State.finish_ctx, State.memWrite_ctx, State.ctx_setCtx_same, hl.squeezeLoop_eq]
    exact ⟨rfl, by simp, by simp, by simpa using hv, hl.outputByte_squeezeBytes _, hother, rfl⟩
  · exact exec_of_error (i := .doOutput c off len) (by simp [bodyOf, doOutputBody_eq, hv])
  · exact exec_of_error (i := .doOutput c off len) (by simp [bodyOf, doOutputBody_eq, hv, hx])
  · exact exec_of_error (i := .doOutput c off len) (by simp [bodyOf, doOutputBody_eq, hv, hx, hr])

end Sys2Proof.Machine
end

section
/-! PROOFS. The sponge engine's own rules (spec/41_sponge_engine.md R150 to R162): absorbing a block, the finalize
transition, Squeeze, and the two failures. -/

namespace Sys2Proof.Machine

/-! ## Absorbing a block and padding -/

/-- Settles O23: the XOR byte by byte, then the permutation. -/
theorem absorbBlockXorsAndPermutes : Obligations.AbsorbBlockXorsAndPermutes := by
  refine ⟨fun A i _ => ?_, fun X hr => ⟨_, rfl, fun i _ => stateByte_xorQueue _ _ (by omega) i,
    fun k hk => laneK_xorQueue_capacity _ _ (by omega) hk, rfl⟩⟩
  apply BitVec.eq_of_getLsbD_eq
  intro t ht
  rw [getLsbD_stateByte A i ht, BitVec.getLsbD_extractLsb', decide_eq_true ht, Bool.true_and]

/-- The block the finalize transition absorbs: message, suffix, and pad10*1 (R63, R154). -/
theorem Context.Legal.queueBit_paddedSuffix {X : Context} (h : X.Legal) (hp : X.phase = .absorbing) (k : Nat) :
    queueBit X.injectSuffix.padded.queue k =
      if k < X.biq then queueBit X.queue k
      else if k < X.biq + X.cfg.sfxLen then X.cfg.sfxVal.getLsbD (k - X.biq)
      else decide (k = X.biq + X.cfg.sfxLen ∨ k = X.cfg.rate - 1) := by
  have hroom := h.biq_lt hp
  have hb := h.bounds
  rw [(h.padReady hp).queueBit_padded, h.queueBit_injectSuffix hp, h.injectSuffix_biq hp, injectSuffix_cfg]
  by_cases hmsg : k < X.biq
  · rw [if_neg (by omega), if_pos hmsg, decide_eq_false (by omega), decide_eq_false (by omega), Bool.or_false,
      Bool.or_false]
  · rw [if_neg hmsg]
    by_cases hsfx : k < X.biq + X.cfg.sfxLen
    · rw [if_pos (by omega), if_pos hsfx, decide_eq_false (by omega), decide_eq_false (by omega), Bool.or_false,
        Bool.or_false]
    · rw [if_neg (by omega), if_neg hsfx, (h.absorbing hp).2.2.2 k (by omega), Bool.false_or, Bool.decide_or]

/-- Settles O24: the suffix absorbs no block, so PadSwitch absorbs the padded one, permutes and extracts. -/
theorem finalizeAbsorbsThePaddedBlock : Obligations.FinalizeAbsorbsThePaddedBlock := by
  refine ⟨fun _ _ => rfl, fun X h hp => ⟨X.injectSuffix.padded.queue, h.queueBit_paddedSuffix hp, ?_⟩⟩
  have ready := h.padReady hp
  have legal := h.toSqueezing
  have hcfg : X.injectSuffix.toSqueezing.cfg = X.cfg := by simp
  have hsq : X.injectSuffix.toSqueezing = X.injectSuffix.padSwitch := if_pos (by rw [Context.injectSuffix_phase, hp])
  refine ⟨?_, Context.toSqueezing_phase _, (legal.squeezing (Context.toSqueezing_phase _)).1, ?_, hcfg, ?_⟩
  · rw [hsq, ready.padSwitch_lanes, h.injectSuffix_lanes, Context.injectSuffix_cfg]
  · rw [hsq, ready.padSwitch_bas, Context.injectSuffix_cfg]
  · rw [← hcfg]
    exact legal.extracted (Context.toSqueezing_phase _)

/-- Settles O25: the suffix has at most four bits, and eight are free. -/
theorem suffixLeavesRoomForThePadding : Obligations.SuffixLeavesRoomForThePadding := by
  intro X h hp
  have hroom := h.biq_lt hp
  have hb := h.bounds
  rw [h.injectSuffix_biq hp]
  exact ⟨by omega, by omega, h.injectSuffix_lanes⟩

/-- Settles O26: the branch of PadSwitch where the first pad bit fills the block. -/
theorem paddingSpansTwoBlocksAtTheEdge : Obligations.PaddingSpansTwoBlocksAtTheEdge := by
  intro X h
  have hpad : X.padded =
      { { X with queue := queueSetBit X.queue X.biq }.absorbBlock with
        queue := queueSetBit queueZero (X.cfg.rate - 1) } := by
    simp only [Context.padded, if_pos h, Context.absorbBlock_queue]
  rw [Context.padSwitch, Context.extract_lanes, hpad]
  rfl

/-! ## Squeeze and Init -/

/-- Settles O27: byte by byte Squeeze reads the stream and keeps the context legal. -/
theorem squeezeOutputsTheStream : Obligations.SqueezeOutputsTheStream := by
  intro X n h hs
  have heq := h.squeeze_eq n
  rw [Context.injectSuffix_squeezing X hs, Context.toSqueezing_of_squeezing X hs] at heq
  obtain ⟨hbytes, hnext⟩ := Context.squeezeBytes_stream n h hs
  refine ⟨(Context.squeezeBytes n X).1, ?_, h.squeezeBytes n hs, by simpa using hs, by simp, by simp, hnext⟩
  rw [heq, ← hbytes]

/-- Settles O28: both checks stand before the operation. -/
theorem engineFailuresComeBeforeAnyChange : Obligations.EngineFailuresComeBeforeAnyChange :=
  ⟨fun X _ _ h => X.init_error h, fun X r hr => ⟨_, X.init_ok (variantTable_rateLegal r hr)⟩, fun _ _ h => if_pos h⟩

end Sys2Proof.Machine
end

section
/-! PROOFS. Commands one after another (spec/41_sponge_engine.md R163 to R165; spec/70_reset_and_hazards.md R302, R303):
absorbing in pieces, output in pieces, RESET against CONFIG, and the phase after each command. -/

namespace Sys2Proof.Machine

/-! ## Absorbing in pieces (R164) -/

/-- The bytes of two neighbouring regions are those of their union; an empty second region may stand anywhere. -/
theorem source_add (s : State) {off n m : Half} (hnm : n.toNat + m.toNat < 2 ^ 16)
    (h : off.toNat + n.toNat < 2 ^ 16 ∨ m = 0) :
    s.source off (n + m) = s.source off n ++ s.source (off + n) m := by
  obtain h | rfl := h
  · rw [State.source, BitVec.toNat_add_of_lt hnm, State.memRead_add, State.source, State.source, BitVec.toNat_add_of_lt h]
  · rw [show n + 0 = n from BitVec.add_zero n]
    exact (List.append_nil _).symm

/-- Settles O29: the queue takes the bytes one by one, so only their order counts. -/
theorem absorbingIsChunkIndependent : Obligations.AbsorbingIsChunkIndependent := by
  refine ⟨fun c off n m s t u hnm hoff ht hte hu hue => ?_, fun c off s t ht hte => ?_⟩
  · obtain ⟨s1, hs1, rfl⟩ := exec_success ht hte
    obtain ⟨hv, hp, hr1, rfl⟩ := updateBody_ok_iff.1 hs1
    obtain ⟨t1, ht1, rfl⟩ := exec_success hu hue
    obtain ⟨-, -, hr2, rfl⟩ := updateBody_ok_iff.1 ht1
    have hr : regionLegal s.build off (n + m).toNat := by
      obtain h | rfl := hoff
      · change (off + n).toNat + m.toNat ≤ s.build.memsz at hr2
        rw [BitVec.toNat_add_of_lt h] at hr2
        rw [regionLegal, BitVec.toNat_add_of_lt hnm]
        omega
      · simpa using hr1
    obtain ⟨v, hv, hfin, hvc, -⟩ :=
      exec_of_ok (i := .update c off (n + m)) (updateBody_ok_iff.2 ⟨hv, hp, hr, rfl⟩)
    refine ⟨v, hv, hfin.err, ?_⟩
    rw [hvc, source_add s hnm hoff, Context.absorbBytes_append]
    simp [State.source]
  · obtain ⟨s1, hs1, rfl⟩ := exec_success ht hte
    obtain ⟨hv, hp, -, rfl⟩ := updateBody_ok_iff.1 hs1
    obtain ⟨v, hv, hfin, hvc, -⟩ :=
      exec_of_ok (i := .updateByte c (s.memByte off.toNat)) (updateByteBody_ok_iff.2 ⟨hv, hp, rfl⟩)
    exact ⟨v, hv, hfin.err, hvc⟩

/-! ## Output in pieces (R165) -/

/-- Memory after an output of n bytes. -/
theorem memByte_streamed (s : State) (c : CtxId) (off : Half) (n a : Nat) : (s.streamed c off n).memByte a =
    if off.toNat ≤ a ∧ a < off.toNat + n then (s.ctx c).outputByte (a - off.toNat) else s.memByte a := by
  rw [State.streamed, State.memByte_memWrite]
  simp only [List.length_map, List.length_range, State.setCtx_memByte]
  split_ifs with h
  · simp [show a - off.toNat < n by omega]
  · rfl

theorem ctx_streamed (s : State) (c : CtxId) (off : Half) (n : Nat) :
    (s.streamed c off n).ctx c = (Context.squeezeBytes n (s.ctx c).injectSuffix.toSqueezing).1 := by
  rw [State.streamed, State.memWrite_ctx, State.ctx_setCtx_same]

/-- Squeezing on after n bytes is squeezing more in one go. -/
theorem Context.squeezeBytes_again (X : Context) (n m : Nat) :
    (Context.squeezeBytes m (Context.squeezeBytes n X.injectSuffix.toSqueezing).1.injectSuffix.toSqueezing).1 =
      (Context.squeezeBytes (n + m) X.injectSuffix.toSqueezing).1 := by
  have hs : (Context.squeezeBytes n X.injectSuffix.toSqueezing).1.phase = .squeezing := by simp
  rw [injectSuffix_squeezing _ hs, toSqueezing_of_squeezing _ hs, squeezeBytes_add]

/-- Settles O30: the second output goes on with the byte after the first, from the context the first left. -/
theorem outputIsStreamingConsistent : Obligations.OutputIsStreamingConsistent := by
  intro c off n m s t u hs hnm hoff ht hte hu hue
  obtain ⟨s1, hs1, rfl⟩ := exec_success ht hte
  obtain ⟨hv, hx, -, rfl⟩ := (doOutputBody_ok_iff (hs.legal c)).1 hs1
  have hl := hs.legal c hv
  have hctx : ((s.streamed c off n.toNat).finish (opOf (.doOutput c off n)) (ctxOf (.doOutput c off n)) none).ctx c =
      (Context.squeezeBytes n.toNat (s.ctx c).injectSuffix.toSqueezing).1 := ctx_streamed s c off n.toNat
  obtain ⟨t1, ht1, rfl⟩ := exec_success hu hue
  obtain ⟨-, -, hr2, rfl⟩ := (doOutputBody_ok_iff fun _ => by
    rw [hctx]
    exact hl.toSqueezing.squeezeBytes _ (Context.toSqueezing_phase _)).1 ht1
  have hr : regionLegal s.build off (n + m).toNat := by
    change (off + n).toNat + m.toNat ≤ s.build.memsz at hr2
    rw [BitVec.toNat_add_of_lt hoff] at hr2
    rw [regionLegal, BitVec.toNat_add_of_lt hnm]
    omega
  obtain ⟨v, hv, hfin, hvc, -, hmem, hpow⟩ :=
    exec_of_ok (i := .doOutput c off (n + m)) ((doOutputBody_ok_iff (hs.legal c)).2 ⟨hv, hx, hr, rfl⟩)
  refine ⟨v, hv, hfin.err, ?_, fun a => ?_⟩
  · rw [hvc, State.finish_ctxs, State.streamed, State.streamed, hctx, Context.squeezeBytes_again, BitVec.toNat_add_of_lt hnm]
    simp [State.streamed]
  · rw [State.memByte_eq, hmem, hpow, ← State.memByte_eq, State.finish_memByte, memByte_streamed, memByte_streamed, hctx, hl.outputByte_squeezeBytes,
      State.finish_memByte, memByte_streamed, BitVec.toNat_add_of_lt hnm, BitVec.toNat_add_of_lt hoff]
    by_cases h2 : off.toNat + n.toNat ≤ a ∧ a < off.toNat + n.toNat + m.toNat
    · rw [if_pos h2, if_pos (by omega)]
      congr 1
      omega
    · rw [if_neg h2]
      by_cases h1 : off.toNat ≤ a ∧ a < off.toNat + n.toNat
      · rw [if_pos h1, if_pos (by omega)]
      · rw [if_neg h1, if_neg (by omega)]

/-! ## RESET against CONFIG (R302, R303) -/

/-- CONFIG finds every row of R160 by its variant and bit length. -/
theorem configRow_of_mem : ∀ r ∈ variantTable, configRow r.variant.code (BitVec.ofNat 16 r.bitlen) = .ok r := by decide

/-- Settles O31: CONFIG finds the context's own row, and what it installs is the cleared context. -/
theorem resetEqualsFreshConfig : Obligations.ResetEqualsFreshConfig := by
  intro c s t hv hl ht
  have hb : bodyOf (.reset c) s = .ok (s.setCtx c (s.ctx c).cleared) := resetBody_ok s hv hl
  rw [exec_ok hb, Host.Outcome.next.injEq] at ht
  subst ht
  constructor
  · obtain ⟨u, hu, hfin, huc, -⟩ :=
      exec_of_ok (i := .config c _ _) (configBody_ok s c (configRow_of_mem _ hl.row))
    refine ⟨u, hu, hfin.err, ?_⟩
    have same : configured (s.ctx c) (s.ctx c).cfg = (s.ctx c).cleared := by
      rw [configured, ← hv]
      rfl
    rw [huc, same]
    rfl
  · obtain ⟨u, hu, hfin, huc, -⟩ := exec_of_ok (i := .reset c)
      (s := (s.setCtx c (s.ctx c).cleared).finish (opOf (.reset c)) (ctxOf (.reset c)) none)
      (resetBody_ok _ (by simpa using hv) (by simpa using Context.Legal.of_cleared hl.row))
    refine ⟨u, hu, hfin.err, huc.trans ?_⟩
    have again : (s.ctx c).cleared.cleared = (s.ctx c).cleared := rfl
    simp [again]

/-! ## The phase controller (R163) -/

/-- Settles O32: the phase each body leaves, by what its success means. -/
theorem phaseController : Obligations.PhaseController := by
  intro i s t hs h he
  obtain ⟨u, hu, rfl⟩ := exec_success h he
  cases i with
  | config c v n =>
    obtain ⟨row, -, rfl⟩ := configBody_ok_iff.1 hu
    simp [configured]
  | reset c =>
    obtain ⟨-, rfl⟩ := (resetBody_ok_iff (hs.legal c)).1 hu
    simp
  | updateByte c b =>
    obtain ⟨-, hp, rfl⟩ := updateByteBody_ok_iff.1 hu
    simp [hp]
  | update c off len =>
    obtain ⟨-, hp, -, rfl⟩ := updateBody_ok_iff.1 hu
    simp [hp]
  | doFinal c off =>
    obtain ⟨-, -, rfl⟩ := (doFinalBody_ok_iff (hs.legal c)).1 hu
    simp [State.finalized]
  | doFinalXof c off len =>
    obtain ⟨-, -, -, rfl⟩ := (doFinalXofBody_ok_iff (hs.legal c)).1 hu
    simp [State.finalized]
  | doOutput c off len =>
    obtain ⟨-, -, -, rfl⟩ := (doOutputBody_ok_iff (hs.legal c)).1 hu
    simp [ctx_streamed]
  | copy d c =>
    obtain ⟨-, rfl⟩ := copyBody_ok_iff.1 hu
    simp
  | getDigestSize c =>
    obtain ⟨-, rfl⟩ := (queryBody_ok_iff (f := fun X => X.cfg.dsize)).1 hu
    simp
  | getByteLength c =>
    obtain ⟨-, rfl⟩ := (queryBody_ok_iff (f := fun X => X.cfg.rate / 8)).1 hu
    simp

end Sys2Proof.Machine
end

section
/-! PROOFS. How many permutations each command runs (spec/70_reset_and_hazards.md R316), counted in blocks of the rate. -/

namespace Sys2Proof.Machine

/-! ## Absorbing -/

/-- One permutation for each whole block the queued bits and the new bytes fill. -/
theorem Context.absorbBytesCounted_snd (bs : List Byte) : ∀ {X : Context}, X.Legal → X.phase = .absorbing →
    (X.absorbBytesCounted bs).2 = (X.biq + 8 * bs.length) / X.cfg.rate := by
  induction bs with
  | nil =>
    intro X h hp
    have := h.biq_lt hp
    exact (Nat.div_eq_of_lt (by simp only [List.length_nil]; omega)).symm
  | cons b bs ih =>
    intro X h hp
    have hb := h.bounds
    rw [absorbBytesCounted_cons_snd, ih (absorbByte_legal h hp b) (by rw [absorbByte_phase, hp]), absorbByte_cfg,
      List.length_cons]
    by_cases hfull : X.biq + 8 = X.cfg.rate
    · have hbiq : (X.absorbByte b).biq = 0 := by rw [absorbByte_full X b hfull]; rfl
      rw [if_pos hfull, hbiq, Nat.zero_add, Nat.add_comm, ← Nat.add_div_right _ (by omega)]
      congr 1
      omega
    · have hbiq : (X.absorbByte b).biq = X.biq + 8 := by rw [absorbByte_partial X b hfull]
      rw [if_neg hfull, hbiq, Nat.zero_add]
      congr 1
      omega

/-! ## Squeezing -/

/-- No further block for bits the buffer holds. -/
theorem blocks_zero {need held rate : Nat} (hpos : 0 < rate) (h : need ≤ held) :
    (need - held + rate - 1) / rate = 0 := Nat.div_eq_of_lt (by omega)

/-- One block for what is left, and one for each rate bits beyond it. -/
theorem blocks_succ {need rate : Nat} (hpos : 0 < rate) (h : 0 < need) :
    (need + rate - 1) / rate = 1 + (need - rate + rate - 1) / rate := by
  rw [Nat.add_comm 1, ← Nat.add_div_right _ hpos]
  by_cases hle : need ≤ rate
  · have one {k : Nat} (lo : rate ≤ k) (hi : k < 2 * rate) : k / rate = 1 := Nat.div_eq_of_lt_le (by omega) hi
    rw [one (by omega) (by omega), one (by omega) (by omega)]
  · congr 1
    omega

/-- One permutation for each block of rate bits beyond the bits the buffer holds. -/
theorem Context.squeezeLoopCounted_snd (fuel : Nat) : ∀ (X : Context) (left : Nat), left ≤ fuel → 0 < X.cfg.rate →
    (Context.squeezeLoopCounted fuel X left).2 = (left - X.bas + X.cfg.rate - 1) / X.cfg.rate := by
  induction fuel with
  | zero =>
    intro X left hle hpos
    rw [blocks_zero hpos (by omega)]
    rfl
  | succ fuel ih =>
    intro X left hle hpos
    rw [squeezeLoopCounted_succ_snd]
    by_cases h0 : left = 0
    · rw [if_pos h0, blocks_zero hpos (by omega)]
    · have hcfg : ({ X.refill with bas := X.refill.bas - min X.refill.bas left } : Context).cfg = X.cfg := refill_cfg X
      have hbas : X.refill.bas = if X.bas = 0 then X.cfg.rate else X.bas := by
        rw [refill]
        split_ifs <;> simp [extract_bas]
      have htake : 0 < X.refill.bas := by rw [hbas]; split_ifs <;> omega
      rw [if_neg h0, ih _ _ (by omega) (by rw [hcfg]; exact hpos), hcfg]
      show _ + (left - min X.refill.bas left - (X.refill.bas - min X.refill.bas left) + _ - 1) / _ = _
      rw [show left - min X.refill.bas left - (X.refill.bas - min X.refill.bas left) = left - X.refill.bas by omega, hbas]
      by_cases hempty : X.bas = 0
      · rw [if_pos hempty, if_pos hempty, hempty, Nat.sub_zero, blocks_succ hpos (Nat.pos_of_ne_zero h0)]
      · rw [if_neg hempty, if_neg hempty, Nat.zero_add]

/-! ## The finalize commands -/

/-- From Absorbing: one permutation for the padded block, and one for each further block. -/
theorem Context.Legal.outputCounted_absorbing {X : Context} (h : X.Legal) (hp : X.phase = .absorbing) (n : Nat) :
    (X.outputCounted n).2 = 1 + (8 * n - X.cfg.rate + X.cfg.rate - 1) / X.cfg.rate := by
  have hb := h.bounds
  have hroom := h.biq_lt hp
  have ready := h.padReady hp
  have hpad : X.injectSuffix.phase = .absorbing := by rw [injectSuffix_phase, hp]
  have hbas : X.injectSuffix.toSqueezing.bas = X.cfg.rate := by
    rw [Context.toSqueezing, if_pos hpad, ready.padSwitch_bas, injectSuffix_cfg]
  rw [outputCounted_snd, injectSuffixCounted_snd, if_neg (by omega), toSqueezingCounted_snd, if_pos hpad,
    if_neg (by rw [h.injectSuffix_biq hp, injectSuffix_cfg]; omega),
    squeezeLoopCounted_snd _ _ _ le_rfl (by simp; omega), hbas, toSqueezing_cfg, injectSuffix_cfg, Nat.zero_add]

/-- From Squeezing: one permutation for each block beyond the bits left. -/
theorem Context.Legal.outputCounted_squeezing {X : Context} (h : X.Legal) (hs : X.phase = .squeezing) (n : Nat) :
    (X.outputCounted n).2 = (8 * n - X.bas + X.cfg.rate - 1) / X.cfg.rate := by
  have hb := h.bounds
  have hne : ¬ X.phase = .absorbing := by rw [hs]; decide
  rw [outputCounted_snd, injectSuffixCounted_snd, if_neg (fun g => hne g.1), injectSuffix_squeezing X hs,
    toSqueezingCounted_snd, if_neg hne, toSqueezing_of_squeezing X hs, Nat.zero_add, Nat.zero_add,
    squeezeLoopCounted_snd _ _ _ le_rfl (by omega)]

/-- Settles O33: the counted operations are the operations, and each command's count is that of its part. -/
theorem permutationCounts : Obligations.PermutationCounts := by
  refine ⟨⟨fun _ => rfl, Context.absorbBlockCounted_fst, Context.absorbByteCounted_fst,
    fun X bs => Context.absorbBytesCounted_fst bs X, Context.injectSuffixCounted_fst, Context.padSwitchCounted_fst,
    Context.refillCounted_fst, Context.outputCounted_fst⟩, fun s hs => ?_⟩
  refine ⟨fun _ _ _ => rfl, fun _ => rfl, fun _ _ => rfl, fun _ => rfl, fun _ => rfl, fun c hv => ?_⟩
  have h := hs.legal c hv
  have hb := h.bounds
  refine ⟨fun hp => ⟨fun b => Context.absorbByteCounted_snd _ b, fun off len => ?_, fun off => ?_,
    fun off len => h.outputCounted_absorbing hp _, fun _ _ => rfl⟩, fun hp =>
    ⟨fun off => h.outputCounted_squeezing hp _, fun off len => ⟨h.outputCounted_squeezing hp _, rfl⟩⟩⟩
  · rw [permutations, Context.absorbBytesCounted_snd _ h hp, State.source, State.length_memRead]
  · rw [permutations, h.outputCounted_absorbing hp, blocks_zero (by omega) (by omega)]

end Sys2Proof.Machine
end

section
/-! PROOFS. The permutation (spec/40_permutation.md R120 to R133): its step mappings lane by lane, its rounds, its
tables, and that it is a bijection. -/

namespace Sys2Proof.Machine

/-! ## Lane by lane (R124 to R128) -/

/-- The model's rotation is the library's (R12). -/
theorem rotl_eq_rotateLeft (v : Lane) (n : Nat) : rotl v n = v.rotateLeft n := rfl

/-- A column's parity over the lane file (R124). -/
theorem columnParity_eq (A : Lanes) (x : Nat) : columnParity A x =
    laneK A (x % 5) ^^^ laneK A (x % 5 + 5) ^^^ laneK A (x % 5 + 10) ^^^ laneK A (x % 5 + 15) ^^^
      laneK A (x % 5 + 20) := rfl

/-- Settles O34: each mapping's rule for lane (x, y), read at index x + 5y. -/
theorem thetaRhoPiLaneByLane : Obligations.ThetaRhoPiLaneByLane := by
  intro A x hx y hy
  refine ⟨?_, ?_, ?_⟩
  · rw [← lane_eq_laneK _ hx hy, lane_theta, lane_eq_laneK _ hx hy, thetaD, columnParity_eq, columnParity_eq,
      rotl_eq_rotateLeft]
  · rw [← lane_eq_laneK _ hx hy, lane_rho, lane_eq_laneK _ hx hy, rotl_eq_rotateLeft, rhoOffset, Nat.mod_eq_of_lt hx,
      Nat.mod_eq_of_lt hy]
  · rw [← lane_eq_laneK _ hy (Nat.mod_lt _ (by decide)), ← lane_eq_laneK _ hx hy, ← lane_pi_moves A x y]
    exact lane_congr _ rfl (Nat.mod_mod _ _)

/-- Settles O35: chi's rule for lane (x, y), and iota's for lane 0 and the others. -/
theorem chiIotaLaneByLane : Obligations.ChiIotaLaneByLane := by
  refine fun A i => ⟨fun x hx y hy => ?_, ?_, fun k hk1 hk => ?_⟩
  · rw [← lane_eq_laneK _ hx hy, lane_chi, lane_eq_laneK _ hx hy, lane, lane, Nat.mod_eq_of_lt hy]
  · exact laneK_iota A i (by decide)
  · rw [laneK_iota A i (by omega), if_neg (by omega)]

/-! ## Rounds and tables (R122, R130 to R133) -/

/-- The state after the first n rounds. -/
def rounds (n : Nat) (A : Lanes) : Lanes := (List.range n).foldl rnd A

theorem rounds_succ (n : Nat) (A : Lanes) : rounds (n + 1) A = rnd (rounds n A) n := by
  simp [rounds, List.range_succ]

/-- Settles O36: the sequence of the states between the rounds. -/
theorem keccakFIsTwentyFourRounds : Obligations.KeccakFIsTwentyFourRounds :=
  ⟨rounds, fun _ => rfl, fun i A => rounds_succ i A, fun _ => rfl⟩

/-- Settles O37: closed terms, on which the derivations compute. -/
theorem constantTablesAreDerived : Obligations.ConstantTablesAreDerived := by
  unfold Obligations.ConstantTablesAreDerived
  decide

/-! ## The bijection (R120) -/

theorem iota_injective (i : Nat) : Function.Injective fun A => iota A i := by
  intro A B h
  refine lanes_ext fun k hk => ?_
  have hlane := congrArg (laneK · k) h
  simp only [laneK_iota _ _ hk] at hlane
  split_ifs at hlane with h0
  · rw [h0]
    exact (BitVec.xor_left_inj _).1 hlane
  · exact hlane

theorem pi_injective : Function.Injective pi := fun A B h =>
  lanes_ext_lane fun x y _ _ => by rw [← lane_pi_moves A, ← lane_pi_moves B, h]

theorem rho_injective : Function.Injective rho := fun A B h =>
  lanes_ext_lane fun x y _ _ => rotl_injective (rhoOffset x y) (by
    have hlane := congrArg (lane · x y) h
    simpa only [lane_rho] using hlane)

/-- chi on three neighbouring lanes of a row (R127). -/
def chiLane (p q r : Lane) : Lane := p ^^^ (~~~ q &&& r)

/-- chi on a row of five lanes is undone by a rule of the same kind over all five. -/
theorem chiLane_inverse (a b c d e : Lane) :
    chiLane (chiLane a b c) (chiLane b c d) (chiLane (chiLane c d e) (chiLane d e a) (chiLane e a b)) = a := by
  apply BitVec.eq_of_getLsbD_eq
  intro j hj
  simp only [chiLane, BitVec.getLsbD_xor, BitVec.getLsbD_and, BitVec.getLsbD_not, hj, decide_true, Bool.true_and]
  generalize a.getLsbD j = a', b.getLsbD j = b', c.getLsbD j = c', d.getLsbD j = d', e.getLsbD j = e'
  revert a' b' c' d' e'
  decide

theorem chi_injective : Function.Injective chi := by
  intro A B h
  refine lanes_ext_lane fun x y _ _ => ?_
  have undo (C : Lanes) : chiLane (lane (chi C) x y) (lane (chi C) (x + 1) y)
      (chiLane (lane (chi C) (x + 2) y) (lane (chi C) (x + 3) y) (lane (chi C) (x + 4) y)) = lane C x y := by
    have h5 : lane C (x + 5) y = lane C x y := lane_congr C (by omega) rfl
    have h6 : lane C (x + 6) y = lane C (x + 1) y := lane_congr C (by omega) rfl
    simp only [lane_chi, Nat.add_assoc, Nat.reduceAdd, h5, h6]
    exact chiLane_inverse ..
  rw [← undo A, ← undo B, h]

/-- theta's effect on column parities, its distance and its rotation a parameter: C[x] with C[x - a], as C[x + 4a],
and with C[x + a] rotated left by n (R124). -/
def parityStep (a n : Nat) (C : Nat → Lane) (x : Nat) : Lane := C x ^^^ C (x + 4 * a) ^^^ rotl (C (x + a)) n

/-- Five lanes each XORed with d have the parity of the five, XORed with d. -/
theorem xor_five (l₀ l₁ l₂ l₃ l₄ d : Lane) :
    (l₀ ^^^ d) ^^^ (l₁ ^^^ d) ^^^ (l₂ ^^^ d) ^^^ (l₃ ^^^ d) ^^^ (l₄ ^^^ d) = l₀ ^^^ l₁ ^^^ l₂ ^^^ l₃ ^^^ l₄ ^^^ d := by
  apply BitVec.eq_of_getLsbD_eq
  intro j _
  simp only [BitVec.getLsbD_xor]
  generalize l₀.getLsbD j = b₀, l₁.getLsbD j = b₁, l₂.getLsbD j = b₂, l₃.getLsbD j = b₃, l₄.getLsbD j = b₄,
    d.getLsbD j = b
  revert b₀ b₁ b₂ b₃ b₄ b
  decide

theorem columnParity_theta (A : Lanes) : columnParity (theta A) = parityStep 1 1 (columnParity A) := by
  funext x
  simp only [columnParity, lane_theta, xor_five]
  rw [thetaD, ← BitVec.xor_assoc]
  rfl

theorem parityStep_xor (a n : Nat) (C D : Nat → Lane) (x : Nat) :
    parityStep a n (fun y => C y ^^^ D y) x = parityStep a n C x ^^^ parityStep a n D x := by
  simp only [parityStep, rotl_xor]
  ac_rfl

theorem parityStep_zero (a n : Nat) : parityStep a n (fun _ => 0) = fun _ => 0 := by
  funext x
  simp [parityStep, rotl]

/-- Two steps are one at twice the distance and rotation: the mixed terms cancel. -/
theorem parityStep_twice (a n : Nat) (C : Nat → Lane) :
    parityStep a n (parityStep a n C) = parityStep (2 * a) (2 * n) C := by
  funext x
  have h1 : C (x + a + 4 * a) = C (x + 4 * a + a) := by congr 1; omega
  have h2 : C (x + 4 * a + 4 * a) = C (x + 4 * (2 * a)) := by congr 1; omega
  have h3 : C (x + a + a) = C (x + 2 * a) := by congr 1; omega
  simp only [parityStep, rotl_xor, rotl_rotl, h1, h2, h3, ← Nat.two_mul]
  generalize C x = p, C (x + 4 * a) = q, rotl (C (x + a)) n = r, C (x + 4 * (2 * a)) = t,
    rotl (C (x + 4 * a + a)) n = u, rotl (C (x + 2 * a)) (2 * n) = v
  calc p ^^^ q ^^^ r ^^^ (q ^^^ t ^^^ u) ^^^ (r ^^^ u ^^^ v)
      = p ^^^ t ^^^ v ^^^ (q ^^^ q) ^^^ (r ^^^ r) ^^^ (u ^^^ u) := by ac_rfl
    _ = p ^^^ t ^^^ v := by simp

/-- Parities that a step takes to 0 are taken to 0 by a step of each doubled distance and rotation. -/
theorem parityStep_pow_eq_zero {C : Nat → Lane} (h : parityStep 1 1 C = fun _ => 0) (k : Nat) :
    parityStep (2 ^ k) (2 ^ k) C = fun _ => 0 := by
  induction k with
  | zero => exact h
  | succ k ih => rw [Nat.pow_succ', ← parityStep_twice, ih, parityStep_zero]

/-- Only zero parities step to 0. After six doublings the rotation is a full turn, and what is left,
C[x] = C[x - 1] ^ C[x + 1], makes all five parities equal, so each is its own double. -/
theorem parityStep_kernel {C : Nat → Lane} (hmod : ∀ x y, x % 5 = y % 5 → C x = C y)
    (h : parityStep 1 1 C = fun _ => 0) (x : Nat) : C x = 0 := by
  have turn (y : Nat) : C y ^^^ C (y + 1) = C (y + 4) := by
    have h64 := congrFun (parityStep_pow_eq_zero h 6) y
    rw [parityStep, rotl_congr _ (n := 0) (by decide), rotl_zero, hmod (y + 4 * 2 ^ 6) (y + 1) (by omega),
      hmod (y + 2 ^ 6) (y + 4) (by omega)] at h64
    exact BitVec.xor_eq_zero_iff.1 h64
  have two (y : Nat) : C y = C (y + 2) := by
    have h3 := turn (y + 3)
    have h4 := turn (y + 4)
    rw [hmod (y + 3 + 1) (y + 4) (by omega), hmod (y + 3 + 4) (y + 2) (by omega)] at h3
    rw [hmod (y + 4 + 1) y (by omega), hmod (y + 4 + 4) (y + 3) (by omega)] at h4
    rw [← h3, ← h4, BitVec.xor_comm, ← BitVec.xor_assoc, BitVec.xor_self, BitVec.zero_xor]
  have one (y : Nat) : C (y + 1) = C y := by
    rw [two (y + 1), two (y + 3), hmod (y + 3 + 2) y (by omega)]
  have hx := turn x
  rw [one, BitVec.xor_self] at hx
  rw [two, two]
  exact hx.symm

theorem theta_injective : Function.Injective theta := by
  intro A B h
  have parity (x : Nat) : columnParity A x = columnParity B x := by
    refine BitVec.xor_eq_zero_iff.1 (parityStep_kernel (C := fun x => columnParity A x ^^^ columnParity B x)
      (fun x y hxy => ?_) ?_ x)
    · simp only [columnParity_congr _ hxy]
    · funext x
      rw [parityStep_xor, ← columnParity_theta, ← columnParity_theta, h]
      exact BitVec.xor_self
  refine lanes_ext_lane fun x y _ _ => ?_
  have hlane := congrArg (lane · x y) h
  simp only [lane_theta, thetaD, parity] at hlane
  exact (BitVec.xor_left_inj _).1 hlane

theorem rnd_injective (i : Nat) : Function.Injective fun A => rnd A i :=
  (iota_injective i).comp (chi_injective.comp (pi_injective.comp (rho_injective.comp theta_injective)))

theorem rounds_injective (n : Nat) : Function.Injective (rounds n) := by
  induction n with
  | zero => exact fun _ _ h => h
  | succ n ih =>
    intro A B h
    rw [rounds_succ, rounds_succ] at h
    exact ih (rnd_injective n h)

theorem lanes_finite : Finite Lanes :=
  Finite.of_injective (fun (A : Lanes) (k : Fin 25) => laneK A k) fun _ _ h =>
    lanes_ext fun k hk => congrFun h ⟨k, hk⟩

/-- Settles O38: every step mapping is injective, and the states are finitely many. -/
theorem keccakFIsABijection : Obligations.KeccakFIsABijection :=
  have := lanes_finite
  Finite.injective_iff_bijective.1 (rounds_injective 24)

end Sys2Proof.Machine
end

section
/-! PROOFS. The Host's accesses: the registers (spec/10_state.md R33 to R38), the regions of the window and their widths
(spec/20_memory.md R66 to R72), and what the model refuses (spec/70_reset_and_hazards.md R300, R312). -/

namespace Sys2Proof.Machine

/-! ## Registers -/

/-- Settles O39: the register block answers every aligned word read. -/
theorem registerReads : Obligations.RegisterReads :=
  fun s off hr hoff h4 => ⟨s.regRead off, hostAccess_regRead hr hoff h4, rfl⟩

/-- A placed flag is its bit. -/
theorem getLsbD_placeField_flag {n lo : Nat} (h : lo < n) (b : Bool) :
    (placeField n lo (BitVec.ofBool b)).getLsbD lo = b := by
  rw [getLsbD_placeField n lo _ h, Nat.sub_self, BitVec.getLsbD_ofBool]
  simp

/-- A placed field holds no bit outside its range. -/
theorem getLsbD_placeField_outside {n lo w k : Nat} (v : BitVec w) (hk : k < n) (h : k < lo ∨ lo + w ≤ k) :
    (placeField n lo v).getLsbD k = false := by
  rw [getLsbD_placeField n lo v hk]
  obtain h | h := h
  · simp [show ¬ lo ≤ k by omega]
  · simp [BitVec.getLsbD_of_ge v (k - lo) (by omega)]

/-- A flag of STATUS reads as itself. -/
theorem statusWord_flags (s : State) : s.statusWord.getLsbD 0 = s.busy ∧ s.statusWord.getLsbD 4 = s.status.sticky ∧
    s.statusWord.getLsbD 5 = s.status.ovr := by
  refine ⟨?_, ?_, ?_⟩ <;>
    simp (disch := omega) only [State.statusWord, BitVec.getLsbD_or, getLsbD_placeField_flag,
      getLsbD_placeField_outside, Bool.or_false, Bool.false_or]

/-- A field of STATUS reads as itself, and the ranges between the fields as 0. -/
theorem statusWord_fields (s : State) : s.statusWord.extractLsb' 1 3 = errCode s.status.err ∧
    s.statusWord.extractLsb' 6 2 = 0#2 ∧ s.statusWord.extractLsb' 8 8 = s.status.lastOp ∧
    s.statusWord.extractLsb' 16 4 = s.status.lastCtx ∧ s.statusWord.extractLsb' 20 12 = 0#12 := by
  refine ⟨?_, ?_, ?_, ?_, ?_⟩ <;>
    simp (disch := omega) only [State.statusWord, BitVec.extractLsb'_or, extractLsb'_placeField_same,
      extractLsb'_placeField_disjoint, BitVec.or_zero, BitVec.zero_or]

/-- Settles O40: STATUS is made of placed fields whose ranges do not meet. -/
theorem statusLayout : Obligations.StatusLayout := by
  refine ⟨⟨rfl, rfl, rfl, rfl, rfl⟩, fun s => ?_⟩
  obtain ⟨hbusy, hsticky, hovr⟩ := statusWord_flags s
  obtain ⟨herr, hgap, hop, hctx, htop⟩ := statusWord_fields s
  exact ⟨hbusy, herr, hsticky, hovr, hgap, hop, hctx, htop⟩

/-- A register write beside CMD sets ARG, clears flags of STATUS, or is ignored (R36, R37, R67). -/
theorem State.regWrite_of_ne {s : State} {off : Nat} (h : off ≠ 0) (v : Reg) : s.regWrite off v =
    if off = 0x004 then { s with arg := v }
    else if off = 0x008 then { s with status := s.status.writeClear v }
    else s := if_neg h

/-- Settles O42: the three outcomes, field by field. -/
theorem registerWrites : Obligations.RegisterWrites := by
  intro s off v hr hoff h4 h0
  refine ⟨_, hostAccess_regWrite hr hoff h4, ?_⟩
  rw [State.regWrite_of_ne h0]
  by_cases harg : off = 0x004
  · subst harg
    simp [State.respond]
  · by_cases hstatus : off = 0x008
    · subst hstatus
      simp [State.respond]
    · simp [State.respond, harg, hstatus]

theorem State.writeCmd_of_idle {s : State} (h : s.busy = false) (v : Reg) : s.writeCmd v =
    { s with
      inFlight := some (joinWord s.arg v)
      host := { s.host with cmdIndex := s.host.cmdIndex + 1 } } := by
  rw [State.writeCmd, if_neg (by simp [h])]

/-- The two halves of a joined word (R34, R90). -/
theorem extractLsb'_joinWord (a v : Reg) :
    (joinWord a v).extractLsb' 0 32 = v ∧ (joinWord a v).extractLsb' 32 32 = a := by
  constructor
  · simp (disch := omega) only [joinWord, BitVec.extractLsb'_or, extractLsb'_placeField_same,
      extractLsb'_placeField_disjoint, BitVec.or_zero]
  · simp (disch := omega) only [joinWord, BitVec.extractLsb'_or, extractLsb'_placeField_same,
      extractLsb'_placeField_disjoint, BitVec.zero_or]

/-- Settles O43: an idle core latches {ARG, V}. -/
theorem cmdWriteIssuesTheWord : Obligations.CmdWriteIssuesTheWord := by
  intro s v hr hb
  obtain ⟨hlow, hhigh⟩ := extractLsb'_joinWord s.arg v
  refine ⟨_, joinWord s.arg v, hostAccess_cmdWrite hr v, ?_⟩
  rw [State.writeCmd_of_idle hb]
  exact ⟨rfl, rfl, hlow, hhigh, rfl⟩

/-! ## The window and its regions -/

theorem inWindow_offset {b : Build} {addr off : Nat} (ha : addr = b.base + off) (hoff : off < 0x20000) :
    inWindow b addr := by
  rw [inWindow, Config.windowBytes]
  omega

/-- Settles O51: the window is checked first. -/
theorem accessOutsideTheWindowFaults : Obligations.AccessOutsideTheWindowFaults := by
  intro s a h
  rw [hostAccess, if_pos (by rw [inWindow, Config.windowBytes]; omega)]

/-- Settles O45: the bus error comes from the width and alignment check, and no accepted access answers with it. -/
theorem busErrors : Obligations.BusErrors := by
  intro s a off hr ha hoff ok
  have e : a.addr - s.build.base = off := by omega
  have hok : ok ↔ accessAllowed (regionOf s.build off) a.width off := by
    rw [accessAllowed, regionOf_registers]
  constructor
  · intro hbad
    rw [hostAccess, if_neg (not_not.2 (inWindow_offset ha hoff)), if_neg (by simp [hr]), e, if_neg (hok.not.1 hbad)]
    rfl
  · intro hgood t ht
    rw [hostAccess_allowed hr ha hoff hgood.1 hgood.2] at ht
    obtain ⟨r, hne, rfl⟩ | ⟨w, addr, v, -, -, rfl⟩ | ⟨w, addr, v, -, -, -, rfl⟩ := access_cases ht
    · simpa using hne
    · simp
    · simp

theorem regionOf_reserved {b : Build} {off : Nat} (h : 0x1000 ≤ off ∧ off < 0x10000 ∨ 0x10000 + b.memsz ≤ off) :
    regionOf b off = .reserved := by
  rw [regionOf, if_neg (by omega), if_neg (by omega)]

/-- Settles O46: a reserved region accepts every width, reads 0 and ignores writes. -/
theorem reservedRanges : Obligations.ReservedRanges := by
  intro s w off v hr halign hrange
  have hreg := regionOf_reserved (b := s.build) (off := off) (by omega)
  constructor
  · rw [hostAccess_allowed (a := .read w _) hr rfl (by omega) halign (by omega)]
    unfold State.access
    rw [hreg]
    rfl
  · rw [hostAccess_allowed (a := .write w _ v) hr rfl (by omega) halign (by omega)]
    unfold State.access
    rw [hreg]
    rfl

/-! ## The buffer memory -/

/-- An aligned access of the buffer memory is performed by its region. -/
theorem hostAccess_buffer {s : State} {a : BusAccess} {off : Nat} (hr : s.inReset = false)
    (ha : a.addr = s.build.base + 0x10000 + off) (hoff : off < s.build.memsz) (hmax : s.build.memsz ≤ 0x10000)
    (halign : off % a.width.bytes = 0) :
    hostAccess a s = s.access a (0x10000 + off) ∧ regionOf s.build (0x10000 + off) = .buffer := by
  refine ⟨hostAccess_allowed hr (by omega) (by omega) ?_ (by omega), (regionOf_buffer _).2 (by omega)⟩
  obtain hw | hw | hw := a.width.bytes_cases <;> rw [hw] at halign ⊢ <;> omega

/-- Settles O48: BUSY closes the buffer memory, and reset the window. -/
theorem bufferAccessWhileBusyIsRefused : Obligations.BufferAccessWhileBusyIsRefused := by
  refine ⟨fun s a off hr hb hoff hmax ha halign => ?_, fun s a hr hlow hhigh => ?_⟩
  · obtain ⟨hacc, hreg⟩ := hostAccess_buffer hr ha hoff hmax halign
    rw [hacc]
    unfold State.access
    rw [hreg]
    cases a <;> exact if_pos hb
  · rw [hostAccess, if_neg (not_not.2 ⟨hlow, hhigh⟩), if_pos hr]

/-- Byte k of a number, as a bit range of it (R69). -/
theorem extractLsb'_byte {n : Nat} (v : BitVec n) (k : Nat) :
    v.extractLsb' (8 * k) 8 = BitVec.ofNat 8 (v.toNat / 2 ^ (8 * k)) := by
  apply BitVec.eq_of_toNat_eq
  rw [BitVec.extractLsb'_toNat, BitVec.toNat_ofNat, Nat.shiftRight_eq_div_pow]

/-- The bytes a read gathers make a number its register holds (R68, R69). -/
theorem toNat_bufRead (s : State) (w : Width) (a : Nat) :
    (s.bufRead w a).toNat = leWord (s.memRead a w.bytes) ∧ leWord (s.memRead a w.bytes) < 2 ^ (8 * w.bytes) := by
  have hlt := leWord_lt (s.memRead a w.bytes)
  rw [State.length_memRead] at hlt
  have hle : 2 ^ (8 * w.bytes) ≤ 2 ^ 32 :=
    Nat.pow_le_pow_right (by decide) (by obtain hw | hw | hw := w.bytes_cases <;> omega)
  exact ⟨by rw [State.bufRead, BitVec.toNat_ofNat, Nat.mod_eq_of_lt (by omega)], hlt⟩

/-- Settles O47: the region answers with the little-endian number, and stores the value's bytes. -/
theorem bufferAccessesAreLittleEndian : Obligations.BufferAccessesAreLittleEndian := by
  intro s w a v hs hr hb halign ha
  obtain ⟨-, hmax, -⟩ := memsz_bounds hs.build
  have e : 0x10000 + a - 0x10000 = a := by omega
  have idle : ¬ s.busy = true := by simp [hb]
  constructor
  · obtain ⟨hacc, hreg⟩ := hostAccess_buffer (a := .read w _) hr rfl ha hmax halign
    obtain ⟨hval, hlt⟩ := toNat_bufRead s w a
    refine ⟨s.bufRead w a, ?_, fun k hk => ?_, by rw [hval]; exact hlt⟩
    · rw [hacc]
      unfold State.access
      rw [hreg]
      exact (if_neg idle).trans (by rw [e]; rfl)
    · rw [extractLsb'_byte, hval, byte_leWord _ _ (by simpa using hk), State.getD_memRead _ _ hk]
  · obtain ⟨hacc, hreg⟩ := hostAccess_buffer (a := .write w _ v) hr rfl ha hmax halign
    refine ⟨(s.bufWrite w a v).respond .ack, ?_, rfl, fun k hk => ?_, fun b hout => ?_, rfl, rfl, rfl, rfl, rfl, rfl⟩
    · rw [hacc]
      unfold State.access
      rw [hreg]
      exact (if_neg idle).trans (by rw [e])
    · rw [State.respond_memByte, State.bufWrite, State.memByte_memWrite_at _ _ _ (by simpa using hk),
        getD_leBytes _ _ _ hk, extractLsb'_byte]
    · rw [State.respond_memByte, State.bufWrite, State.memByte_memWrite_outside _ _ _ (by simpa using hout)]

/-! ## What an access reaches -/

/-- Settles O49: a read that answers only answers. -/
theorem readsHaveNoSideEffects : Obligations.ReadsHaveNoSideEffects := by
  intro s t w addr h
  obtain ⟨-, -, rfl | ⟨-, hacc⟩⟩ := hostAccess_next h
  · exact ⟨_, rfl⟩
  · obtain ⟨r, -, rfl⟩ | ⟨w', addr', v, hw, -, -⟩ | ⟨w', addr', v, hw, -, -, -⟩ := access_cases hacc
    · exact ⟨r, rfl⟩
    · cases hw
    · cases hw

/-- A register write touches neither the contexts, RESULT, the memory, the build nor the power-on count. -/
theorem regWrite_frame (s : State) (off : Nat) (v : Reg) :
    (s.regWrite off v).ctxs = s.ctxs ∧ (s.regWrite off v).result = s.result ∧ (s.regWrite off v).mem = s.mem ∧
      (s.regWrite off v).build = s.build ∧ (s.regWrite off v).powerOns = s.powerOns := by
  unfold State.regWrite State.writeCmd
  split_ifs <;> exact ⟨rfl, rfl, rfl, rfl, rfl⟩

/-- The state with other contexts in their place. -/
def State.withCtxs (s : State) (C : Vector Context 16) : State := { s with ctxs := C }

theorem regWrite_withCtxs (s : State) (C : Vector Context 16) (off : Nat) (v : Reg) :
    (s.withCtxs C).regWrite off v = (s.regWrite off v).withCtxs C := by
  unfold State.regWrite State.writeCmd
  rw [show (s.withCtxs C).busy = s.busy from rfl]
  split_ifs <;> rfl

/-- What an access does with other contexts: the same, but for them. -/
def outcomeWithCtxs (C : Vector Context 16) : Host.Outcome State Fault Refusal → Host.Outcome State Fault Refusal
  | .next t => .next (t.withCtxs C)
  | .fault f => .fault f
  | .refused r => .refused r

theorem access_withCtxs (s : State) (C : Vector Context 16) (a : BusAccess) (off : Nat) :
    (s.withCtxs C).access a off = outcomeWithCtxs C (s.access a off) := by
  unfold State.access
  rw [show (s.withCtxs C).build = s.build from rfl, show (s.withCtxs C).busy = s.busy from rfl]
  cases regionOf s.build off <;> cases a
  case registers.write => exact congrArg (fun t => Host.Outcome.next (State.respond t .ack)) (regWrite_withCtxs s C off _)
  case buffer.read | buffer.write => simp only; split_ifs <;> rfl
  all_goals rfl

theorem hostAccess_withCtxs (s : State) (C : Vector Context 16) (a : BusAccess) :
    hostAccess a (s.withCtxs C) = outcomeWithCtxs C (hostAccess a s) := by
  unfold hostAccess
  rw [access_withCtxs, show (s.withCtxs C).build = s.build from rfl, show (s.withCtxs C).inReset = s.inReset from rfl]
  split_ifs <;> rfl

/-- Settles O50: no check reads a context, and no access writes one. -/
theorem hostReachesNoContext : Obligations.HostReachesNoContext := by
  refine ⟨fun s a C => ?_, fun s t a h => ?_⟩
  · have h := hostAccess_withCtxs s C a
    cases hacc : hostAccess a s <;> rw [hacc] at h <;> exact h
  · obtain ⟨-, -, rfl | ⟨-, hacc⟩⟩ := hostAccess_next h
    · exact ⟨rfl, rfl, rfl, rfl, fun hne => absurd rfl hne⟩
    · obtain ⟨r, -, rfl⟩ | ⟨w, addr, v, -, -, rfl⟩ | ⟨w, addr, v, rfl, hreg, -, rfl⟩ := access_cases hacc
      · exact ⟨rfl, rfl, rfl, rfl, fun hne => absurd rfl hne⟩
      · obtain ⟨hctxs, hresult, hmem, hbuild, hpower⟩ := regWrite_frame s (a.addr - s.build.base) v
        exact ⟨hctxs, hresult, hbuild, hpower, fun hne => absurd hmem hne⟩
      · rw [regionOf_buffer] at hreg
        obtain ⟨hlow, hhigh⟩ := hreg
        change 0x10000 ≤ addr - s.build.base at hlow
        change addr - s.build.base < 0x10000 + s.build.memsz at hhigh
        exact ⟨rfl, rfl, rfl, rfl, fun _ => ⟨w, addr, v, rfl, by omega, by omega⟩⟩

end Sys2Proof.Machine
end

section
/-! PROOFS. The step (spec/60_exceptions.md R260, R285; spec/70_reset_and_hazards.md R300, R301, R314): the core's turn,
power-on reset, and a Host access and a completion in one cycle. -/

namespace Sys2Proof.Machine

/-! ## The core's turn -/

/-- The state with other events to come. -/
def State.withPending (s : State) (es : List Event) : State := { s with host := { s.host with pending := es } }

/-- A step takes the oldest event to come. -/
theorem step_event {s : State} {e : Event} {es : List Event} (h : s.host.pending = e :: es) :
    step s = handle e (s.withPending es) := step_cons h

theorem coreTurn_decoded {s : State} {w : CmdWord} {i : Instr} (hw : s.inFlight = some w)
    (hd : decode s.build w = .ok i) : coreTurn s = exec i s := by
  rw [coreTurn_inFlight hw, runWord_ok hd]

/-- Settles O6: the core's turn runs the decoded word, at the state the step gives it. -/
theorem stepRunsTheDecodedCommand : Obligations.StepRunsTheDecodedCommand := fun s _ _ hw hd =>
  ⟨fun hp => (step_nil hp).trans (coreTurn_decoded hw hd),
    fun es hp => (step_event hp).trans (coreTurn_decoded (s := s.withPending es) hw hd)⟩

/-- Settles O7: placing a word puts it in flight and the core's turn next. -/
theorem placedWordRunsNext : Obligations.PlacedWordRunsNext := by
  rintro s nbits w i W rfl hd
  exact (step_event (s := s.withFetchWord nbits w) rfl).trans
    (coreTurn_decoded (s := (s.withFetchWord nbits w).withPending s.host.pending) rfl hd)

/-- Settles O8: a rejected word ends by Finish on the state itself. -/
theorem rejectedWordOnlyWritesStatus : Obligations.RejectedWordOnlyWritesStatus := by
  intro s w e hw hp hd
  rw [step_nil hp, coreTurn_inFlight hw, runWord_error hd]
  exact ⟨_, rfl, finish_finished _ _ _ _, rfl, rfl, fun _ => rfl⟩

theorem inFlight_of_idle {s : State} (h : s.busy = false) : s.inFlight = none := by
  simpa [State.busy] using h

/-- Settles O9: with no word in flight the core's turn changes nothing. -/
theorem idleTimeChangesNothing : Obligations.IdleTimeChangesNothing := fun s hb =>
  ⟨fun hp => (step_nil hp).trans (coreTurn_idle (inFlight_of_idle hb)),
    fun es hp => (step_event hp).trans (coreTurn_idle (s := s.withPending es) (inFlight_of_idle hb))⟩

/-! ## Power-on reset -/

/-- Settles O57: the assertion takes every value from power-on, and the release ends it. -/
theorem powerOnReset : Obligations.PowerOnReset := by
  have hstatus : State.reset.statusWord = 0 := by decide
  intro s es hp
  have hrelease := step_event (s := assertReset (s.withPending (.resetRelease :: es))) rfl
  refine ⟨_, _, step_event hp, hrelease, fun c => ?_, rfl, hstatus, rfl, rfl, rfl, rfl, fun _ => rfl, rfl⟩
  exact State.powerOn_ctx s.build (s.powerOns + 1) c

/-! ## An access and the core's turn in one cycle (R37, R314) -/

theorem hostThenCore_next {a : BusAccess} {s t : State} (h : hostAccess a s = .next t) :
    hostThenCore a s = coreTurn t := by
  rw [hostThenCore, h]

/-- The core's turn with a word in flight ends the command (R262). -/
theorem coreTurn_finishes {s : State} {w : CmdWord} (hw : s.inFlight = some w) :
    ∃ t e, coreTurn s = .next t ∧ Finished s t (fieldOp w) (fieldCtx w) e := by
  obtain ⟨t, e, ht, hfin, -⟩ := everyCommandEndsWithFinish s w
  exact ⟨t, e, (coreTurn_inFlight hw).trans ht, hfin⟩

/-- Settles O58: the write comes first, and Finish after it sets STICKY. -/
theorem settingStickyWins : Obligations.SettingStickyWins := by
  intro s v es w hr hw hp
  have hacc := hostAccess_regWrite (s := s.withPending es) (off := 0x008) (v := v) hr (by decide) (by decide)
  obtain ⟨t, e, ht, hfin⟩ := coreTurn_finishes (s := ((s.withPending es).regWrite 0x008 v).respond .ack) hw
  refine ⟨t, (step_event hp).trans ((hostThenCore_next hacc).trans ht), hfin.idle, fun herr => ?_⟩
  rw [hfin.err] at herr
  rw [hfin.sticky, Option.isSome_iff_ne_none.2 herr, Bool.or_true]

/-- The state after a CMD write to an idle core, with the events after it (R260). -/
def State.issued (s : State) (v : Reg) (es : List Event) : State :=
  { s with
    inFlight := some (joinWord s.arg v)
    host := { pending := es, response := some .ack, cmdIndex := s.host.cmdIndex + 1 } }

theorem hostAccess_issue {s : State} (hr : s.inReset = false) (hb : s.busy = false) (v : Reg) (es : List Event) :
    hostAccess (.write .word s.build.base v) (s.withPending es) = .next (s.issued v es) := by
  have hacc := hostAccess_cmdWrite (s := s.withPending es) hr v
  rw [State.writeCmd_of_idle (s := s.withPending es) hb] at hacc
  exact hacc

/-- Settles O59: both views give the core's turn the same state. -/
theorem atomicViewEqualsSplitView : Obligations.AtomicViewEqualsSplitView := by
  intro s v es hr hb
  obtain ⟨t, e, ht, hfin⟩ := coreTurn_finishes (s := s.issued v es) rfl
  have hatomic := step_event (s := s.withPending (.hostCore (.write .word s.build.base v) :: es)) rfl
  have hsplit := step_event (s := s.withPending (.host (.write .word s.build.base v) :: .core :: es)) rfl
  have hcore := step_event (s := s.issued v (.core :: es)) rfl
  exact ⟨t, _, hatomic.trans ((hostThenCore_next (hostAccess_issue hr hb v es)).trans ht),
    hsplit.trans (hostAccess_issue hr hb v _), hcore.trans ht, hfin.idle, hfin.ovr⟩

/-! ## The issue protocol (R99, R310) -/

/-- A run of any machine goes on from the state a step gives. -/
theorem core_run_succ {M : Host.Core} {s t : M.State} (h : M.step s = .next t) (k : Nat) :
    M.run (k + 1) s = M.run k t := by
  rw [Host.Core.run, h]

theorem run_succ {s t : State} (h : step s = .next t) (k : Nat) :
    Host.Core.run Sys2Proof.core (k + 1) s = Host.Core.run Sys2Proof.core k t :=
  core_run_succ (M := Sys2Proof.core) (s := s) (t := t) h k

/-- A read of STATUS answers it, whether a word is in flight or not. -/
theorem step_poll {s : State} {es : List Event} (hr : s.inReset = false)
    (hp : s.host.pending = .host (hostPoll s.build) :: es) :
    step s = .next ((s.withPending es).respond (.data s.statusWord)) :=
  (step_event hp).trans (hostAccess_regRead (s := s.withPending es) (off := 0x008) hr (by decide) (by decide))

/-- Any number of polls leave nothing but an answer. -/
theorem run_polls (polls k : Nat) (es : List Event) : ∀ {s : State}, s.inReset = false →
    s.host.pending = List.replicate polls (.host (hostPoll s.build)) ++ es →
    ∃ r, Host.Core.run Sys2Proof.core (polls + k) s =
      Host.Core.run Sys2Proof.core k { s with host := { s.host with pending := es, response := r } } := by
  induction polls with
  | zero =>
    rintro s - hp
    refine ⟨s.host.response, ?_⟩
    rw [Nat.zero_add, ← show s.host.pending = es from hp]
  | succ polls ih =>
    intro s hr hp
    obtain ⟨r, h⟩ := ih (s := (s.withPending (List.replicate polls (.host (hostPoll s.build)) ++ es)).respond
      (.data s.statusWord)) hr rfl
    refine ⟨r, ?_⟩
    rw [Nat.add_right_comm]
    exact (run_succ (step_poll hr hp) _).trans h

/-- The ARG write of the protocol. -/
theorem step_writeArg {s : State} {v : Reg} {es : List Event} (hr : s.inReset = false)
    (hp : s.host.pending = .host (hostWriteReg s.build 0x004 v) :: es) :
    step s = .next (s.withIssue { s.host with pending := es, response := some .ack } v s.inReset s.inFlight) :=
  (step_event hp).trans (hostAccess_regWrite (s := s.withPending es) (off := 0x004) hr (by decide) (by decide))

/-- The CMD write of the protocol. -/
theorem step_writeCmd {s : State} {v : Reg} {es : List Event} (hr : s.inReset = false) (hb : s.busy = false)
    (hp : s.host.pending = .host (hostWriteReg s.build 0x000 v) :: es) : step s = .next (s.issued v es) :=
  (step_event hp).trans (hostAccess_issue hr hb v es)

/-- The two writes put {ARG, CMD} in flight (R34, R260). -/
theorem run_issue {s : State} {arg cmd : Reg} {es : List Event} (hr : s.inReset = false) (hb : s.busy = false)
    (hp : s.host.pending = .host (hostWriteReg s.build 0x004 arg) :: .host (hostWriteReg s.build 0x000 cmd) :: es)
    (k : Nat) :
    Host.Core.run Sys2Proof.core (k + 2) s = Host.Core.run Sys2Proof.core k
      (s.withIssue { pending := es, response := some .ack, cmdIndex := s.host.cmdIndex + 1 } arg s.inReset
        (some (joinWord arg cmd))) := by
  have hcmd := step_writeCmd (v := cmd) (es := es) (s := s.withIssue
    { s.host with pending := .host (hostWriteReg s.build 0x000 cmd) :: es, response := some .ack } arg s.inReset
    s.inFlight) hr hb rfl
  exact (run_succ (step_writeArg hr hp) _).trans (run_succ hcmd k)

/-- The core's turn on a word in flight does what its command does (R260). -/
theorem step_withIssue {s t : State} {i : Instr} {w : CmdWord} {g : HostSide} (arg : Reg) (r : Bool) {es : List Event}
    (ht : exec i s = .next t) (hd : decode s.build w = .ok i) (hp : g.pending = .core :: es) :
    step (s.withIssue g arg r (some w)) = .next (t.withIssue { g with pending := es } arg r none) :=
  (step_event (e := .core) (es := es) hp).trans
    ((coreTurn_decoded (s := s.withIssue { g with pending := es } arg r (some w)) rfl hd).trans
      (exec_withIssue ht { g with pending := es } arg r (some w)))

/-- Settles O60: two writes issue the word, the polls only read, the core's turn runs the command as exec does, and the
last poll reads its STATUS. -/
theorem issueProtocolCompletes : Obligations.IssueProtocolCompletes := by
  intro s polls i es hr hb hwf hp
  obtain ⟨t, e, ht, hfin, -⟩ := exec_ends_with_finish i s
  let arg := (encode i).extractLsb' 32 32
  let rest : List Event := [.core, .host (hostPoll s.build)] ++ es
  have hp' : s.host.pending = .host (hostWriteReg s.build 0x004 arg) ::
      .host (hostWriteReg s.build 0x000 ((encode i).extractLsb' 0 32)) ::
        (List.replicate polls (.host (hostPoll s.build)) ++ rest) := by
    simp [hp, issueEvents, arg, rest]
  have hissue := run_issue hr hb hp' (polls + 2)
  rw [joinWord_halves] at hissue
  obtain ⟨r, hpolls⟩ := run_polls polls 2 rest (s := s.withIssue
    { pending := List.replicate polls (.host (hostPoll s.build)) ++ rest, response := some .ack,
      cmdIndex := s.host.cmdIndex + 1 } arg s.inReset (some (encode i))) hr rfl
  have hcore := step_withIssue (g := { pending := rest, response := r, cmdIndex := s.host.cmdIndex + 1 }) arg s.inReset
    ht (decodeOfEncodeIsTheCommand s.build i hwf) rfl
  have hpoll := step_poll (es := es) (s := t.withIssue
    { pending := .host (hostPoll s.build) :: es, response := r, cmdIndex := s.host.cmdIndex + 1 } arg s.inReset none) hr
    (by rw [← hfin.build]; rfl)
  exact ⟨t, _, ht, hissue.trans (hpolls.trans ((run_succ hcore 1).trans
    (run_succ hpoll 0))), rfl, rfl, rfl, rfl, rfl, rfl, rfl, rfl, rfl⟩

end Sys2Proof.Machine
end

section
/-! PROOFS. What a command changes and what it depends on (spec/10_state.md R24, R38; spec/20_memory.md R64;
spec/41_sponge_engine.md R166). -/

namespace Sys2Proof.Machine

/-! ## What a command changes -/

/-- Settles O52: the frame of the body, and an error changes no context. -/
theorem commandsKeepOtherContexts : Obligations.CommandsKeepOtherContexts := by
  intro i s t h
  obtain ⟨u, hu, rfl⟩ | ⟨e, -, rfl⟩ := exec_cases h
  · exact (body_frame hu).ctxs
  · exact fun _ _ => rfl

/-- Reset writes one context. -/
theorem resetAfter_keeps {s t : State} {c : CtxId} (h : s.resetAfter c = .ok t) :
    t.result = s.result ∧ t.mem = s.mem := by
  obtain ⟨X, -, hX⟩ := Except.bind_eq_ok.1 h
  rw [← Except.ok.inj hX]
  exact ⟨rfl, rfl⟩

/-- Output writes one context and the memory. -/
theorem output_keeps {s t : State} {c : CtxId} {off : Half} {n : Nat} (h : s.output c off n = .ok t) :
    t.result = s.result := by
  rw [s.output_ok] at h
  rw [← Except.ok.inj h]
  rfl

theorem output_reset_keeps {s t : State} {c : CtxId} {off : Half} {n : Nat}
    (h : (do let u ← s.output c off n; u.resetAfter c) = .ok t) : t.result = s.result := by
  obtain ⟨u, hu, ht⟩ := Except.bind_eq_ok.1 h
  exact (resetAfter_keeps ht).1.trans (output_keeps hu)

/-- RESULT after a body that is no query's, and the memory after one that is no finalize command's. -/
theorem body_result_mem {i : Instr} {s t : State} (h : bodyOf i s = .ok t) :
    (t.result = s.result ∨ ∃ c, i = .getDigestSize c ∨ i = .getByteLength c) ∧
    (t.mem = s.mem ∨ ∃ c off len, i = .doFinal c off ∨ i = .doFinalXof c off len ∨ i = .doOutput c off len) := by
  cases i with
  | config c v n =>
    obtain ⟨row, -, rfl⟩ := configBody_ok_iff.1 h
    exact ⟨.inl rfl, .inl rfl⟩
  | reset c =>
    rw [bodyOf, resetBody_eq_resetAfter] at h
    split_ifs at h
    obtain ⟨hresult, hmem⟩ := resetAfter_keeps h
    exact ⟨.inl hresult, .inl hmem⟩
  | updateByte c b =>
    obtain ⟨-, -, rfl⟩ := updateByteBody_ok_iff.1 h
    exact ⟨.inl rfl, .inl rfl⟩
  | update c off len =>
    obtain ⟨-, -, -, rfl⟩ := updateBody_ok_iff.1 h
    exact ⟨.inl rfl, .inl rfl⟩
  | doFinal c off =>
    rw [bodyOf, doFinalBody_eq] at h
    split_ifs at h
    exact ⟨.inl (output_reset_keeps h), .inr ⟨c, off, 0, .inl rfl⟩⟩
  | doFinalXof c off len =>
    rw [bodyOf, doFinalXofBody_eq] at h
    split_ifs at h
    exact ⟨.inl (output_reset_keeps h), .inr ⟨c, off, len, .inr (.inl rfl)⟩⟩
  | doOutput c off len =>
    rw [bodyOf, doOutputBody_eq] at h
    split_ifs at h
    exact ⟨.inl (output_keeps h), .inr ⟨c, off, len, .inr (.inr rfl)⟩⟩
  | copy d c =>
    obtain ⟨-, rfl⟩ := copyBody_ok_iff.1 h
    exact ⟨.inl rfl, .inl rfl⟩
  | getDigestSize c =>
    obtain ⟨-, rfl⟩ := (queryBody_ok_iff (f := fun X => X.cfg.dsize)).1 h
    exact ⟨.inr ⟨c, .inl rfl⟩, .inl rfl⟩
  | getByteLength c =>
    obtain ⟨-, rfl⟩ := (queryBody_ok_iff (f := fun X => X.cfg.rate / 8)).1 h
    exact ⟨.inr ⟨c, .inr rfl⟩, .inl rfl⟩

/-- Settles O54: what the body does, and an error changes neither. -/
theorem whichCommandsWriteResultAndMemory : Obligations.WhichCommandsWriteResultAndMemory := by
  intro i s t h
  obtain ⟨u, hu, rfl⟩ | ⟨e, -, rfl⟩ := exec_cases h
  · obtain ⟨hresult, hmem⟩ := body_result_mem hu
    exact ⟨hresult.resolve_left, hmem.resolve_left⟩
  · exact ⟨fun hne => absurd rfl hne, fun hne => absurd rfl hne⟩

/-! ## What a command depends on -/

/-- Two states equal in what every command may depend on beside the contexts it names: the build, RESULT and the
memory's bytes. -/
structure Alike (s₁ s₂ : State) : Prop where
  build : s₁.build = s₂.build
  result : s₁.result = s₂.result
  mem : ∀ a, s₁.memByte a = s₂.memByte a

/-- Two bodies' results that agree on context c, RESULT and the memory's bytes, or on the error. -/
def AlikeAt (c : CtxId) : Except ErrKind State → Except ErrKind State → Prop
  | .ok t₁, .ok t₂ => Alike t₁ t₂ ∧ t₁.ctx c = t₂.ctx c
  | .error e₁, .error e₂ => e₁ = e₂
  | _, _ => False

section Alike

variable {s₁ s₂ : State} {c : CtxId} (h : Alike s₁ s₂)
include h

theorem Alike.setCtx (c : CtxId) (X Y : Context) : Alike (s₁.setCtx c X) (s₂.setCtx c Y) := ⟨h.build, h.result, h.mem⟩

theorem Alike.memWrite (a : Nat) (vs : List Byte) : Alike (s₁.memWrite a vs) (s₂.memWrite a vs) :=
  ⟨h.build, h.result, fun b => by rw [State.memByte_memWrite, State.memByte_memWrite, h.mem]⟩

theorem Alike.source (off len : Half) : s₁.source off len = s₂.source off len := by
  simp only [State.source, State.memRead, h.mem]

/-- The same context written back. -/
theorem Alike.setCtx_alikeAt (c : CtxId) (X : Context) : AlikeAt c (.ok (s₁.setCtx c X)) (.ok (s₂.setCtx c X)) :=
  ⟨h.setCtx c X X, by rw [State.ctx_setCtx_same, State.ctx_setCtx_same]⟩

theorem Alike.setResult_alikeAt (hc : s₁.ctx c = s₂.ctx c) (v : Reg) :
    AlikeAt c (.ok (s₁.setResult v)) (.ok (s₂.setResult v)) := ⟨⟨h.build, rfl, h.mem⟩, hc⟩

theorem Alike.resetAfter (hc : s₁.ctx c = s₂.ctx c) : AlikeAt c (s₁.resetAfter c) (s₂.resetAfter c) := by
  rw [State.resetAfter, State.resetAfter, hc]
  cases (s₂.ctx c).resetSponge with
  | ok X => exact h.setCtx_alikeAt c X
  | error e => rfl

theorem Alike.output (hc : s₁.ctx c = s₂.ctx c) (off : Half) (n : Nat) :
    AlikeAt c (s₁.output c off n) (s₂.output c off n) := by
  rw [State.output_ok, State.output_ok, hc]
  exact ⟨(h.setCtx c _ _).memWrite _ _, by simp⟩

theorem Alike.output_reset (hc : s₁.ctx c = s₂.ctx c) (off : Half) (n : Nat) :
    AlikeAt c (do let t ← s₁.output c off n; t.resetAfter c) (do let t ← s₂.output c off n; t.resetAfter c) := by
  rw [State.output_ok, State.output_ok, hc]
  exact Alike.resetAfter ((h.setCtx c _ _).memWrite _ _) (by simp)

end Alike

/-- A check that both states decide alike keeps two results alike. -/
theorem AlikeAt.check {c : CtxId} {r₁ r₂ : Except ErrKind State} (p : Prop) [Decidable p] (e : ErrKind)
    (h : AlikeAt c r₁ r₂) : AlikeAt c (if p then r₁ else .error e) (if p then r₂ else .error e) := by
  split_ifs
  · exact h
  · rfl

/-- A body depends on the contexts it names, the memory's bytes, RESULT and the build. -/
theorem body_alike (i : Instr) {s₁ s₂ : State} (h : Alike s₁ s₂) (hc : s₁.ctx (ctxOf i) = s₂.ctx (ctxOf i))
    (hsrc : s₁.ctx (checkedCtx i) = s₂.ctx (checkedCtx i)) : AlikeAt (ctxOf i) (bodyOf i s₁) (bodyOf i s₂) := by
  cases i with
  | config c v n =>
    change s₁.ctx c = s₂.ctx c at hc
    show AlikeAt c (configBody c v n s₁) (configBody c v n s₂)
    cases hrow : configRow v n with
    | ok row =>
      rw [configBody_ok _ _ hrow, configBody_ok _ _ hrow, hc]
      exact h.setCtx_alikeAt c _
    | error e =>
      rw [configBody_error _ _ hrow, configBody_error _ _ hrow]
      rfl
  | reset c =>
    change s₁.ctx c = s₂.ctx c at hc
    rw [bodyOf, resetBody_eq_resetAfter, resetBody_eq_resetAfter, hc]
    exact .check _ _ (h.resetAfter hc)
  | updateByte c b =>
    change s₁.ctx c = s₂.ctx c at hc
    rw [bodyOf, updateByteBody_eq, updateByteBody_eq, hc]
    exact .check _ _ (.check _ _ (h.setCtx_alikeAt c _))
  | update c off len =>
    change s₁.ctx c = s₂.ctx c at hc
    rw [bodyOf, updateBody_eq, updateBody_eq, hc, h.build, h.source]
    exact .check _ _ (.check _ _ (.check _ _ (h.setCtx_alikeAt c _)))
  | doFinal c off =>
    change s₁.ctx c = s₂.ctx c at hc
    rw [bodyOf, doFinalBody_eq, doFinalBody_eq, hc, h.build]
    exact .check _ _ (.check _ _ (h.output_reset hc off _))
  | doFinalXof c off len =>
    change s₁.ctx c = s₂.ctx c at hc
    rw [bodyOf, doFinalXofBody_eq, doFinalXofBody_eq, hc, h.build]
    exact .check _ _ (.check _ _ (.check _ _ (h.output_reset hc off _)))
  | doOutput c off len =>
    change s₁.ctx c = s₂.ctx c at hc
    rw [bodyOf, doOutputBody_eq, doOutputBody_eq, hc, h.build]
    exact .check _ _ (.check _ _ (.check _ _ (h.output hc off _)))
  | copy d c =>
    change s₁.ctx c = s₂.ctx c at hsrc
    rw [bodyOf, copyBody_eq, copyBody_eq, hsrc]
    exact .check _ _ (h.setCtx_alikeAt d _)
  | getDigestSize c =>
    change s₁.ctx c = s₂.ctx c at hc
    rw [bodyOf, queryBody_eq, queryBody_eq, hc]
    exact .check _ _ (h.setResult_alikeAt hc _)
  | getByteLength c =>
    change s₁.ctx c = s₂.ctx c at hc
    rw [bodyOf, queryBody_eq, queryBody_eq, hc]
    exact .check _ _ (h.setResult_alikeAt hc _)

/-- Settles O53: alike bodies finish alike, and an error leaves the states that were alike. -/
theorem commandsReadNoOtherContext : Obligations.CommandsReadNoOtherContext := by
  intro i s₁ s₂ t₁ t₂ hbuild hresult hmem hc hsrc h₁ h₂
  have alike : Alike s₁ s₂ := ⟨hbuild, hresult, hmem⟩
  have h := body_alike i alike hc hsrc
  obtain ⟨u₁, hu₁, rfl⟩ | ⟨e₁, he₁, rfl⟩ := exec_cases h₁ <;> obtain ⟨u₂, hu₂, rfl⟩ | ⟨e₂, he₂, rfl⟩ := exec_cases h₂
  · rw [hu₁, hu₂] at h
    exact ⟨h.2, h.1.mem, h.1.result, rfl⟩
  · rw [hu₁, he₂] at h
    exact h.elim
  · rw [he₁, hu₂] at h
    exact h.elim
  · rw [he₁, he₂] at h
    exact ⟨hc, hmem, hresult, congrArg some h⟩

end Sys2Proof.Machine
end
